-- ==== Sys2Proof/Word.lean ====
section
/-! DEFINITION. The two word types of the core: the 32-bit bus word (rule R48) and the byte of the bitstream (rule R58). -/

namespace Sys2Proof

/-- One 32-bit word of the host bus (rules R48, R50). -/
abbrev Word := BitVec 32

/-- One byte of the bitstream, the content of one OUT_BUF or IN_BUF entry (rules R55, R56, R58). -/
abbrev Byte := BitVec 8

/-- One byte address inside the core's 20-bit host address space (rule R47). -/
abbrev Addr := BitVec 20

end Sys2Proof
end

