-- ==== Sys2Proof/Syntax.lean ====
section
/-! DEFINITION. The commands of the core, one constructor per row of the opcode table (rule R72), with their operands, and
the raw fields of a command word (rule R70). -/

namespace Sys2Proof

/-- The block category `blk_type` (rules R70, R82): which scan order a block command uses. -/
inductive BlkType where
  /-- BLK = 0, the "inter" order, `SCAN[0]`. -/
  | inter
  /-- BLK = 1, the alternate field-style order, `SCAN[1]`. -/
  | field
  deriving DecidableEq, Repr

/-- The `component` operand (rules R70, R71): accepted and ignored. -/
inductive Component where
  /-- COMP = 0. -/
  | luma
  /-- COMP = 1. -/
  | chroma1
  /-- COMP = 2. -/
  | chroma2
  /-- COMP = 3, unnamed. -/
  | unnamed
  deriving DecidableEq, Repr

/-- A command (rule R72). A context index is one of the 32 values its 5-bit field admits (rules R70, R76), a bin is one
bit. -/
inductive Instr where
  /-- 0x0 NOP (rule R141). -/
  | nop
  /-- 0x1 ENC_CTX_RESET (rule R142). -/
  | encCtxReset
  /-- 0x2 DEC_CTX_RESET (rule R143). -/
  | decCtxReset
  /-- 0x3 ENC_START (rule R104). -/
  | encStart
  /-- 0x4 ENC_BIN ctx, bin (rule R107). -/
  | encBin (ctx : Fin 32) (bin : Bool)
  /-- 0x5 ENC_FINISH (rule R108). -/
  | encFinish
  /-- 0x6 ENC_BLOCK blk, comp (rule R144). -/
  | encBlock (blk : BlkType) (comp : Component)
  /-- 0x7 DEC_LOAD (rule R146). -/
  | decLoad
  /-- 0x8 DEC_START (rule R115). -/
  | decStart
  /-- 0x9 DEC_BIN ctx (rule R116). -/
  | decBin (ctx : Fin 32)
  /-- 0xA DEC_BLOCK blk, comp (rule R147). -/
  | decBlock (blk : BlkType) (comp : Component)
  deriving DecidableEq, Repr

/-- The fields of a command word, least significant first (rule R70). -/
structure CmdFields where
  /-- Bits 3:0, OP. -/
  op : BitVec 4
  /-- Bit 4, BLK. -/
  blk : BitVec 1
  /-- Bits 6:5, COMP. -/
  comp : BitVec 2
  /-- Bit 7, reserved, must be 0. -/
  reserved7 : BitVec 1
  /-- Bits 12:8, CTX. -/
  ctx : BitVec 5
  /-- Bit 13, BIN. -/
  bin : BitVec 1
  /-- Bits 31:14, reserved, must be 0. -/
  reservedHigh : BitVec 18
  deriving DecidableEq, Repr

end Sys2Proof
end

