-- ==== Sys2Proof/WellFormed.lean ====
section
/-! DEFINITION. Which command words are legal, stated on their fields: rule R72 says "Used fields may take any value; every
other field, and bits 7 and 31:14, must be 0", and rule R75 gives it per opcode. The operands of a command itself carry
their ranges in their types, so an ill-formed term is a term of fields. -/

namespace Sys2Proof

/-- Bits 7 and 31:14 are 0 (rules R70, R72). -/
def CmdFields.reservedZero (f : CmdFields) : Bool := f.reserved7 == 0 && f.reservedHigh == 0

/-- BLK and COMP are 0, for an opcode that does not use them (rule R72). -/
def CmdFields.blockFieldsZero (f : CmdFields) : Bool := f.blk == 0 && f.comp == 0

/-- CTX is 0, for an opcode that does not use it (rule R72). -/
def CmdFields.ctxZero (f : CmdFields) : Bool := f.ctx == 0

/-- BIN is 0, for an opcode that does not use it (rule R72). -/
def CmdFields.binZero (f : CmdFields) : Bool := f.bin == 0

/-- OP is one of the defined opcodes 0x0..0xA (rule R72). -/
def CmdFields.opcodeDefined (f : CmdFields) : Bool := f.op.toNat ≤ 0xA

/-- OP uses the BLK and COMP fields: ENC_BLOCK and DEC_BLOCK (rule R72). -/
def CmdFields.usesBlock (f : CmdFields) : Bool := f.op == 0x6 || f.op == 0xA

/-- OP uses the CTX field: ENC_BIN and DEC_BIN (rule R72). -/
def CmdFields.usesCtx (f : CmdFields) : Bool := f.op == 0x4 || f.op == 0x9

/-- OP uses the BIN field: ENC_BIN alone (rule R72). -/
def CmdFields.usesBin (f : CmdFields) : Bool := f.op == 0x4

/-- The word with these fields is a legal command (rules R72, R75). -/
def CmdFields.wellFormed (f : CmdFields) : Bool :=
  f.opcodeDefined && f.reservedZero && (f.usesBlock || f.blockFieldsZero) && (f.usesCtx || f.ctxZero) &&
    (f.usesBin || f.binZero)

end Sys2Proof
end

