-- ==== Sys2Proof/Decode.lean ====
section
/-! DEFINITION. The command decoder, total on every 32-bit word (rule R75) and rejecting illegal words by name, and after
it the encoder (rules R70, R77) and the assembler text of a command (rule R77). -/

namespace Sys2Proof

/-- Why a word is no command (rule R74). All of them raise ILLEGAL_CMD. -/
inductive Illegal where
  /-- A reserved opcode 0xB..0xF. -/
  | reservedOpcode (op : BitVec 4)
  /-- A defined opcode with bit 7 or one of the bits 31:14 set. -/
  | reservedBits
  /-- A defined opcode with a non-zero field that it does not use. -/
  | unusedField
  deriving DecidableEq, Repr

/-- What the decoder makes of a word: exactly one command, or illegal (rule R75). -/
inductive Decoded where
  | command (i : Instr)
  | illegal (why : Illegal)
  deriving DecidableEq, Repr

/-- The fields of a command word at their bits (rule R70). -/
def CmdFields.ofWord (w : Word) : CmdFields where
  op := w.extractLsb' 0 4
  blk := w.extractLsb' 4 1
  comp := w.extractLsb' 5 2
  reserved7 := w.extractLsb' 7 1
  ctx := w.extractLsb' 8 5
  bin := w.extractLsb' 13 1
  reservedHigh := w.extractLsb' 14 18

/-- BLK: 0 is `SCAN[0]`, 1 is `SCAN[1]` (rule R70). -/
def BlkType.ofBits (b : BitVec 1) : BlkType := if b = 0 then .inter else .field

/-- COMP: 0 luma, 1 first chroma, 2 second chroma, 3 unnamed (rule R70). -/
def Component.ofBits (b : BitVec 2) : Component :=
  if b = 0 then .luma else if b = 1 then .chroma1 else if b = 2 then .chroma2 else .unnamed

/-- The command of a well-formed set of fields (rules R71, R72); `none` for a reserved opcode. -/
def CmdFields.command (f : CmdFields) : Option Instr :=
  match f.op.toNat with
  | 0x0 => some .nop
  | 0x1 => some .encCtxReset
  | 0x2 => some .decCtxReset
  | 0x3 => some .encStart
  | 0x4 => some (.encBin f.ctx.toFin (f.bin == 1))
  | 0x5 => some .encFinish
  | 0x6 => some (.encBlock (BlkType.ofBits f.blk) (Component.ofBits f.comp))
  | 0x7 => some .decLoad
  | 0x8 => some .decStart
  | 0x9 => some (.decBin f.ctx.toFin)
  | 0xA => some (.decBlock (BlkType.ofBits f.blk) (Component.ofBits f.comp))
  | _ => none

/-- The name of what is wrong with fields that are no command (rule R74). -/
def CmdFields.whyIllegal (f : CmdFields) : Illegal :=
  if f.opcodeDefined = false then .reservedOpcode f.op
  else if f.reservedZero = false then .reservedBits
  else .unusedField

/-- The decoder (rule R75). -/
def decode (w : Word) : Decoded :=
  let f := CmdFields.ofWord w
  match f.wellFormed, f.command with
  | true, some i => .command i
  | _, _ => .illegal f.whyIllegal

/-- The instruction the decoder reads from an opcode-table word of `nbits` bits (bit 0 the least significant of the one
32-bit word); `none` where the decoder refuses the word. A command is exactly one word (rule R69), so bits above 31 are
no part of one. -/
def decodeTableWord (nbits w : Nat) : Option Instr :=
  let v := w % 2 ^ nbits
  if v < 2 ^ 32 then
    match decode (BitVec.ofNat 32 v) with
    | .command i => some i
    | .illegal _ => none
  else none

/-! The encoder. -/

/-- The opcode of a command (rule R72). -/
def Instr.opcode : Instr → BitVec 4
  | .nop => 0x0
  | .encCtxReset => 0x1
  | .decCtxReset => 0x2
  | .encStart => 0x3
  | .encBin _ _ => 0x4
  | .encFinish => 0x5
  | .encBlock _ _ => 0x6
  | .decLoad => 0x7
  | .decStart => 0x8
  | .decBin _ => 0x9
  | .decBlock _ _ => 0xA

/-- The BLK bit of a block category (rule R70). -/
def BlkType.bits : BlkType → BitVec 1
  | .inter => 0
  | .field => 1

/-- The COMP bits of a component (rule R70). -/
def Component.bits : Component → BitVec 2
  | .luma => 0
  | .chroma1 => 1
  | .chroma2 => 2
  | .unnamed => 3

/-- The CTX field of a command, 0 where unused (rules R70, R72). -/
def Instr.ctxField : Instr → BitVec 5
  | .encBin c _ => BitVec.ofFin c
  | .decBin c => BitVec.ofFin c
  | _ => 0

/-- The BIN field of a command, 0 where unused (rules R70, R72). -/
def Instr.binField : Instr → BitVec 1
  | .encBin _ b => BitVec.ofBool b
  | _ => 0

/-- The BLK field of a command, 0 where unused (rules R70, R72). -/
def Instr.blkField : Instr → BitVec 1
  | .encBlock k _ => k.bits
  | .decBlock k _ => k.bits
  | _ => 0

/-- The COMP field of a command, 0 where unused (rules R70, R72). -/
def Instr.compField : Instr → BitVec 2
  | .encBlock _ m => m.bits
  | .decBlock _ m => m.bits
  | _ => 0

/-- The fields of a command (rule R70). -/
def Instr.fields (i : Instr) : CmdFields where
  op := i.opcode
  blk := i.blkField
  comp := i.compField
  reserved7 := 0
  ctx := i.ctxField
  bin := i.binField
  reservedHigh := 0

/-- A command is well formed if its fields are: true of every command, since its operand types admit exactly the values
of their fields (rule R76). -/
def Instr.wellFormed (i : Instr) : Bool := i.fields.wellFormed

/-- "The encoding of a command is `OP | blk<<4 | comp<<5 | ctx<<8 | bin<<13`" (rule R77). -/
def encode (i : Instr) : Word :=
  i.opcode.setWidth 32 ||| (i.blkField.setWidth 32 <<< 4) ||| (i.compField.setWidth 32 <<< 5) |||
    (i.ctxField.setWidth 32 <<< 8) ||| (i.binField.setWidth 32 <<< 13)

/-- The opcode table's mnemonic of a command (rule R72). -/
def Instr.mnemonic : Instr → String
  | .nop => "NOP"
  | .encCtxReset => "ENC_CTX_RESET"
  | .decCtxReset => "DEC_CTX_RESET"
  | .encStart => "ENC_START"
  | .encBin _ _ => "ENC_BIN"
  | .encFinish => "ENC_FINISH"
  | .encBlock _ _ => "ENC_BLOCK"
  | .decLoad => "DEC_LOAD"
  | .decStart => "DEC_START"
  | .decBin _ => "DEC_BIN"
  | .decBlock _ _ => "DEC_BLOCK"

/-- The match and mask of each command, by mnemonic (rule R73): "a word w selects the command when `(w & mask) == match`".
The decoder above is written from rule R75; that the two agree is a statement. -/
def opcodeTable : List (String × Word × Word) :=
  [("NOP", 0x00000000, 0xFFFFFFFF), ("ENC_CTX_RESET", 0x00000001, 0xFFFFFFFF), ("DEC_CTX_RESET", 0x00000002, 0xFFFFFFFF),
    ("ENC_START", 0x00000003, 0xFFFFFFFF), ("ENC_BIN", 0x00000004, 0xFFFFC0FF), ("ENC_FINISH", 0x00000005, 0xFFFFFFFF),
    ("ENC_BLOCK", 0x00000006, 0xFFFFFF8F), ("DEC_LOAD", 0x00000007, 0xFFFFFFFF), ("DEC_START", 0x00000008, 0xFFFFFFFF),
    ("DEC_BIN", 0x00000009, 0xFFFFE0FF), ("DEC_BLOCK", 0x0000000A, 0xFFFFFF8F)]

/-- The spec's textual form of a command (rule R77); `comp` is written out in full. -/
def Instr.text (i : Instr) : String :=
  match i with
  | .encBin c b => i.mnemonic ++ " ctx=" ++ toString c.val ++ ", bin=" ++ (if b then "1" else "0")
  | .decBin c => i.mnemonic ++ " ctx=" ++ toString c.val
  | .encBlock k m => i.mnemonic ++ " blk=" ++ toString k.bits.toNat ++ ", comp=" ++ toString m.bits.toNat
  | .decBlock k m => i.mnemonic ++ " blk=" ++ toString k.bits.toNat ++ ", comp=" ++ toString m.bits.toNat
  | .nop | .encCtxReset | .decCtxReset | .encStart | .encFinish | .decLoad | .decStart => i.mnemonic

end Sys2Proof
end

