-- ==== Sys2Proof/Config.lean ====
section
/-! DEFINITION. The implementation parameters of rule R9, the opaque constants for those the spec leaves OPEN, and the
opaque draws of the buffers' unspecified reset contents (rules R45, R46). -/

namespace Sys2Proof

/-- Number of context entries of each unit (rule R9, parameter `NCTX`). -/
abbrev Config.nctx : Nat := 32

/-- Coefficient width in bits, two's complement (rule R9, parameter `COEF_W`). -/
abbrev Config.coefW : Nat := 16

/-- The decoder's bound on a unary prefix (rules R9, R134, parameter `PREFIX_LIMIT`): 2185. -/
abbrev Config.prefixLimit : Nat := 2 ^ (Config.coefW - 1) / 15 + 1

/-- The range a session and a primed block start from (rule R9, parameter `RANGE_INIT`). -/
abbrev Config.rangeInit : BitVec 9 := 510

/-- The reserved range value of the termination (rules R9, R105, parameter `TERM_RANGE`). -/
abbrev Config.termRange : BitVec 9 := 2

/-- The parameters of one core that rule R9 lets an implementation choose. They are "fixed for an instance of the core"
and "a model takes them as arguments of the step relation" (rule R44): the interface's step takes a state alone, so the
argument rides in `State.cfg`, which no step changes. The tables' entry types give the ranges of rule R10 that a width
can give (16-bit scales, 4-bit states, positions 0..15); the rest of rule R10 is `Config.Legal`. -/
structure Config where
  /-- `LPS_SCALE[s]`, OPEN. -/
  lpsScale : Vector (BitVec 16) 16
  /-- `TRANS[s][0]`, the state after an MPS, OPEN. -/
  transMps : Vector (BitVec 4) 16
  /-- `TRANS[s][1]`, the state after an LPS, OPEN. -/
  transLps : Vector (BitVec 4) 16
  /-- `SCAN[0]`, the "inter" order, OPEN. -/
  scanInter : Vector (Fin 16) 16
  /-- `SCAN[1]`, the field-style order, OPEN. -/
  scanField : Vector (Fin 16) 16
  /-- `OUT_CAP`, bytes of OUT_BUF (any of 2..65536). -/
  outCap : Nat
  /-- `IN_CAP`, bytes of IN_BUF (any of 2..65536). -/
  inCap : Nat
  /-- `CORE_BASE`, the platform's address of the 20-bit window, OPEN (rule R57). -/
  coreBase : Nat
  deriving DecidableEq, Repr

/-- Rule R10's constraints, and rule R9's bounds on the capacities. -/
abbrev Config.Legal (c : Config) : Prop :=
  (∀ i : Fin 16, 256 ≤ (c.lpsScale.get i).toNat) ∧
  (∀ p : Fin 16, ∃ i : Fin 16, c.scanInter.get i = p) ∧
  (∀ p : Fin 16, ∃ i : Fin 16, c.scanField.get i = p) ∧
  (2 ≤ c.outCap ∧ c.outCap ≤ 65536) ∧ (2 ≤ c.inCap ∧ c.inCap ≤ 65536)

/-- `LPS_SCALE` of the core at reset: no source gives a value (rules R9, R96), so nothing in the model can see one. -/
opaque Config.openLpsScale : Vector (BitVec 16) 16

/-- `TRANS[.][0]` of the core at reset, OPEN (rules R9, R96). -/
opaque Config.openTransMps : Vector (BitVec 4) 16

/-- `TRANS[.][1]` of the core at reset, OPEN (rules R9, R96). -/
opaque Config.openTransLps : Vector (BitVec 4) 16

/-- `SCAN[0]` of the core at reset, OPEN (rules R9, R81). -/
opaque Config.openScanInter : Vector (Fin 16) 16

/-- `SCAN[1]` of the core at reset, OPEN (rules R9, R81). -/
opaque Config.openScanField : Vector (Fin 16) 16

/-- `CORE_BASE` of the core at reset, OPEN (rule R57). -/
opaque Config.openCoreBase : Nat

/-- The parameters `State.reset` holds: the OPEN ones opaque, the capacities at rule R9's values. -/
def Config.atReset : Config where
  lpsScale := Config.openLpsScale
  transMps := Config.openTransMps
  transLps := Config.openTransLps
  scanInter := Config.openScanInter
  scanField := Config.openScanField
  outCap := 65536
  inCap := 65536
  coreBase := Config.openCoreBase

/-- The byte OUT_BUF[i] holds after the n-th reset, until something is written there: "unspecified (any byte; a model
draws it)" (rules R45, R46). -/
opaque Config.outBufDraw (n i : Nat) : Byte

/-- The byte IN_BUF[i] holds after the n-th reset, until something is written there (rules R45, R46). -/
opaque Config.inBufDraw (n i : Nat) : Byte

end Sys2Proof
end

