-- ==== Sys2Proof/Machine/State.lean ====
section
/-! DEFINITION. The state of the core as plain data: the encoder unit, the decoder unit, STATUS, the parameters of the
core (rule R44), the host's pending accesses (rules R63, R176) and the data the bus returned last. Also the ways a step
can stop, and the reset state (rule R45). -/

namespace Sys2Proof.Machine

/-- Why a step stops with a fault. Each is an access that the spec refuses: "the bus answers with an error, the core's
state does not change, and a model has no step for it" (rules R48, R49, R167). All are raised by `Machine.step` when the
host's next access is such an access, and all are safe: the model stops where the core would go on unchanged. DESIGN
CHOICE of the form, log entry 4. -/
inductive Fault where
  /-- An access of a width other than 32 bits (rule R48). Safe. -/
  | accessWidth (bits : Nat)
  /-- An access at an address that is no multiple of 4 (rule R48). Safe. -/
  | misalignedAddress (a : Addr)
  /-- An access at an address that rule R50 does not list, an OUT_BUF index at or above OUT_CAP and an IN_BUF index at or
  above IN_CAP among them (rule R49). Safe. -/
  | unmappedAddress (a : Addr)
  /-- An access other than a read of STATUS while BUSY is 1 (rule R167); no run from reset reaches it, since BUSY is 0
  after every command. Safe. -/
  | accessWhileBusy
  deriving DecidableEq, Repr

/-- Why a step gives an instruction no meaning. -/
inductive Refusal where
  /-- An instruction of the opcode table that `Machine.exec` has no meaning for: raised by no arm of this model, in which
  every command has its meaning. Safe. -/
  | notModelled (mnemonic : String)
  deriving DecidableEq, Repr

/-- The error codes of STATUS.ERR (rule R151); the reserved codes 11 to 15 have no value here. DEDUCED, safe, log entry 9. -/
inductive ErrCode where
  | ok
  | illegalCmd
  | notReady
  | shortStream
  | badLen
  | streamInvalid
  | levelRange
  | outOverflow
  | zeroWidth
  | notStarted
  /-- Reserved, never raised (rules R151, R167). -/
  | busy
  deriving DecidableEq, Repr

/-- A context entry `{mps: 1 bit, state: 4 bits}` (rules R29, R84). -/
structure Ctx where
  mps : Bool
  state : BitVec 4
  deriving DecidableEq, Repr

/-- The default context entry (rule R97, parameter `CTX_INIT`). -/
def Ctx.init : Ctx := ⟨false, 0⟩

/-- The context table of one unit (rules R29, R38, R85). -/
abbrev CtxTable := Vector Ctx 32

/-- 16 coefficient registers, by raster position (rules R30, R39). -/
abbrev Coefs := Vector (BitVec 16) 16

/-- The bytes of a buffer that have been written since reset, by index: addresses strictly rising. An unlisted address
holds no value of its own here; what a read of it gives is `EncUnit.outByteAt` and `DecUnit.inByteAt` (the draw of rules
R45 and R46). -/
abbrev Memory := List Host.Cell

/-- The canonical form: indices strictly rising. No entry can equal what an unlisted address holds, since that is no
value. -/
abbrev Memory.wf (m : Memory) : Prop := m.Pairwise (fun a b => a.1 < b.1)

/-- The encoder unit (rules R22 to R30). -/
structure EncUnit where
  /-- `ENC.R`, the range (rule R22). -/
  r : BitVec 9
  /-- `ENC.L`, the low accumulator (rule R23). -/
  l : BitVec 19
  /-- `ENC.CNT`, the pending-bit counter (rule R24). -/
  cnt : BitVec 4
  /-- `ENC.PEND_VALID` (rule R25). -/
  pendValid : Bool
  /-- `ENC.PEND` (rule R25). -/
  pend : Byte
  /-- `ENC.FF_RUN` (rule R26). -/
  ffRun : BitVec 17
  /-- `ENC.ACTIVE` (rule R27). -/
  active : Bool
  /-- `OUT_LEN` (rule R28). -/
  outLen : BitVec 17
  /-- `OUT_BUF`, the bytes written since reset (rule R28). -/
  outBuf : Memory
  /-- The model's own field: the number of the reset whose draw gives the unwritten bytes of OUT_BUF (rule R46). DESIGN
  CHOICE, safe, log entry 3. -/
  outDraw : Nat
  /-- `CTX_E` (rule R29). -/
  ctx : CtxTable
  /-- `COEF_IN` (rule R30). -/
  coefIn : Coefs
  deriving DecidableEq, Repr

/-- The decoder unit (rules R31 to R39). -/
structure DecUnit where
  /-- `DEC.R`, the range (rule R31). -/
  r : BitVec 9
  /-- `DEC.CODE`, the offset (rule R32). -/
  code : BitVec 9
  /-- `DEC.RES`, the bit reservoir (rule R33). -/
  res : Byte
  /-- `DEC.NRES`, the number of bits left in it (rule R33). -/
  nres : BitVec 4
  /-- `DEC.CUR`, the byte cursor (rule R34). -/
  cur : BitVec 32
  /-- `DEC.LEN`, the latched stream length (rule R35). -/
  len : BitVec 17
  /-- `DEC.READY` (rule R36). -/
  ready : Bool
  /-- `DEC.ACTIVE` (rule R36). -/
  active : Bool
  /-- `IN_BUF`, the bytes written since reset (rule R37). -/
  inBuf : Memory
  /-- The model's own field: the number of the reset whose draw gives the unwritten bytes of IN_BUF (rule R46). DESIGN
  CHOICE, safe, log entry 3. -/
  inDraw : Nat
  /-- `IN_LEN` (rule R37). -/
  inLen : BitVec 17
  /-- `CTX_D` (rule R38). -/
  ctx : CtxTable
  /-- `COEF_OUT` (rule R39). -/
  coefOut : Coefs
  deriving DecidableEq, Repr

/-- The fields of STATUS that are no copies of unit state (rule R41). ENC_ACTIVE, DEC_READY and DEC_ACTIVE are copies and
are computed where STATUS is read. -/
structure Status where
  /-- Bit 0, BUSY. -/
  busy : Bool
  /-- Bit 4, BIN. -/
  bin : Bool
  /-- Bit 5, FAULT, sticky. -/
  fault : Bool
  /-- Bits 11:8, ERR. -/
  err : ErrCode
  deriving DecidableEq, Repr

/-- What the outside world can do to the core, in the host's program order (rules R47, R48, R63, R163, R176). -/
inductive HostEvent where
  /-- A bus read of `bits` bits at `a`. -/
  | read (bits : Nat) (a : Addr)
  /-- A bus write of `bits` bits at `a`. -/
  | write (bits : Nat) (a : Addr) (data : Word)
  /-- The external reset event. -/
  | reset
  deriving DecidableEq, Repr

/-- The whole state. -/
structure State where
  /-- The core's parameters (rule R44): the step's argument, which no step changes. DESIGN CHOICE of the place, safe, log
  entry 2. -/
  cfg : Config
  /-- The encoder unit. -/
  enc : EncUnit
  /-- The decoder unit. -/
  dec : DecUnit
  /-- STATUS. -/
  status : Status
  /-- The model's own field: the host's accesses still to come, in order. DESIGN CHOICE, safe, log entry 1. -/
  pending : List HostEvent
  /-- The model's own field: the data the bus returned for the last event, `none` unless that was a read. DESIGN CHOICE,
  safe, log entry 1. -/
  rdata : Option Word
  deriving DecidableEq, Repr

/-- A context table with every entry at CTX_INIT (rule R97). -/
def CtxTable.init : CtxTable := Vector.replicate 32 Ctx.init

/-- Sixteen coefficient registers at 0 (rule R45). -/
def Coefs.zero : Coefs := Vector.replicate 16 0

/-- The encoder unit after reset number `n` (rule R45). -/
def EncUnit.reset (n : Nat) : EncUnit where
  r := Config.rangeInit
  l := 0
  cnt := 8
  pendValid := false
  pend := 0
  ffRun := 0
  active := false
  outLen := 0
  outBuf := []
  outDraw := n
  ctx := CtxTable.init
  coefIn := Coefs.zero

/-- The decoder unit after reset number `n` (rule R45). -/
def DecUnit.reset (n : Nat) : DecUnit where
  r := Config.rangeInit
  code := 0
  res := 0
  nres := 0
  cur := 0
  len := 0
  ready := false
  active := false
  inBuf := []
  inDraw := n
  inLen := 0
  ctx := CtxTable.init
  coefOut := Coefs.zero

/-- STATUS after reset: 0 (rule R45). -/
def Status.reset : Status := ⟨false, false, false, .ok⟩

/-- The state after reset number `n` of a core with parameters `c`, with the host accesses `h` still to come (rules R45,
R163). -/
def State.afterReset (c : Config) (n : Nat) (h : List HostEvent) : State where
  cfg := c
  enc := EncUnit.reset n
  dec := DecUnit.reset n
  status := Status.reset
  pending := h
  rdata := none

/-- The machine right after reset (rules R45, R163, R165): no host access is pending, so it waits. -/
def State.reset : State := State.afterReset Config.atReset 0 []

end Sys2Proof.Machine
end

