-- ==== Sys2Proof/Machine/Flags.lean ====
section
/-! DEFINITION. STATUS: how a command that completes and a command that faults leave it, the error codes, and the word a
read of STATUS returns (rules R41, R151 to R154). -/

namespace Sys2Proof.Machine

/-- The number of an error (rule R151). -/
def ErrCode.code : ErrCode → BitVec 4
  | .ok => 0
  | .illegalCmd => 1
  | .notReady => 2
  | .shortStream => 3
  | .badLen => 4
  | .streamInvalid => 5
  | .levelRange => 6
  | .outOverflow => 7
  | .zeroWidth => 8
  | .notStarted => 9
  | .busy => 10

/-- A command that completes "sets `STATUS.ERR <- OK` and leaves STATUS.FAULT unchanged" (rule R153); BUSY is 0 after it
(rule R80). -/
def Status.completed (t : Status) : Status := { t with err := .ok, busy := false }

/-- A command that raises `e`: `STATUS.ERR <- code(NAME)`; `STATUS.FAULT <- 1` (rule R152); BUSY is 0 after it
(rule R80). -/
def Status.raised (e : ErrCode) (t : Status) : Status := { t with err := e, fault := true, busy := false }

/-- `STATUS.BIN <- b` (rule R116). -/
def Status.withBin (b : Bool) (t : Status) : Status := { t with bin := b }

/-- The STATUS word (rule R41): ENC_ACTIVE, DEC_READY and DEC_ACTIVE are copies of the units' flags, bits 7:6 and 31:12
read 0. -/
def State.statusWord (s : State) : Word :=
  (BitVec.ofBool s.status.busy).setWidth 32 |||
  ((BitVec.ofBool s.enc.active).setWidth 32 <<< 1) |||
  ((BitVec.ofBool s.dec.ready).setWidth 32 <<< 2) |||
  ((BitVec.ofBool s.dec.active).setWidth 32 <<< 3) |||
  ((BitVec.ofBool s.status.bin).setWidth 32 <<< 4) |||
  ((BitVec.ofBool s.status.fault).setWidth 32 <<< 5) |||
  (s.status.err.code.setWidth 32 <<< 8)

end Sys2Proof.Machine
end

