-- ==== Sys2Proof/Machine/Ops.lean ====
section
/-! DEFINITION. The operations every command is built from: the result of a procedure that may raise a fault, reading and
writing a buffer, the context updates (rules R94, R95), the width split (rule R93), the byte operations of the two buffers
(rules R103, R109), and how a command ends: normally, or by raising a fault (rules R152, R153), which is this core's only
exception. There is no return from one: "There is no trap entry and no trap return" (rule R160). -/

namespace Sys2Proof.Machine

/-- The result of a procedure on a unit `σ`: it went through, or it raised error `e`. Both hold the unit as it then is:
"Nothing after the raise point in the pseudocode is executed; everything before it stays done" (rule R152). -/
inductive Res (σ α : Type) where
  | ok (a : α) (u : σ)
  | raised (e : ErrCode) (u : σ)
  deriving DecidableEq, Repr

/-- Go on with `f` unless a fault was raised (rule R152). -/
def Res.bind {σ α β : Type} (x : Res σ α) (f : α → σ → Res σ β) : Res σ β :=
  match x with
  | .ok a u => f a u
  | .raised e u => .raised e u

/-! Buffers. -/

/-- The byte written at index `a`, if one was. -/
def Memory.read? : Memory → Nat → Option Byte
  | [], _ => none
  | (k, v) :: m, a => if a = k then some v else Memory.read? m a

/-- Write byte `v` at index `a`, keeping the indices strictly rising. -/
def Memory.write : Memory → Nat → Byte → Memory
  | [], a, v => [(a, v)]
  | (k, w) :: m, a, v =>
    if a < k then (a, v) :: (k, w) :: m
    else if a = k then (a, v) :: m
    else (k, w) :: Memory.write m a v

/-- `OUT_BUF[i]`: the byte last written there, or the draw of the last reset (rules R28, R45, R46). -/
def EncUnit.outByteAt (u : EncUnit) (i : Nat) : Byte := (u.outBuf.read? i).getD (Config.outBufDraw u.outDraw i)

/-- `IN_BUF[i]`: the byte last written there, or the draw of the last reset (rules R37, R45, R46). -/
def DecUnit.inByteAt (u : DecUnit) (i : Nat) : Byte := (u.inBuf.read? i).getD (Config.inBufDraw u.inDraw i)

/-- `OutByte(v)`: `OUT_BUF[OUT_LEN] <- v; OUT_LEN <- OUT_LEN + 1` (rule R103). -/
def EncUnit.outByte (v : Byte) (u : EncUnit) : EncUnit :=
  { u with outBuf := u.outBuf.write u.outLen.toNat v, outLen := u.outLen + 1 }

/-- `repeat n times: OutByte(v)` (rules R102, R105). -/
def EncUnit.outRun (v : Byte) : Nat → EncUnit → EncUnit
  | 0, u => u
  | n + 1, u => EncUnit.outRun v n (u.outByte v)

/-- The cursor's increment: "an increment at that value leaves it unchanged" at `2^32 - 1` (rules R34, R109). -/
def advanceCursor (c : BitVec 32) : BitVec 32 := if c = BitVec.allOnes 32 then c else c + 1

/-- `InByte()`: the byte at the cursor, or zero at or past the stream's end; the cursor advances (rule R109). -/
def DecUnit.inByte (u : DecUnit) : Byte × DecUnit :=
  (if u.cur.toNat < u.len.toNat then u.inByteAt u.cur.toNat else 0, { u with cur := advanceCursor u.cur })

/-! Contexts. -/

/-- `Widths(R, s)`: the LPS and MPS widths, `none` where it raises ZERO_WIDTH (rule R93). -/
def widths (cfg : Config) (r : BitVec 9) (st : BitVec 4) : Option (Nat × Nat) :=
  let lps := (r.toNat * (cfg.lpsScale.get st.toFin).toNat) >>> 16
  let mps := r.toNat - lps
  if lps = 0 ∨ mps = 0 then none else some (lps, mps)

/-- The entry after an MPS bin (rule R94). -/
def Ctx.mpsUpdate (cfg : Config) (e : Ctx) : Ctx := { e with state := cfg.transMps.get e.state.toFin }

/-- The entry after an LPS bin: the flip test reads the state before the transition (rule R95). -/
def Ctx.lpsUpdate (cfg : Config) (e : Ctx) : Ctx where
  mps := if e.state = 0 then !e.mps else e.mps
  state := cfg.transLps.get e.state.toFin

/-- The table with entry `c` replaced. -/
def CtxTable.put (t : CtxTable) (c : Fin 32) (e : Ctx) : CtxTable := t.set c e

/-! How a command ends. -/

/-- The command reached its end (rule R153). -/
def complete (s : State) : State := { s with status := s.status.completed }

/-- `raise Fault(NAME)` on a state that already has the unit effects of rule R149 (rule R152). -/
def raiseFault (e : ErrCode) (s : State) : State := { s with status := s.status.raised e }

/-- End an encoder command: on a fault, "ENC.ACTIVE <- 0" and the unit as at the fault (rules R149, R152). -/
def endEnc (s : State) (x : Res EncUnit Unit) : State :=
  match x with
  | .ok _ u => complete { s with enc := u }
  | .raised e u => raiseFault e { s with enc := { u with active := false } }

/-- The decoder unit after a decoder fault: "DEC.READY <- 0, DEC.ACTIVE <- 0" (rule R149). -/
def DecUnit.failed (u : DecUnit) : DecUnit := { u with ready := false, active := false }

/-- End a decoder command: on a fault, "DEC.READY <- 0, DEC.ACTIVE <- 0" and the unit as at the fault (rules R149,
R152). -/
def endDec (s : State) (x : Res DecUnit Unit) : State :=
  match x with
  | .ok _ u => complete { s with dec := u }
  | .raised e u => raiseFault e { s with dec := u.failed }

end Sys2Proof.Machine
end

