-- ==== Sys2Proof/Machine/Bus.lean ====
section
/-! DEFINITION. The host bus: which accesses are accepted (rules R48, R49), the register map (rule R50), and the value a
read returns and the effect a write has on each register (rules R51 to R56). Writes of CMD execute a command and stand in
Machine/Step.lean. -/

namespace Sys2Proof.Machine

/-- The registers and buffer entries of rule R50. -/
inductive Reg where
  | cmd
  | status
  | outLen
  | inLen
  | decCursor
  | decLength
  | encRange
  | encLow
  | encCount
  | encPending
  | encFfRun
  | decRange
  | decCode
  | decReservoir
  | coefIn (p : Fin 16)
  | coefOut (p : Fin 16)
  | ctxE (c : Fin 32)
  | ctxD (c : Fin 32)
  | outBuf (i : Nat)
  | inBuf (i : Nat)
  deriving DecidableEq, Repr

/-- The byte address of a register (rule R50). -/
def Reg.addr : Reg → Nat
  | .cmd => 0x00000
  | .status => 0x00004
  | .outLen => 0x00008
  | .inLen => 0x0000C
  | .decCursor => 0x00010
  | .decLength => 0x00014
  | .encRange => 0x00020
  | .encLow => 0x00024
  | .encCount => 0x00028
  | .encPending => 0x0002C
  | .encFfRun => 0x00030
  | .decRange => 0x00040
  | .decCode => 0x00044
  | .decReservoir => 0x00048
  | .coefIn p => 0x00100 + 4 * p.val
  | .coefOut p => 0x00140 + 4 * p.val
  | .ctxE c => 0x00200 + 4 * c.val
  | .ctxD c => 0x00280 + 4 * c.val
  | .outBuf i => 0x10000 + 4 * i
  | .inBuf i => 0x50000 + 4 * i

/-- The single registers of rule R50. -/
def singleRegs : List Reg :=
  [.cmd, .status, .outLen, .inLen, .decCursor, .decLength, .encRange, .encLow, .encCount, .encPending, .encFfRun,
    .decRange, .decCode, .decReservoir]

/-- The register at a byte address that is a multiple of 4 (rules R49, R50): `none` where rule R50 lists none. -/
def Reg.atAddr (cfg : Config) (a : Nat) : Option Reg :=
  if a < 0x00100 then singleRegs.find? fun r => r.addr == a
  else if a < 0x00140 then some (.coefIn (Fin.ofNat 16 ((a - 0x00100) / 4)))
  else if a < 0x00180 then some (.coefOut (Fin.ofNat 16 ((a - 0x00140) / 4)))
  else if a < 0x00200 then none
  else if a < 0x00280 then some (.ctxE (Fin.ofNat 32 ((a - 0x00200) / 4)))
  else if a < 0x00300 then some (.ctxD (Fin.ofNat 32 ((a - 0x00280) / 4)))
  else if a < 0x10000 then none
  else if a < 0x50000 then
    if (a - 0x10000) / 4 < cfg.outCap then some (.outBuf ((a - 0x10000) / 4)) else none
  else if a < 0x90000 then
    if (a - 0x50000) / 4 < cfg.inCap then some (.inBuf ((a - 0x50000) / 4)) else none
  else none

/-- The register an access reaches, or the reason the bus refuses it (rules R48, R49). -/
def busDecode (cfg : Config) (bits : Nat) (a : Addr) : Except Fault Reg :=
  if bits ≠ 32 then .error (.accessWidth bits)
  else if a.toNat % 4 ≠ 0 then .error (.misalignedAddress a)
  else
    match Reg.atAddr cfg a.toNat with
    | some r => .ok r
    | none => .error (.unmappedAddress a)

/-- A context entry as its register reads: bit 0 `mps`, bits [4:1] `state`, the others 0 (rule R54). -/
def Ctx.toWord (e : Ctx) : Word := (e.state ++ BitVec.ofBool e.mps).setWidth 32

/-- The context entry a write of `w` sets (rule R54). -/
def Ctx.ofWord (w : Word) : Ctx := ⟨w.getLsbD 0, w.extractLsb' 1 4⟩

/-- The word a read of a register returns (rules R50 to R56); "All bits not listed read 0." -/
def State.readReg (s : State) : Reg → Word
  | .cmd => 0
  | .status => s.statusWord
  | .outLen => s.enc.outLen.setWidth 32
  | .inLen => s.dec.inLen.setWidth 32
  | .decCursor => s.dec.cur
  | .decLength => s.dec.len.setWidth 32
  | .encRange => s.enc.r.setWidth 32
  | .encLow => s.enc.l.setWidth 32
  | .encCount => s.enc.cnt.setWidth 32
  | .encPending => (BitVec.ofBool s.enc.pendValid ++ s.enc.pend).setWidth 32
  | .encFfRun => s.enc.ffRun.setWidth 32
  | .decRange => s.dec.r.setWidth 32
  | .decCode => s.dec.code.setWidth 32
  | .decReservoir => (s.dec.nres ++ s.dec.res).setWidth 32
  | .coefIn p => (s.enc.coefIn.get p).signExtend 32
  | .coefOut p => (s.dec.coefOut.get p).signExtend 32
  | .ctxE c => (s.enc.ctx.get c).toWord
  | .ctxD c => (s.dec.ctx.get c).toWord
  | .outBuf i => (s.enc.outByteAt i).setWidth 32
  | .inBuf i => (s.dec.inByteAt i).setWidth 32

/-- The effect of a write of `w` to a register other than CMD: its own fields for the RW registers (rules R50, R52, R54,
R56); "A write to an RO register is accepted by the bus and has no effect" (rule R51). -/
def State.writeReg (w : Word) (s : State) : Reg → State
  | .inLen => { s with dec := { s.dec with inLen := w.extractLsb' 0 17 } }
  | .coefIn p => { s with enc := { s.enc with coefIn := s.enc.coefIn.set p (w.extractLsb' 0 16) } }
  | .ctxE c => { s with enc := { s.enc with ctx := s.enc.ctx.put c (Ctx.ofWord w) } }
  | .ctxD c => { s with dec := { s.dec with ctx := s.dec.ctx.put c (Ctx.ofWord w) } }
  | .inBuf i => { s with dec := { s.dec with inBuf := s.dec.inBuf.write i (w.extractLsb' 0 8) } }
  | .cmd | .status | .outLen | .decCursor | .decLength | .encRange | .encLow | .encCount | .encPending | .encFfRun
  | .decRange | .decCode | .decReservoir | .coefOut _ | .outBuf _ => s

/-- The state in which the host's access runs: the access is taken from the pending ones, and no data is on the bus. -/
def State.taken (s : State) (rest : List HostEvent) : State := { s with pending := rest, rdata := none }

/-- A read: the register's value on the bus, and "Reads have no side effects on any register" (rule R51). -/
def State.busRead (s : State) (r : Reg) : State := { s with rdata := some (s.readReg r) }

/-- The reset event with the accesses `rest` still to come (rules R45, R163): every piece of state at its reset value, the
buffers' contents drawn anew, the parameters kept (rule R44). DESIGN CHOICE of what becomes of the pending accesses, safe,
log entry 12. -/
def State.resetEvent (s : State) (rest : List HostEvent) : State where
  cfg := s.cfg
  enc := EncUnit.reset (s.enc.outDraw + 1)
  dec := DecUnit.reset (s.dec.inDraw + 1)
  status := Status.reset
  pending := rest
  rdata := none

/-- While BUSY is 1, reads of STATUS are the one access allowed (rule R167). -/
def State.busyRefuses (s : State) (isRead : Bool) (r : Reg) : Bool := s.status.busy && !(isRead && r == .status)

end Sys2Proof.Machine
end

