-- ==== Sys2Proof/Machine/Control.lean ====
section
/-! DEFINITION. The control commands: NOP and the two context resets (rules R141 to R143), and the illegal command word
(rule R74). -/

namespace Sys2Proof.Machine

/-- NOP: `STATUS.ERR <- OK` (rule R141). -/
def execNop (s : State) : Host.Outcome State Fault Refusal := .next (complete s)

/-- ENC_CTX_RESET: `for c in 0..NCTX-1: CTX_E[c] <- CTX_INIT` (rule R142). -/
def execEncCtxReset (s : State) : Host.Outcome State Fault Refusal :=
  .next (complete { s with enc := { s.enc with ctx := CtxTable.init } })

/-- DEC_CTX_RESET: `for c in 0..NCTX-1: CTX_D[c] <- CTX_INIT` (rule R143). -/
def execDecCtxReset (s : State) : Host.Outcome State Fault Refusal :=
  .next (complete { s with dec := { s.dec with ctx := CtxTable.init } })

/-- A write of an illegal word to CMD: "changes no state except `STATUS.ERR <- ILLEGAL_CMD` and `STATUS.FAULT <- 1`"
(rule R74). -/
def execIllegal (s : State) : Host.Outcome State Fault Refusal := .next (raiseFault .illegalCmd s)

end Sys2Proof.Machine
end

