-- ==== Sys2Proof/Machine/Operands.lean ====
section
/-! DEFINITION. The operands of the block commands: the scan order BLK selects (rules R81 to R83), the scanned layout of a
block, and the context-index functions both units share (rules R15, R86 to R91). -/

namespace Sys2Proof.Machine

/-- `SCAN[blk]` (rules R81, R82). -/
def scan (cfg : Config) : BlkType → Vector (Fin 16) 16
  | .inter => cfg.scanInter
  | .field => cfg.scanField

/-- The scan indices 0..15, ascending. -/
def scanIndices : List (Fin 16) := [0, 1, 2, 3, 4, 5, 6, 7, 8, 9, 10, 11, 12, 13, 14, 15]

/-- `lev[i] = sext(COEF(SCAN[blk][i]))`, the scanned layout (rules R83, R125). -/
def scanned (cfg : Config) (blk : BlkType) (coefs : Coefs) (i : Fin 16) : Int :=
  (coefs.get ((scan cfg blk).get i)).toInt

/-- `sig_ctx(i, sig)` (rule R86). The flags are looked at only at the scan indices i - 1 and i - 4. -/
def sigCtx (i : Fin 16) (sig : Fin 16 → Bool) : Fin 32 :=
  let left := if i.val % 4 ≠ 0 ∧ sig (i - 1) then 1 else 0
  let top := if 4 ≤ i.val ∧ sig (i - 4) then 1 else 0
  Fin.ofNat 32 (min 5 (left + top))

/-- `last_ctx(i) = 6 + min(2, (15 - i) // 4)` (rule R88). -/
def lastCtx (i : Fin 16) : Fin 32 := Fin.ofNat 32 (6 + min 2 ((15 - i.val) / 4))

/-- `prefix_ctx(i) = 16 + min(4, i // 4)` (rule R89). -/
def prefixCtx (i : Fin 16) : Fin 32 := Fin.ofNat 32 (16 + min 4 (i.val / 4))

/-- `SUFFIX_CTX[j] = 21 + j`, j = 0 for the most significant suffix bit (rule R90). -/
def suffixCtx (j : Fin 4) : Fin 32 := Fin.ofNat 32 (21 + j.val)

/-- `SIGN_CTX = 25` (rule R91). -/
def signCtx : Fin 32 := 25

end Sys2Proof.Machine
end

