-- ==== Sys2Proof/Machine/DecEngine.lean ====
section
/-! DEFINITION. The decoder's arithmetic engine: bit input, priming, renormalization, one bin (rules R110 to R114). -/

namespace Sys2Proof.Machine

/-- The reservoir refilled when it is empty: "A byte is fetched only when a bit of it is needed" (rule R110). -/
def DecUnit.refill (u : DecUnit) : DecUnit :=
  if u.nres = 0 then { u.inByte.2 with res := u.inByte.1, nres := 8 } else u

/-- `NextBit()`, most significant bit of each byte first (rule R110). No byte is skipped, whatever its value
(rule R114). -/
def DecUnit.nextBit (u : DecUnit) : Bool × DecUnit :=
  let v := u.refill
  let n := v.nres - 1
  (v.res.getLsbD n.toNat, { v with nres := n })

/-- The skip of one leading 0xFF marker, at most (rule R111). -/
def DecUnit.skipMarker (u : DecUnit) : DecUnit :=
  if u.cur.toNat < u.len.toNat ∧ u.inByteAt u.cur.toNat = 0xFF then { u with cur := u.cur + 1 } else u

/-- `Prime()` up to its validity test: two bytes fetched, 9 bits into CODE and 7 into the reservoir (rule R111). -/
def DecUnit.primeRegs (u : DecUnit) : DecUnit :=
  let v := u.skipMarker
  let (b0, v) := v.inByte
  let (b1, v) := v.inByte
  { v with r := Config.rangeInit, code := b0 ++ b1.extractLsb' 7 1, res := b1 &&& 0x7F, nres := 7 }

/-- `Prime()` (rule R111). -/
def prime (u : DecUnit) : Res DecUnit Unit :=
  let v := u.primeRegs
  if v.r.toNat ≤ v.code.toNat then .raised .streamInvalid v else .ok () { v with active := true }

/-- `RenormD()`: `while DEC.R < 256: DEC.R <- 2 * DEC.R; DEC.CODE <- 2 * DEC.CODE + NextBit()` (rule R113), at most `n`
turns. -/
def renormD : Nat → DecUnit → DecUnit
  | 0, u => u
  | n + 1, u =>
    if u.r.toNat < 256 then
      let (b, v) := u.nextBit
      renormD n { v with r := u.r <<< 1, code := BitVec.ofNat 9 (2 * u.code.toNat + b.toNat) }
    else u

/-- The bin decoded in context `c` with MPS width `mps` (rule R112): the LPS where the offset is at or above it. -/
def DecUnit.binOf (c : Fin 32) (mps : Nat) (u : DecUnit) : Bool :=
  if mps ≤ u.code.toNat then !(u.ctx.get c).mps else (u.ctx.get c).mps

/-- The unit after the LPS or MPS branch in context `c`, before the renormalization (rule R112). -/
def DecUnit.takeBin (cfg : Config) (c : Fin 32) (lps mps : Nat) (u : DecUnit) : DecUnit :=
  let e := u.ctx.get c
  if mps ≤ u.code.toNat then
    { u with
      code := BitVec.ofNat 9 (u.code.toNat - mps), r := BitVec.ofNat 9 lps, ctx := u.ctx.put c (e.lpsUpdate cfg) }
  else { u with r := BitVec.ofNat 9 mps, ctx := u.ctx.put c (e.mpsUpdate cfg) }

/-- `DecodeBin(c)` (rule R112): "The bin value uses `mps` as it was before the update." -/
def decodeBin (cfg : Config) (c : Fin 32) (u : DecUnit) : Res DecUnit Bool :=
  match widths cfg u.r (u.ctx.get c).state with
  | none => .raised .zeroWidth u
  | some (lps, mps) => .ok (u.binOf c mps) (renormD 8 (u.takeBin cfg c lps mps))

end Sys2Proof.Machine
end

