-- ==== Sys2Proof/Machine/EncEngine.lean ====
section
/-! DEFINITION. The encoder's arithmetic engine: renormalization, carry-resolving byte emission, one bin, termination
(rules R99 to R105). -/

namespace Sys2Proof.Machine

/-- The registers ENC_START and ENC_BLOCK set at the start of a session (rules R104, R144). -/
def EncUnit.started (u : EncUnit) : EncUnit :=
  { u with
    r := Config.rangeInit, l := 0, cnt := 8, pendValid := false, pend := 0, ffRun := 0, outLen := 0, active := true }

/-- `ENC.PEND <- byte; ENC.PEND_VALID <- 1; ENC.FF_RUN <- 0` (rule R102). -/
def EncUnit.hold (b : Byte) (u : EncUnit) : EncUnit := { u with pend := b, pendValid := true, ffRun := 0 }

/-- The bytes written and produced so far, the held ones among them: `OUT_LEN + ENC.PEND_VALID + ENC.FF_RUN`
(rule R102). -/
def EncUnit.produced (u : EncUnit) : Nat := u.outLen.toNat + u.pendValid.toNat + u.ffRun.toNat

/-- `Emit(out)` after its capacity test: the carry-resolving byte state machine (rule R102). -/
def EncUnit.resolve (out : BitVec 9) (u : EncUnit) : EncUnit :=
  let byte := out.extractLsb' 0 8
  if out.getLsbD 8 then ((u.outByte (u.pend + 1)).outRun 0x00 u.ffRun.toNat).hold byte
  else if byte = 0xFF then { u with ffRun := u.ffRun + 1 }
  else if u.pendValid then ((u.outByte u.pend).outRun 0xFF u.ffRun.toNat).hold byte
  else u.hold byte

/-- `Emit(out)` (rule R102). -/
def emit (cfg : Config) (out : BitVec 9) (u : EncUnit) : Res EncUnit Unit :=
  if cfg.outCap ≤ u.produced then .raised .outOverflow u else .ok () (u.resolve out)

/-- `ShiftE()`: one shift; answers whether a byte was emitted (rule R101). -/
def shiftE (cfg : Config) (u : EncUnit) : Res EncUnit Bool :=
  let l := u.l <<< 1
  if u.cnt = 0 then
    (emit cfg (l.extractLsb' 10 9) { u with l := l &&& 0x3FF, cnt := 7 }).bind fun _ v => .ok true v
  else .ok false { u with l := l, cnt := u.cnt - 1 }

/-- `RenormE()`: `while ENC.R < 256: ENC.R <- 2 * ENC.R; ShiftE()` (rule R100), at most `n` turns. -/
def renormE (cfg : Config) : Nat → EncUnit → Res EncUnit Unit
  | 0, u => .ok () u
  | n + 1, u =>
    if u.r.toNat < 256 then (shiftE cfg { u with r := u.r <<< 1 }).bind fun _ v => renormE cfg n v
    else .ok () u

/-- Enough turns for either renormalization: a range of at least 1 is at least 256 after 8 doublings, and the range is at
least 1 wherever a renormalization starts (rules R93, R105). DEDUCED, safe, log entry 5. -/
abbrev renormTurns : Nat := 8

/-- The unit after the MPS or LPS event of bin `b` in context `c`, before the renormalization (rule R99). The registers keep
their widths also where no run gets to: DEDUCED, safe, log entry 6. -/
def EncUnit.codeBin (cfg : Config) (b : Bool) (c : Fin 32) (lps mps : Nat) (u : EncUnit) : EncUnit :=
  let e := u.ctx.get c
  if b = e.mps then { u with r := BitVec.ofNat 9 mps, ctx := u.ctx.put c (e.mpsUpdate cfg) }
  else
    { u with
      l := BitVec.ofNat 19 (u.l.toNat + mps), r := BitVec.ofNat 9 lps, ctx := u.ctx.put c (e.lpsUpdate cfg) }

/-- `EncodeBin(b, c)` (rule R99). -/
def encodeBin (cfg : Config) (b : Bool) (c : Fin 32) (u : EncUnit) : Res EncUnit Unit :=
  match widths cfg u.r (u.ctx.get c).state with
  | none => .raised .zeroWidth u
  | some (lps, mps) => renormE cfg renormTurns (u.codeBin cfg b c lps mps)

/-- `EncodeBin` of each bin of a list in order. -/
def encodeBins (cfg : Config) : List (Bool × Fin 32) → EncUnit → Res EncUnit Unit
  | [], u => .ok () u
  | (b, c) :: bins, u => (encodeBin cfg b c u).bind fun _ v => encodeBins cfg bins v

/-- `repeat e <- ShiftE() until e == true` (rule R105), at most `n` turns. -/
def shiftUntilEmit (cfg : Config) : Nat → EncUnit → Res EncUnit Unit
  | 0, u => .ok () u
  | n + 1, u => (shiftE cfg u).bind fun e v => if e then .ok () v else shiftUntilEmit cfg n v

/-- Enough turns for the padding loop: the 4-bit counter reaches 0 within 15 shifts, and the next shift emits
(rules R24, R101). DEDUCED, safe, log entry 5. -/
abbrev padTurns : Nat := 16

/-- The flush that ends the termination (rule R105). -/
def EncUnit.flush (cfg : Config) (u : EncUnit) : Res EncUnit Unit :=
  if cfg.outCap < u.produced then .raised .outOverflow u
  else
    let v := if u.pendValid then (u.outByte u.pend).outRun 0xFF u.ffRun.toNat else u
    .ok () { v with pendValid := false, pend := 0, ffRun := 0 }

/-- `Terminate()` (rule R105). -/
def terminate (cfg : Config) (u : EncUnit) : Res EncUnit Unit :=
  (renormE cfg renormTurns { u with r := Config.termRange }).bind fun _ u =>
  (shiftE cfg u).bind fun _ u =>
  (shiftE cfg u).bind fun _ u =>
  (shiftUntilEmit cfg padTurns u).bind fun _ u =>
  u.flush cfg

/-- `ENC.ACTIVE <- 0`, the end of ENC_FINISH and ENC_BLOCK (rules R108, R144). -/
def EncUnit.closed (u : EncUnit) : EncUnit := { u with active := false }

end Sys2Proof.Machine
end

