-- ==== Sys2Proof/Machine/Binarizer.lean ====
section
/-! DEFINITION. The block syntax in both directions (rules R124 to R135): significance map, last-position flags, levels in
reverse scan order. The encoder's side is the ordered list of (bin, context) decisions, which do not depend on the engine's
state; the decoder's side interleaves the bins with the syntax. -/

namespace Sys2Proof.Machine

/-! Encoding direction. -/

/-- Phase 1: one significance bin for each scan index (rules R125, R126). -/
def sigBins (lev : Fin 16 → Int) : List (Bool × Fin 32) :=
  scanIndices.map fun i => (decide (lev i ≠ 0), sigCtx i fun k => decide (lev k ≠ 0))

/-- The significant scan indices, ascending (rule R125). -/
def significant (lev : Fin 16 → Int) : List (Fin 16) := scanIndices.filter fun i => decide (lev i ≠ 0)

/-- Phase 2: one last-position bin for each significant index, 1 for the final one alone (rules R125, R127). -/
def lastBins : List (Fin 16) → List (Bool × Fin 32)
  | [] => []
  | [i] => [(true, lastCtx i)]
  | i :: j :: rest => (false, lastCtx i) :: lastBins (j :: rest)

/-- The four suffix bins, most significant bit first (rule R128). -/
def suffixBins (suffix : Nat) : List (Bool × Fin 32) :=
  [(suffix.testBit 3, suffixCtx 0), (suffix.testBit 2, suffixCtx 1), (suffix.testBit 1, suffixCtx 2),
    (suffix.testBit 0, suffixCtx 3)]

/-- `EncodeLevel(x, i)` (rule R128): unary prefix, suffix if the prefix is not 0, sign. -/
def levelBins (x : Int) (i : Fin 16) : List (Bool × Fin 32) :=
  let v := x.natAbs - 1
  List.replicate (v / 15) (true, prefixCtx i) ++ [(false, prefixCtx i)] ++
    (if 0 < v / 15 then suffixBins (v % 15) else []) ++ [(decide (x < 0), signCtx)]

/-- The bins of `EncodeBlockSyntax(blk)`, in order (rules R124, R125). -/
def blockBins (cfg : Config) (blk : BlkType) (coefs : Coefs) : List (Bool × Fin 32) :=
  let lev := scanned cfg blk coefs
  sigBins lev ++ lastBins (significant lev) ++ (significant lev).reverse.flatMap fun i => levelBins (lev i) i

/-- The block encoder on its unit: the start of a session, the block's bins, the termination (rule R144). -/
def encodeBlock (cfg : Config) (blk : BlkType) (u : EncUnit) : Res EncUnit Unit :=
  (encodeBins cfg (blockBins cfg blk u.coefIn) u.started).bind fun _ u =>
  (terminate cfg u).bind fun _ u => .ok () u.closed

/-! Decoding direction. -/

/-- Phase 1: the significance flags of the listed scan indices, given those decoded so far (rule R130). -/
def decodeSig (cfg : Config) : List (Fin 16) → Vector Bool 16 → DecUnit → Res DecUnit (Vector Bool 16)
  | [], sig, u => .ok sig u
  | i :: rest, sig, u =>
    (decodeBin cfg (sigCtx i sig.get) u).bind fun b v => decodeSig cfg rest (sig.set i b) v

/-- Phase 2 over the significant indices: the coded ones, up to and including the first whose flag is 1; all of them if no
flag is 1 (rules R130, R131). -/
def decodeLast (cfg : Config) : List (Fin 16) → DecUnit → Res DecUnit (List (Fin 16))
  | [], u => .ok [] u
  | i :: rest, u =>
    (decodeBin cfg (lastCtx i) u).bind fun b v =>
    if b then .ok [i] v else (decodeLast cfg rest v).bind fun coded w => .ok (i :: coded) w

/-- The unary prefix, `n` ones having been decoded and `fuel` more being allowed: LEVEL_RANGE at PREFIX_LIMIT ones
(rules R133, R134). -/
def decodePrefix (cfg : Config) (i : Fin 16) : Nat → Nat → DecUnit → Res DecUnit Nat
  | 0, _, u => .raised .levelRange u
  | fuel + 1, n, u =>
    (decodeBin cfg (prefixCtx i) u).bind fun b v =>
    if b then (if fuel = 0 then .raised .levelRange v else decodePrefix cfg i fuel (n + 1) v) else .ok n v

/-- The suffix bits of the listed positions, most significant first (rule R133). -/
def decodeSuffix (cfg : Config) : List (Fin 4) → Nat → DecUnit → Res DecUnit Nat
  | [], suffix, u => .ok suffix u
  | j :: rest, suffix, u =>
    (decodeBin cfg (suffixCtx j) u).bind fun b v => decodeSuffix cfg rest (2 * suffix + b.toNat) v

/-- `DecodeLevel(i)` (rule R133). -/
def decodeLevel (cfg : Config) (i : Fin 16) (u : DecUnit) : Res DecUnit Int :=
  (decodePrefix cfg i Config.prefixLimit 0 u).bind fun pre u =>
  (if 0 < pre then decodeSuffix cfg [0, 1, 2, 3] 0 u else .ok 0 u).bind fun suffix u =>
  (decodeBin cfg signCtx u).bind fun s u =>
  let v : Int := pre * 15 + suffix
  let level : Int := if s then -(v + 1) else v + 1
  if level < -2 ^ (Config.coefW - 1) ∨ 2 ^ (Config.coefW - 1) - 1 < level then .raised .levelRange u
  else .ok level u

/-- Phase 3 over the coded indices in the order given: their levels (rule R130). -/
def decodeLevels (cfg : Config) : List (Fin 16) → Coefs → DecUnit → Res DecUnit Coefs
  | [], lev, u => .ok lev u
  | i :: rest, lev, u =>
    (decodeLevel cfg i u).bind fun x v => decodeLevels cfg rest (lev.set i (BitVec.ofInt 16 x)) v

/-- `DecodeBlockSyntax()`: the scanned layout (rule R130). -/
def decodeBlockSyntax (cfg : Config) (u : DecUnit) : Res DecUnit Coefs :=
  (decodeSig cfg scanIndices (Vector.replicate 16 false) u).bind fun sig u =>
  (decodeLast cfg (scanIndices.filter sig.get) u).bind fun coded u =>
  decodeLevels cfg coded.reverse Coefs.zero u

/-- `COEF_OUT[SCAN[blk][i]] <- lev[i]` for i = 0..15 (rule R135). -/
def scatter (order : Vector (Fin 16) 16) (lev : Coefs) (out : Coefs) : Coefs :=
  scanIndices.foldl (fun o i => o.set (order.get i) (lev.get i)) out

/-- The block decoder on its unit: priming, the block syntax, the reconstruction (rule R147). -/
def decodeBlock (cfg : Config) (blk : BlkType) (u : DecUnit) : Res DecUnit Unit :=
  (prime u).bind fun _ u =>
  (decodeBlockSyntax cfg u).bind fun lev u =>
  .ok () { u with coefOut := scatter (scan cfg blk) lev u.coefOut, active := false }

end Sys2Proof.Machine
end

