-- ==== Sys2Proof/Machine/Decoder.lean ====
section
/-! DEFINITION. The decoder's commands: DEC_LOAD, DEC_START, DEC_BIN, DEC_BLOCK (rules R146, R115, R116, R147). -/

namespace Sys2Proof.Machine

/-- `DEC_LOAD` on its unit (rule R146): SHORT_STREAM before BAD_LEN (rule R155). -/
def loadStream (cfg : Config) (u : DecUnit) : Res DecUnit Unit :=
  if u.inLen.toNat < 2 then .raised .shortStream u
  else if cfg.inCap < u.inLen.toNat then .raised .badLen u
  else
    .ok () { u with
      len := u.inLen, cur := 0, r := Config.rangeInit, code := 0, res := 0, nres := 0, ready := true, active := false }

/-- DEC_LOAD (rule R146). -/
def execDecLoad (s : State) : Host.Outcome State Fault Refusal := .next (endDec s (loadStream s.cfg s.dec))

/-- DEC_START (rule R115): NOT_READY changes nothing in the unit. -/
def execDecStart (s : State) : Host.Outcome State Fault Refusal :=
  .next (if s.dec.ready then endDec s (prime s.dec) else raiseFault .notReady s)

/-- `STATUS.BIN <- b` for a bin that was decoded (rule R116). -/
def noteBin (x : Res DecUnit Bool) (s : State) : State :=
  match x with
  | .ok b _ => { s with status := s.status.withBin b }
  | .raised _ _ => s

/-- DEC_BIN (rule R116): NOT_READY changes nothing in the unit; BIN is written by a completed bin alone (rule R41). -/
def execDecBin (c : Fin 32) (s : State) : Host.Outcome State Fault Refusal :=
  .next (
    if s.dec.active then
      let x := decodeBin s.cfg c s.dec
      endDec (noteBin x s) (x.bind fun _ u => .ok () u)
    else raiseFault .notReady s)

/-- DEC_BLOCK (rule R147); the component is accepted and ignored (rule R71), NOT_READY changes nothing in the unit. -/
def execDecBlock (blk : BlkType) (_comp : Component) (s : State) : Host.Outcome State Fault Refusal :=
  .next (if s.dec.ready then endDec s (decodeBlock s.cfg blk s.dec) else raiseFault .notReady s)

end Sys2Proof.Machine
end

