-- ==== Sys2Proof/Machine/Encoder.lean ====
section
/-! DEFINITION. The encoder's commands: ENC_START, ENC_BIN, ENC_FINISH, ENC_BLOCK (rules R104, R107, R108, R144). -/

namespace Sys2Proof.Machine

/-- ENC_START (rule R104). -/
def execEncStart (s : State) : Host.Outcome State Fault Refusal := .next (complete { s with enc := s.enc.started })

/-- ENC_BIN (rule R107): NOT_STARTED changes nothing in the unit. -/
def execEncBin (c : Fin 32) (b : Bool) (s : State) : Host.Outcome State Fault Refusal :=
  .next (if s.enc.active then endEnc s (encodeBin s.cfg b c s.enc) else raiseFault .notStarted s)

/-- ENC_FINISH (rule R108): NOT_STARTED changes nothing in the unit. -/
def execEncFinish (s : State) : Host.Outcome State Fault Refusal :=
  .next (if s.enc.active then endEnc s ((terminate s.cfg s.enc).bind fun _ u => .ok () u.closed)
    else raiseFault .notStarted s)

/-- ENC_BLOCK (rule R144); the component is accepted and ignored (rule R71). -/
def execEncBlock (blk : BlkType) (_comp : Component) (s : State) : Host.Outcome State Fault Refusal :=
  .next (endEnc s (encodeBlock s.cfg blk s.enc))

end Sys2Proof.Machine
end

