-- ==== Sys2Proof/Machine/Dispatch.lean ====
section
/-! DEFINITION. One arm per command (rule R72). -/

namespace Sys2Proof.Machine

/-- The effect of one command (rule R80). -/
def exec (i : Instr) (s : State) : Host.Outcome State Fault Refusal :=
  match i with
  | .nop => Sys2Proof.Machine.execNop s
  | .encCtxReset => Sys2Proof.Machine.execEncCtxReset s
  | .decCtxReset => Sys2Proof.Machine.execDecCtxReset s
  | .encStart => Sys2Proof.Machine.execEncStart s
  | .encBin c b => Sys2Proof.Machine.execEncBin c b s
  | .encFinish => Sys2Proof.Machine.execEncFinish s
  | .encBlock blk comp => Sys2Proof.Machine.execEncBlock blk comp s
  | .decLoad => Sys2Proof.Machine.execDecLoad s
  | .decStart => Sys2Proof.Machine.execDecStart s
  | .decBin c => Sys2Proof.Machine.execDecBin c s
  | .decBlock blk comp => Sys2Proof.Machine.execDecBlock blk comp s

end Sys2Proof.Machine
end

