-- ==== Sys2Proof/Machine/Step.lean ====
section
/-! DEFINITION. One step: "one host register access or one command is one step" (rule R8), taken from the host's pending
accesses in order (rule R63), or the reset event (rule R163). -/

namespace Sys2Proof.Machine

/-- A host write of `w` to CMD: decode, then rule R74 or the command's rule (rule R80). -/
def runCommand (w : Word) (s : State) : Host.Outcome State Fault Refusal :=
  match decode w with
  | .command i => exec i s
  | .illegal _ => execIllegal s

/-- One step. With no access pending, the core does nothing (rule R165). DESIGN CHOICE, safe, log entry 1. -/
def step (s : State) : Host.Outcome State Fault Refusal :=
  match s.pending with
  | [] => .next s
  | .reset :: rest => .next (s.resetEvent rest)
  | .read bits a :: rest =>
    match busDecode s.cfg bits a with
    | .error e => .fault e
    | .ok r =>
      if s.busyRefuses true r then .fault .accessWhileBusy
      else .next ((s.taken rest).busRead r)
  | .write bits a w :: rest =>
    match busDecode s.cfg bits a with
    | .error e => .fault e
    | .ok r =>
      if s.busyRefuses false r then .fault .accessWhileBusy
      else if r = .cmd then runCommand w (s.taken rest)
      else .next ((s.taken rest).writeReg w r)

/-- The state whose next step runs the command word `w` of `nbits` bits: the host's next access is the write of that word
to CMD, before the accesses already pending (rule R80). DEDUCED, safe, log entry 7. -/
def State.withFetchWord (s : State) (nbits w : Nat) : State :=
  { s with pending := .write 32 0 (BitVec.ofNat 32 (w % 2 ^ nbits)) :: s.pending }

end Sys2Proof.Machine
end

