-- ==== Sys2Proof/Machine/Macros.lean ====
section
/-! DEFINITION. The host's pseudo-operations as the accesses they stand for (rule R78). They are the host's, not the
core's: each is a list of events that `State.pending` may hold. -/

namespace Sys2Proof.Machine

/-- `WR r, w`: a write of a register of the map (rules R50, R77). -/
def hostWrite (r : Reg) (w : Word) : HostEvent := .write 32 (BitVec.ofNat 20 r.addr) w

/-- `RD r`: a read of a register of the map (rules R50, R77). -/
def hostRead (r : Reg) : HostEvent := .read 32 (BitVec.ofNat 20 r.addr)

/-- `ISSUE w`: the write of CMD, then reads of STATUS until BUSY is 0: one read, since BUSY reads 0 at every observation
(rules R78, R167). -/
def issue (w : Word) : List HostEvent := [hostWrite .cmd w, hostRead .status]

/-- `LOAD_GRID g`, the grid given in raster order (rules R13, R78). -/
def loadGrid (g : Coefs) : List HostEvent := scanIndices.map fun p => hostWrite (.coefIn p) ((g.get p).signExtend 32)

/-- `RD OUT_BUF[i]` for i < n. -/
def readOut (n : Nat) : List HostEvent := (List.range n).map fun i => hostRead (.outBuf i)

/-- `ENCODE g, blk` for a host that the read of OUT_LEN gives `n` (rule R78). -/
def encodeGrid (g : Coefs) (blk : BlkType) (n : Nat) : List HostEvent :=
  loadGrid g ++ issue (encode (.encBlock blk .luma)) ++ [hostRead .outLen] ++ readOut n

/-- `WR IN_BUF[i], s[i]` from index `i` on. -/
def writeIn : List Byte → Nat → List HostEvent
  | [], _ => []
  | b :: bytes, i => hostWrite (.inBuf i) (b.setWidth 32) :: writeIn bytes (i + 1)

/-- `LOAD_STREAM s` (rule R78). -/
def loadStreamBytes (bytes : List Byte) : List HostEvent :=
  writeIn bytes 0 ++ [hostWrite .inLen (BitVec.ofNat 32 bytes.length)] ++ issue (encode .decLoad)

/-- `DECODE blk` (rule R78). -/
def decodeGrid (blk : BlkType) : List HostEvent :=
  issue (encode (.decBlock blk .luma)) ++ scanIndices.map fun p => hostRead (.coefOut p)

end Sys2Proof.Machine
end

