-- ==== Sys2Proof/Safety.lean ====
section
/-! DEFINITION. What a safe state of the core is, in the terms the statements use: the invariants the spec gives the units
(rules R22 to R26, R31 to R37, R41, R119 to R122), the value of a unit's bits as numbers, runs of commands, and the
block syntax as data. -/

namespace Sys2Proof.Safety

open Sys2Proof.Machine

/-- The capacities of rule R9: 2..65536. -/
abbrev CapsOk (c : Config) : Prop := (2 ≤ c.outCap ∧ c.outCap ≤ 65536) ∧ (2 ≤ c.inCap ∧ c.inCap ≤ 65536)

/-- The encoder's low bound (rule R121): at most 510 doubled once per shift before the first emission, at most 1533 doubled
once per shift after one. -/
abbrev LowOk (u : EncUnit) : Prop :=
  if u.pendValid then u.l.toNat + u.r.toNat ≤ 1533 * 2 ^ (7 - u.cnt.toNat)
  else u.l.toNat + u.r.toNat ≤ 510 * 2 ^ (8 - u.cnt.toNat)

/-- What holds of the encoder while a session is open (rules R22, R24, R106, R119, R121). -/
abbrev EncSessionOk (u : EncUnit) : Prop :=
  (256 ≤ u.r.toNat ∧ u.r.toNat ≤ 510) ∧ LowOk u ∧
  (if u.pendValid then u.cnt.toNat ≤ 7 else u.cnt.toNat ≤ 8 ∧ u.ffRun = 0 ∧ u.outLen = 0)

/-- The encoder's invariant (rules R25, R26, R28, R119, R121, R122), with OUT_BUF in its canonical form and inside its
capacity. -/
abbrev EncOk (c : Config) (u : EncUnit) : Prop :=
  (u.active = true → EncSessionOk u) ∧ (u.pendValid = true → u.pend ≠ 0xFF) ∧ u.produced ≤ c.outCap ∧
  u.outBuf.wf ∧ (∀ e ∈ u.outBuf, e.1 < c.outCap)

/-- The decoder's invariant (rules R31, R32, R33, R35, R36, R119, R120, R146), with IN_BUF in its canonical form and inside
its capacity. -/
abbrev DecOk (c : Config) (u : DecUnit) : Prop :=
  (u.active = true → (256 ≤ u.r.toNat ∧ u.r.toNat ≤ 510) ∧ u.code.toNat < u.r.toNat) ∧
  (u.active = true → u.ready = true) ∧ u.nres.toNat ≤ 8 ∧ u.len.toNat ≤ c.inCap ∧ (u.ready = true → 2 ≤ u.len.toNat) ∧
  u.inBuf.wf ∧ (∀ e ∈ u.inBuf, e.1 < c.inCap)

/-- STATUS between commands: BUSY is 0 (rules R41, R80), the code BUSY is never raised (rule R151), and a non-zero ERR
comes with FAULT (rule R152). -/
abbrev StatusOk (t : Status) : Prop := t.busy = false ∧ t.err ≠ .busy ∧ (t.err ≠ .ok → t.fault = true)

/-- The invariant of the core. -/
abbrev Inv (s : State) : Prop := CapsOk s.cfg ∧ EncOk s.cfg s.enc ∧ DecOk s.cfg s.dec ∧ StatusOk s.status

/-- Every piece of state at the value rule R45's table gives it, the buffers holding the draw of their reset (rule R46). -/
abbrev ResetValues (s : State) : Prop :=
  (s.enc.r = 510 ∧ s.enc.l = 0 ∧ s.enc.cnt = 8 ∧ s.enc.pendValid = false ∧ s.enc.pend = 0 ∧ s.enc.ffRun = 0 ∧
    s.enc.active = false ∧ s.enc.outLen = 0) ∧
  (∀ i, s.enc.outByteAt i = Config.outBufDraw s.enc.outDraw i) ∧
  (∀ c : Fin 32, s.enc.ctx.get c = ⟨false, 0⟩ ∧ s.dec.ctx.get c = ⟨false, 0⟩) ∧
  (∀ p : Fin 16, s.enc.coefIn.get p = 0 ∧ s.dec.coefOut.get p = 0) ∧
  (s.dec.r = 510 ∧ s.dec.code = 0 ∧ s.dec.res = 0 ∧ s.dec.nres = 0 ∧ s.dec.cur = 0 ∧ s.dec.len = 0 ∧
    s.dec.ready = false ∧ s.dec.active = false ∧ s.dec.inLen = 0) ∧
  (∀ i, s.dec.inByteAt i = Config.inBufDraw s.dec.inDraw i) ∧
  s.statusWord = 0 ∧ s.status = ⟨false, false, false, .ok⟩

/-! Numbers. -/

/-- LPS width by rule R93's formula. -/
def lpsWidth (c : Config) (r : BitVec 9) (e : Ctx) : Nat := r.toNat * (c.lpsScale.get e.state.toFin).toNat / 65536

/-- MPS width by rule R93's formula. -/
def mpsWidth (c : Config) (r : BitVec 9) (e : Ctx) : Nat := r.toNat - lpsWidth c r e

/-- The part of a range `r` that bin `b` keeps in a context entry: the MPS width if it is the MPS, else the LPS width
(rules R99, R112). -/
def partWidth (c : Config) (r : BitVec 9) (e : Ctx) (b : Bool) : Nat := if b = e.mps then mpsWidth c r e else lpsWidth c r e

/-- The entry after bin `b` (rules R94, R95). -/
def entryAfter (c : Config) (e : Ctx) (b : Bool) : Ctx := if b = e.mps then e.mpsUpdate c else e.lpsUpdate c

/-- The table after the bins of a list in order (rules R94, R95, R98). -/
def tableAfter (c : Config) : List (Bool × Fin 32) → CtxTable → CtxTable
  | [], t => t
  | (b, k) :: bins, t => tableAfter c bins (t.put k (entryAfter c (t.get k) b))

/-- The doublings that bring a width of 1..511 to 256..511 (rules R100, R119): 8 less the place of its top bit. -/
def doublings (n : Nat) : Nat := 8 - n.log2

/-- The shift steps that the bins of a list make in RenormE from range `r` and table `t` (the `S` of rules R106 and R118),
counted from the range arithmetic alone. -/
def sessionShifts (c : Config) : List (Bool × Fin 32) → BitVec 9 → CtxTable → Nat
  | [], _, _ => 0
  | (b, k) :: bins, r, t =>
    let w := partWidth c r (t.get k) b
    doublings w +
      sessionShifts c bins (BitVec.ofNat 9 (w * 2 ^ doublings w)) (t.put k (entryAfter c (t.get k) b))

/-- The number that the bytes at indices 0..n-1 of a buffer spell, byte 0 most significant (rule R59). -/
def bytesValue (byteAt : Nat → Byte) : Nat → Nat
  | 0 => 0
  | n + 1 => 256 * bytesValue byteAt n + (byteAt n).toNat

/-- The number spelt by the encoder's output with its held bytes: OUT_BUF[0..OUT_LEN-1], then PEND if valid, then FF_RUN
bytes 0xFF (rules R25, R26, R28). -/
def producedValue (u : EncUnit) : Nat :=
  let w := bytesValue u.outByteAt u.outLen.toNat
  let p := if u.pendValid then 256 * w + u.pend.toNat else w
  (p + 1) * 256 ^ u.ffRun.toNat - 1

/-- The encoder's whole low: the produced bytes above the window of ENC.L, whose top lies 10 bits above its end just after
an emission and one more for each shift since (rules R23, R24, R101). -/
def lowValue (u : EncUnit) : Nat := producedValue u * 2 ^ (10 + (7 - u.cnt.toNat)) + u.l.toNat

/-- Byte `i` of the decoder's input: zero at and past the stream's end (rule R109). -/
def inputByte (u : DecUnit) (i : Nat) : Byte := if i < u.len.toNat then u.inByteAt i else 0

/-- The `j`-th bit the decoder has still to use: those left in the reservoir, then the input from the cursor on, most
significant bit of each byte first (rules R33, R59, R110). -/
def upcomingBit (u : DecUnit) (j : Nat) : Bool :=
  if j < u.nres.toNat then u.res.getLsbD (u.nres.toNat - 1 - j)
  else (inputByte u (u.cur.toNat + (j - u.nres.toNat) / 8)).getLsbD (7 - (j - u.nres.toNat) % 8)

/-- The number the next `k` bits spell. -/
def upcomingValue (u : DecUnit) : Nat → Nat
  | 0 => 0
  | k + 1 => 2 * upcomingValue u k + (upcomingBit u k).toNat

/-! Runs of commands. -/

/-- The state after one command, and the state itself if the command stopped (which no command of this model does). -/
def after (i : Instr) (s : State) : State :=
  match exec i s with
  | .next t => t
  | .fault _ => s
  | .refused _ => s

/-- The state after the commands of a list, in order (rule R63). -/
def afterAll : List Instr → State → State
  | [], s => s
  | i :: is, s => afterAll is (after i s)

/-- ENC_BIN of each (bin, context) pair. -/
def encBinCommands (bins : List (Bool × Fin 32)) : List Instr := bins.map fun p => .encBin p.2 p.1

/-- One bin-level encoding session: ENC_START, one ENC_BIN per pair, ENC_FINISH (rule R123). -/
def encSession (bins : List (Bool × Fin 32)) : List Instr := .encStart :: encBinCommands bins ++ [.encFinish]

/-- The bins that DEC_BIN of the listed contexts return, each read from STATUS.BIN after its command, and the state after
them. -/
def decBins : List (Fin 32) → State → List Bool × State
  | [], s => ([], s)
  | c :: cs, s =>
    let t := after (.decBin c) s
    let (bs, v) := decBins cs t
    (t.status.bin :: bs, v)

/-! The block syntax, written from rules R125 to R128 and R130 to R135 as data: what a block's bins say, the bins themselves
with their contexts, and the levels they spell. -/

/-- The bins of one level at scan index `i` (rules R128, R133): the unary prefix and its 0, the four suffix bits, most
significant first, if the prefix is not 0, and the sign. -/
def levelSyntax (i : Fin 16) (ones suffix : Nat) (negative : Bool) : List (Bool × Fin 32) :=
  List.replicate ones (true, prefixCtx i) ++ [(false, prefixCtx i)] ++
    (if 0 < ones then
      [(suffix.testBit 3, 21), (suffix.testBit 2, 22), (suffix.testBit 1, 23), (suffix.testBit 0, 24)]
    else []) ++ [(negative, 25)]

/-- The level those bins spell (rule R133). -/
def levelValue (ones suffix : Nat) (negative : Bool) : Int :=
  if negative then -(15 * ones + suffix + 1) else 15 * ones + suffix + 1

/-- The prefixes and suffixes a level's bins can spell (rules R133, R134): fewer than 2185 ones, a suffix of 4 bits, no
suffix behind an empty prefix. -/
abbrev LevelFields (ones suffix : Nat) : Prop := ones < 2185 ∧ suffix < 16 ∧ (ones = 0 → suffix = 0)

/-- A level that a 16-bit coefficient can hold (rules R30, R133). -/
abbrev FitsCoef (x : Int) : Prop := -32768 ≤ x ∧ x ≤ 32767

/-- The coded positions among the significant ones: up to and including the first whose last-position flag is 1, all of them
if no flag is 1 (rules R130, R131). -/
def codedOf (last : Fin 16 → Bool) : List (Fin 16) → List (Fin 16)
  | [] => []
  | i :: rest => i :: (if last i then [] else codedOf last rest)

/-- What the bins of one block say, by scan index; the fields matter at the coded positions alone, but for `sig`. -/
structure BlockSyntax where
  /-- The significance flags. -/
  sig : Fin 16 → Bool
  /-- The last-position flags. -/
  last : Fin 16 → Bool
  /-- The number of ones of each level's prefix. -/
  ones : Fin 16 → Nat
  /-- The suffix of each level, 0 without a prefix. -/
  suffix : Fin 16 → Nat
  /-- The sign of each level. -/
  negative : Fin 16 → Bool

/-- The coded positions, ascending (rules R130, R131). -/
def BlockSyntax.coded (g : BlockSyntax) : List (Fin 16) := codedOf g.last (scanIndices.filter g.sig)

/-- The bins of phases 1 and 2 with their contexts (rules R125 to R127, R130). -/
def BlockSyntax.flagBins (g : BlockSyntax) : List (Bool × Fin 32) :=
  (scanIndices.map fun i => (g.sig i, sigCtx i g.sig)) ++ g.coded.map fun i => (g.last i, lastCtx i)

/-- The level bins of the listed positions, in the list's order. -/
def BlockSyntax.levelBins (g : BlockSyntax) (is : List (Fin 16)) : List (Bool × Fin 32) :=
  is.flatMap fun i => levelSyntax i (g.ones i) (g.suffix i) (g.negative i)

/-- All bins of the block with their contexts, the levels in reverse scan order (rules R124, R125, R130). -/
def BlockSyntax.bins (g : BlockSyntax) : List (Bool × Fin 32) := g.flagBins ++ g.levelBins g.coded.reverse

/-- The level at a scan index. -/
def BlockSyntax.level (g : BlockSyntax) (i : Fin 16) : Int := levelValue (g.ones i) (g.suffix i) (g.negative i)

/-- The level at a scan index can be spelt, and a coefficient can hold it (rules R133, R134). -/
abbrev BlockSyntax.LevelOk (g : BlockSyntax) (i : Fin 16) : Prop :=
  LevelFields (g.ones i) (g.suffix i) ∧ FitsCoef (g.level i)

/-- The scanned layout the bins spell: 0 at every position that is not coded, a significant one after the terminal one
among them (rules R130, R132). -/
def BlockSyntax.levels (g : BlockSyntax) : Coefs :=
  Vector.ofFn fun i => if i ∈ g.coded then BitVec.ofInt 16 (g.level i) else 0

/-- What the bins of a block to encode say (rules R125 to R128). -/
def encSyntax (cfg : Config) (blk : BlkType) (coefs : Coefs) : BlockSyntax where
  sig i := decide (scanned cfg blk coefs i ≠ 0)
  last i := decide (∀ j, i < j → scanned cfg blk coefs j = 0)
  ones i := ((scanned cfg blk coefs i).natAbs - 1) / 15
  suffix i :=
    if 15 ≤ (scanned cfg blk coefs i).natAbs - 1 then ((scanned cfg blk coefs i).natAbs - 1) % 15 else 0
  negative i := decide (scanned cfg blk coefs i < 0)

/-- The bins decoded in the contexts of a list, in order (rule R112). -/
def readBins (cfg : Config) : List (Fin 32) → DecUnit → Res DecUnit (List Bool)
  | [], u => .ok [] u
  | c :: cs, u => (decodeBin cfg c u).bind fun b v => (readBins cfg cs v).bind fun bs w => .ok (b :: bs) w

/-- Decoding in the contexts of the listed bins gives those bins, and takes unit `u` to `v`. -/
abbrev Reads (cfg : Config) (bins : List (Bool × Fin 32)) (u v : DecUnit) : Prop :=
  readBins cfg (bins.map Prod.snd) u = .ok (bins.map Prod.fst) v

/-- DEC_START and a DEC_BIN in the context of each listed bin return those bins without a fault, and leave the state `t`. -/
abbrev StartReads (bins : List (Bool × Fin 32)) (s t : State) : Prop :=
  decBins (bins.map Prod.snd) (after .decStart s) = (bins.map Prod.fst, t) ∧ t.status.err = .ok

/-- The commands of the encoder unit (rule R172). -/
def isEncCommand : Instr → Bool
  | .encCtxReset | .encStart | .encBin _ _ | .encFinish | .encBlock _ _ => true
  | .nop | .decCtxReset | .decLoad | .decStart | .decBin _ | .decBlock _ _ => false

/-- The commands of the decoder unit (rule R172). -/
def isDecCommand : Instr → Bool
  | .decCtxReset | .decLoad | .decStart | .decBin _ | .decBlock _ _ => true
  | .nop | .encCtxReset | .encStart | .encBin _ _ | .encFinish | .encBlock _ _ => false

/-- The contexts of the block syntax (rule R92). -/
def syntaxContexts : List (Fin 32) := [0, 1, 2, 6, 7, 8, 16, 17, 18, 19, 21, 22, 23, 24, 25]

/-- The read-only registers of rule R50. -/
def readOnly : Reg → Bool
  | .status | .outLen | .decCursor | .decLength | .encRange | .encLow | .encCount | .encPending | .encFfRun | .decRange
  | .decCode | .decReservoir | .coefOut _ | .outBuf _ => true
  | .cmd | .inLen | .coefIn _ | .ctxE _ | .ctxD _ | .inBuf _ => false

/-- A register access that reaches an entry of rule R50 under the capacities of `c`. -/
def mapped (c : Config) : Reg → Bool
  | .outBuf i => i < c.outCap
  | .inBuf i => i < c.inCap
  | _ => true

end Sys2Proof.Safety
end

