-- ==== Sys2Proof/Certificates/Slice0/Obligations.lean ====
section
/-! DEFINITION. The statements for the provers: what the rules of the spec say of the encoding, the bus, STATUS, the
contexts, the two units and the whole machine. -/

open Sys2Proof Sys2Proof.Machine Sys2Proof.Safety

/-! Encoding (rules R69 to R79). -/

/-- Decoding an encoded command gives the command back: no bit of an encoding is dropped (rules R70 to R77). -/
def Obligations.DecodeEncodeRoundTrip : Prop := ∀ i : Instr, decode (encode i) = .command i

/-- Each command has one word: a word that decodes to a command is that command's encoding (rules R75, R77). -/
def Obligations.EncodeDecodeRoundTrip : Prop := ∀ (w : Word) (i : Instr), decode w = .command i → encode i = w

/-- Rule R73: a word selects a command of the table exactly if it agrees with the row's match under its mask, and no word
selects two rows. -/
def Obligations.DecodeMatchesMaskTable : Prop :=
  (∀ w : Word, ∀ row ∈ opcodeTable, (w &&& row.2.2 = row.2.1 ↔ ∃ i, decode w = .command i ∧ i.mnemonic = row.1)) ∧
  (∀ w : Word, ∀ a ∈ opcodeTable, ∀ b ∈ opcodeTable, w &&& a.2.2 = a.2.1 → w &&& b.2.2 = b.2.1 → a = b)

/-- Rule R75: which words are legal, per opcode. -/
def Obligations.DecodeLegality : Prop :=
  ∀ w : Word, (∃ i, decode w = .command i) ↔
    (w.extractLsb' 0 4 ∈ [(0x0 : BitVec 4), 0x1, 0x2, 0x3, 0x5, 0x7, 0x8] ∧ w.extractLsb' 4 28 = 0) ∨
    (w.extractLsb' 0 4 = 0x4 ∧ w.extractLsb' 14 18 = 0 ∧ w.extractLsb' 4 4 = 0) ∨
    (w.extractLsb' 0 4 ∈ [(0x6 : BitVec 4), 0xA] ∧ w.extractLsb' 7 25 = 0) ∨
    (w.extractLsb' 0 4 = 0x9 ∧ w.extractLsb' 13 19 = 0 ∧ w.extractLsb' 4 4 = 0)

/-- Rule R71: the operands are the fields `w[4]`, `w[6:5]`, `w[12:8]` and `w[13]` as they stand, and the component does not
alter behaviour. -/
def Obligations.OperandAssembly : Prop :=
  (∀ (w : Word) (i : Instr), decode w = .command i →
    match i with
    | .encBin c b => c.val = (w.extractLsb' 8 5).toNat ∧ b = w.getLsbD 13
    | .decBin c => c.val = (w.extractLsb' 8 5).toNat
    | .encBlock k m => k = (if w.getLsbD 4 then .field else .inter) ∧ m.bits = w.extractLsb' 5 2
    | .decBlock k m => k = (if w.getLsbD 4 then .field else .inter) ∧ m.bits = w.extractLsb' 5 2
    | .nop | .encCtxReset | .decCtxReset | .encStart | .encFinish | .decLoad | .decStart => True) ∧
  (∀ (k : BlkType) (m m' : Component) (s : State),
    exec (.encBlock k m) s = exec (.encBlock k m') s ∧ exec (.decBlock k m) s = exec (.decBlock k m') s)

/-- Rule R79's examples. -/
def Obligations.SampleCommandWords : Prop :=
  decode 0x00002104 = .command (.encBin 1 true) ∧ decode 0x00001904 = .command (.encBin 25 false) ∧
  decode 0x00001009 = .command (.decBin 16) ∧ decode 0x00000056 = .command (.encBlock .field .chroma2) ∧
  decode 0x0000000A = .command (.decBlock .inter .luma) ∧
  (∀ i, decode 0x00000084 ≠ .command i) ∧ (∀ i, decode 0x0000000B ≠ .command i)

/-! Steps (rules R8, R63, R74, R80, R163, R165). -/

/-- A host write of a legal word to CMD runs the decoded command on the state with that access taken; and `withFetchWord`
places exactly such an access (rules R63, R80). That the host's accesses stand in the state is the model's choice, log
entry 1. -/
def Obligations.StepRunsDecodedCommand : Prop :=
  (∀ (s : State) (rest : List HostEvent) (w : Word) (i : Instr), s.pending = .write 32 0x00000 w :: rest →
    s.status.busy = false → decode w = .command i → step s = exec i { s with pending := rest, rdata := none }) ∧
  (∀ (s : State) (w : Word), (s.withFetchWord 32 w.toNat).pending = .write 32 0x00000 w :: s.pending)

/-- Rule R74: a word that matches no row of rule R73's table, every word of opcode 0xB to 0xF among them, changes ERR and
FAULT and nothing else of the core (the host's accesses stand in the state by the model's choice, log entry 1). -/
def Obligations.IllegalWordStep : Prop :=
  (∀ (s : State) (rest : List HostEvent) (w : Word), s.pending = .write 32 0x00000 w :: rest → s.status.busy = false →
    (∀ row ∈ opcodeTable, w &&& row.2.2 ≠ row.2.1) →
    step s = .next { s with
      pending := rest, rdata := none, status := { s.status with err := .illegalCmd, fault := true } }) ∧
  (∀ w : Word, 0xB ≤ (w.extractLsb' 0 4).toNat → ∀ row ∈ opcodeTable, w &&& row.2.2 ≠ row.2.1)

/-- With no access to come the core does nothing (rule R165; that the host's accesses stand in the state is the model's
choice, log entry 1). The reset event puts every piece of state at rule R45's value, in one step from any state, the
parameters kept (rules R44, R163). That the later accesses stay pending with no data on the bus, and that the draw counters of
the buffers' unspecified contents go up by 1 (rule R46), are the model's choices, log entries 12 and 3. -/
def Obligations.IdleAndResetSteps : Prop :=
  (∀ s : State, s.pending = [] → step s = .next s) ∧
  (∀ (s : State) (rest : List HostEvent), s.pending = .reset :: rest →
    ∃ t, step s = .next t ∧ ResetValues t ∧ t.cfg = s.cfg ∧ t.pending = rest ∧ t.rdata = none ∧
      t.enc.outDraw = s.enc.outDraw + 1 ∧ t.dec.inDraw = s.dec.inDraw + 1)

/-- Rule R45: the values after reset. -/
def Obligations.ResetValuesHold : Prop := ResetValues State.reset

/-- A host that issues a command and then reads STATUS (the macro ISSUE of rule R78) runs the command and reads the STATUS
it left: a read that follows a command observes its effects (rules R63, R64). -/
def Obligations.IssueShowsTheOutcome : Prop :=
  ∀ (s : State) (i : Instr) (rest : List HostEvent), s.pending = issue (encode i) ++ rest → s.status.busy = false →
    ∃ t u, step s = .next t ∧ step t = .next u ∧
      u = { after i s with pending := rest, rdata := some (after i s).statusWord }

/-! The bus (rules R47 to R56). -/

/-- Rules R48 to R50: every listed register is reached at its address, aligned and inside 20 bits, and no accepted access
reaches anything else. -/
def Obligations.BusMapRoundTrip : Prop :=
  (∀ (c : Config) (r : Reg), CapsOk c → mapped c r = true →
    busDecode c 32 (BitVec.ofNat 20 r.addr) = .ok r ∧ r.addr < 2 ^ 20 ∧ r.addr % 4 = 0) ∧
  (∀ (c : Config) (bits : Nat) (a : Addr) (r : Reg), busDecode c bits a = .ok r →
    bits = 32 ∧ a.toNat = r.addr ∧ mapped c r = true)

/-- Rules R48, R49: an access of another width, at an address that is no multiple of 4, or at an address that rule R50 does
not list (a buffer index at or above its capacity among them) is refused. The model's step for a refused access is a fault
(log entry 4). -/
def Obligations.BusRefusals : Prop :=
  ∀ (s : State) (ev : HostEvent) (rest : List HostEvent) (bits : Nat) (a : Addr),
    (ev = .read bits a ∨ ∃ w, ev = .write bits a w) → s.pending = ev :: rest →
    (bits ≠ 32 → step s = .fault (.accessWidth bits)) ∧
    (bits = 32 → a.toNat % 4 ≠ 0 → step s = .fault (.misalignedAddress a)) ∧
    (bits = 32 → a.toNat % 4 = 0 → (∀ r, mapped s.cfg r = true → r.addr ≠ a.toNat) →
      step s = .fault (.unmappedAddress a)) ∧
    (bits = 32 → ∀ i, s.cfg.outCap ≤ i → i < 65536 → a.toNat = 0x10000 + 4 * i → step s = .fault (.unmappedAddress a)) ∧
    (bits = 32 → ∀ i, s.cfg.inCap ≤ i → i < 65536 → a.toNat = 0x50000 + 4 * i → step s = .fault (.unmappedAddress a))

/-- Rule R51: a read puts the register's word on the bus and changes nothing, a read of CMD gives 0, and a write to a
read-only register is accepted and has no effect. -/
def Obligations.ReadsAndReadOnlyWrites : Prop :=
  (∀ (s : State) (r : Reg) (rest : List HostEvent), CapsOk s.cfg → s.status.busy = false → mapped s.cfg r = true →
    (s.pending = .read 32 (BitVec.ofNat 20 r.addr) :: rest →
      step s = .next { s with pending := rest, rdata := some (s.readReg r) }) ∧
    (∀ w : Word, readOnly r = true → s.pending = .write 32 (BitVec.ofNat 20 r.addr) w :: rest →
      step s = .next { s with pending := rest, rdata := none })) ∧
  (∀ s : State, s.readReg .cmd = 0)

/-- The STATUS word's fields, its copies of unit flags and its zero bits (rule R41), and the error codes (rule R151). -/
def Obligations.StatusWordLayout : Prop :=
  (∀ s : State, s.readReg .status = s.statusWord ∧
    s.statusWord.getLsbD 0 = s.status.busy ∧ s.statusWord.getLsbD 1 = s.enc.active ∧
    s.statusWord.getLsbD 2 = s.dec.ready ∧ s.statusWord.getLsbD 3 = s.dec.active ∧
    s.statusWord.getLsbD 4 = s.status.bin ∧ s.statusWord.getLsbD 5 = s.status.fault ∧
    s.statusWord.extractLsb' 6 2 = 0 ∧ s.statusWord.extractLsb' 8 4 = s.status.err.code ∧
    s.statusWord.extractLsb' 12 20 = 0) ∧
  ErrCode.ok.code = 0 ∧ ErrCode.illegalCmd.code = 1 ∧ ErrCode.notReady.code = 2 ∧ ErrCode.shortStream.code = 3 ∧
  ErrCode.badLen.code = 4 ∧ ErrCode.streamInvalid.code = 5 ∧ ErrCode.levelRange.code = 6 ∧
  ErrCode.outOverflow.code = 7 ∧ ErrCode.zeroWidth.code = 8 ∧ ErrCode.notStarted.code = 9 ∧ ErrCode.busy.code = 10

/-- The words that reads of the other read-only registers and of IN_LEN and OUT_BUF return, as numbers (rules R50, R55). -/
def Obligations.RegisterReadWords : Prop :=
  ∀ s : State,
    (s.readReg .outLen).toNat = s.enc.outLen.toNat ∧ (s.readReg .inLen).toNat = s.dec.inLen.toNat ∧
    s.readReg .decCursor = s.dec.cur ∧ (s.readReg .decLength).toNat = s.dec.len.toNat ∧
    (s.readReg .encRange).toNat = s.enc.r.toNat ∧ (s.readReg .encLow).toNat = s.enc.l.toNat ∧
    (s.readReg .encCount).toNat = s.enc.cnt.toNat ∧
    (s.readReg .encPending).toNat = s.enc.pend.toNat + 256 * s.enc.pendValid.toNat ∧
    (s.readReg .encFfRun).toNat = s.enc.ffRun.toNat ∧ (s.readReg .decRange).toNat = s.dec.r.toNat ∧
    (s.readReg .decCode).toNat = s.dec.code.toNat ∧
    (s.readReg .decReservoir).toNat = s.dec.res.toNat + 256 * s.dec.nres.toNat ∧
    ∀ i, (s.readReg (.outBuf i)).toNat = (s.enc.outByteAt i).toNat

/-- Rules R52, R53: the coefficient registers; a write of COEF_IN[p] sets that register to the low half of the word and
changes nothing else, and reads sign-extend. -/
def Obligations.CoefficientRegisterAccess : Prop :=
  (∀ (s : State) (p : Fin 16) (w : Word) (rest : List HostEvent), s.status.busy = false →
    s.pending = .write 32 (BitVec.ofNat 20 (0x00100 + 4 * p.val)) w :: rest →
    step s = .next { s with
      pending := rest, rdata := none, enc := { s.enc with coefIn := s.enc.coefIn.set p (w.extractLsb' 0 16) } }) ∧
  (∀ (s : State) (p : Fin 16), (s.readReg (.coefIn p)).toInt = (s.enc.coefIn.get p).toInt ∧
    (s.readReg (.coefOut p)).toInt = (s.dec.coefOut.get p).toInt)

/-- Rule R54: the context registers of both units; a write sets that one entry from bits 0 and 4:1 and changes nothing else,
and a read gives them back with zeros above. -/
def Obligations.ContextRegisterAccess : Prop :=
  (∀ (s : State) (c : Fin 32) (w : Word) (rest : List HostEvent), s.status.busy = false →
    (s.pending = .write 32 (BitVec.ofNat 20 (0x00200 + 4 * c.val)) w :: rest →
      step s = .next { s with
        pending := rest, rdata := none,
        enc := { s.enc with ctx := s.enc.ctx.set c ⟨w.getLsbD 0, w.extractLsb' 1 4⟩ } }) ∧
    (s.pending = .write 32 (BitVec.ofNat 20 (0x00280 + 4 * c.val)) w :: rest →
      step s = .next { s with
        pending := rest, rdata := none,
        dec := { s.dec with ctx := s.dec.ctx.set c ⟨w.getLsbD 0, w.extractLsb' 1 4⟩ } })) ∧
  (∀ (s : State) (c : Fin 32),
    (s.readReg (.ctxE c)).toNat = (s.enc.ctx.get c).mps.toNat + 2 * (s.enc.ctx.get c).state.toNat ∧
    (s.readReg (.ctxD c)).toNat = (s.dec.ctx.get c).mps.toNat + 2 * (s.dec.ctx.get c).state.toNat)

/-- The input buffer (rule R56) and IN_LEN (rule R50): a write of IN_BUF[i] sets that byte from bits 7:0 and no other byte,
a read gives it zero-extended; a write of IN_LEN sets it from bits 16:0; nothing else of the core changes. -/
def Obligations.InputRegisterAccess : Prop :=
  (∀ (s : State) (w : Word) (rest : List HostEvent), CapsOk s.cfg → s.status.busy = false →
    (∀ i < s.cfg.inCap, s.pending = .write 32 (BitVec.ofNat 20 (0x50000 + 4 * i)) w :: rest →
      ∃ t, step s = .next t ∧ t.dec.inByteAt i = w.extractLsb' 0 8 ∧
        (∀ j, j ≠ i → t.dec.inByteAt j = s.dec.inByteAt j) ∧
        t = { s with pending := rest, rdata := none, dec := { s.dec with inBuf := t.dec.inBuf } }) ∧
    (s.pending = .write 32 0x0000C w :: rest →
      step s = .next { s with pending := rest, rdata := none, dec := { s.dec with inLen := w.extractLsb' 0 17 } })) ∧
  (∀ (s : State) (i : Nat), (s.readReg (.inBuf i)).toNat = (s.dec.inByteAt i).toNat)

/-! STATUS and faults (rules R151 to R155). -/

/-- Rules R152, R153, R80: every command ends in a next state, with BUSY 0, and either ERR is OK and FAULT as it was, or ERR
is an error and FAULT is 1. BIN changes by a DEC_BIN that completes alone (rule R41); no command changes the parameters
(rule R44) or the host's accesses to come. -/
def Obligations.CommandOutcomeStatus : Prop :=
  ∀ (i : Instr) (s : State), ∃ t, exec i s = .next t ∧ t.status.busy = false ∧
    ((t.status.err = .ok ∧ t.status.fault = s.status.fault) ∨ (t.status.err ≠ .ok ∧ t.status.fault = true)) ∧
    (t.status.bin ≠ s.status.bin → (∃ c, i = .decBin c) ∧ t.status.err = .ok) ∧
    t.cfg = s.cfg ∧ t.pending = s.pending ∧ t.rdata = s.rdata

/-- Rule R154: FAULT is sticky; the reset event alone clears it. -/
def Obligations.FaultIsSticky : Prop :=
  (∀ s t : State, step s = .next t → (∀ rest, s.pending ≠ .reset :: rest) → s.status.fault = true →
    t.status.fault = true) ∧
  (∀ (s t : State) (rest : List HostEvent), s.pending = .reset :: rest → step s = .next t → t.status.fault = false)

/-- Which errors each command may leave in ERR (rules R151, R149): no other. -/
def Obligations.ErrorsOfEachCommand : Prop :=
  ∀ (i : Instr) (s t : State), exec i s = .next t →
    match i with
    | .nop | .encCtxReset | .decCtxReset | .encStart => t.status.err = .ok
    | .encBin _ _ => t.status.err ∈ [ErrCode.ok, .notStarted, .zeroWidth, .outOverflow]
    | .encFinish => t.status.err ∈ [ErrCode.ok, .notStarted, .outOverflow]
    | .encBlock _ _ => t.status.err ∈ [ErrCode.ok, .zeroWidth, .outOverflow]
    | .decLoad => t.status.err ∈ [ErrCode.ok, .shortStream, .badLen]
    | .decStart => t.status.err ∈ [ErrCode.ok, .notReady, .streamInvalid]
    | .decBin _ => t.status.err ∈ [ErrCode.ok, .notReady, .zeroWidth]
    | .decBlock _ _ => t.status.err ∈ [ErrCode.ok, .notReady, .streamInvalid, .levelRange, .zeroWidth]

/-- Under rule R10's constraint no command raises ZERO_WIDTH (rules R10, R93, R117, R151), from any state that keeps the
invariant. -/
def Obligations.LegalTablesNeverZeroWidth : Prop :=
  ∀ (i : Instr) (s t : State), s.cfg.Legal → Inv s → exec i s = .next t → t.status.err ≠ .zeroWidth

/-! Contexts (rules R81 to R98). -/

/-- The context-index formulas of rules R86, R88, R89, R90 and R91, with the values the rules list. -/
def Obligations.ContextIndexFormulas : Prop :=
  (∀ (i : Fin 16) (sig : Fin 16 → Bool), (sigCtx i sig).val =
    min 5 ((if i.val % 4 ≠ 0 ∧ sig (i - 1) = true then 1 else 0) + (if 4 ≤ i.val ∧ sig (i - 4) = true then 1 else 0))) ∧
  sigCtx 5 (fun k => decide (k.val < 2)) = 1 ∧
  (∀ i : Fin 16, (lastCtx i).val = 6 + min 2 ((15 - i.val) / 4) ∧
    (lastCtx i).val = (if i.val ≤ 7 then 8 else if i.val ≤ 11 then 7 else 6)) ∧
  (∀ i : Fin 16, (prefixCtx i).val = 16 + min 4 (i.val / 4) ∧ (prefixCtx i).val ≤ 19) ∧
  (∀ j : Fin 4, (suffixCtx j).val = 21 + j.val) ∧ signCtx.val = 25

/-- Rule R87: the significance context reads the flags at `i - 1` and `i - 4` and no other. -/
def Obligations.SignificanceContextReadsTwoFlags : Prop :=
  ∀ (i : Fin 16) (f g : Fin 16 → Bool),
    (∀ k : Fin 16, k.val + 1 = i.val ∨ k.val + 4 = i.val → f k = g k) → sigCtx i f = sigCtx i g

/-- Rule R92: the contexts the block syntax can reach are exactly the fifteen listed, in both directions. -/
def Obligations.BlockSyntaxContexts : Prop :=
  (∀ (cfg : Config) (blk : BlkType) (coefs : Coefs), ∀ p ∈ blockBins cfg blk coefs, p.2 ∈ syntaxContexts) ∧
  (∀ (cfg : Config) (blk : BlkType), ∃ coefs, ∀ c ∈ syntaxContexts, ∃ b, (b, c) ∈ blockBins cfg blk coefs) ∧
  (∀ (s t : State) (blk : BlkType) (comp : Component) (c : Fin 32), exec (.decBlock blk comp) s = .next t →
    c ∉ syntaxContexts → t.dec.ctx.get c = s.dec.ctx.get c)

/-- The width split (rule R93), total and with both widths at least 1 under rule R10's constraint, and a fault exactly where
a width is zero. -/
def Obligations.WidthSplit : Prop :=
  (∀ (cfg : Config) (r : BitVec 9) (st : BitVec 4), cfg.Legal → 256 ≤ r.toNat → r.toNat ≤ 510 →
    ∃ lps mps, widths cfg r st = some (lps, mps) ∧ lps = r.toNat * (cfg.lpsScale.get st.toFin).toNat / 65536 ∧
      mps = r.toNat - lps ∧ 1 ≤ lps ∧ lps ≤ r.toNat - 1 ∧ 1 ≤ mps ∧ mps ≤ r.toNat - 1) ∧
  (∀ (cfg : Config) (r : BitVec 9) (st : BitVec 4), widths cfg r st = none ↔
    (r.toNat * (cfg.lpsScale.get st.toFin).toNat / 65536 = 0 ∨
      r.toNat - r.toNat * (cfg.lpsScale.get st.toFin).toNat / 65536 = 0))

/-- Rules R94, R95: the state and the most probable symbol after an MPS and after an LPS. -/
def Obligations.ContextUpdates : Prop :=
  ∀ (cfg : Config) (e : Ctx),
    (e.mpsUpdate cfg).state = cfg.transMps.get e.state.toFin ∧ (e.mpsUpdate cfg).mps = e.mps ∧
    (e.lpsUpdate cfg).state = cfg.transLps.get e.state.toFin ∧
    (e.lpsUpdate cfg).mps = (if e.state = 0 then !e.mps else e.mps)

/-- Rule R98: a step changes a context entry only by a bin against it (ENC_BIN or DEC_BIN naming it, or a block command), a
host write of its register, the unit's CTX_RESET command, or reset. -/
def Obligations.ContextsChangeOnlyByListedMeans : Prop :=
  ∀ (s t : State) (c : Fin 32), step s = .next t →
    (t.enc.ctx.get c ≠ s.enc.ctx.get c →
      (∃ rest, s.pending = .reset :: rest) ∨
      (∃ a w rest, s.pending = .write 32 a w :: rest ∧
        (a.toNat = 0x00200 + 4 * c.val ∨
          (a = 0x00000 ∧ (decode w = .command .encCtxReset ∨ (∃ b, decode w = .command (.encBin c b)) ∨
            ((∃ blk comp, decode w = .command (.encBlock blk comp)) ∧ c ∈ syntaxContexts)))))) ∧
    (t.dec.ctx.get c ≠ s.dec.ctx.get c →
      (∃ rest, s.pending = .reset :: rest) ∨
      (∃ a w rest, s.pending = .write 32 a w :: rest ∧
        (a.toNat = 0x00280 + 4 * c.val ∨
          (a = 0x00000 ∧ (decode w = .command .decCtxReset ∨ decode w = .command (.decBin c) ∨
            ((∃ blk comp, decode w = .command (.decBlock blk comp)) ∧ c ∈ syntaxContexts))))))

/-! Control commands (rules R141 to R143). -/

/-- NOP, ENC_CTX_RESET and DEC_CTX_RESET: their words, and the whole next state. -/
def Obligations.ControlCommandResults : Prop :=
  (encode .nop = 0x00000000 ∧ encode .encCtxReset = 0x00000001 ∧ encode .decCtxReset = 0x00000002) ∧
  ∀ s : State, s.status.busy = false →
    exec .nop s = .next { s with status := { s.status with err := .ok } } ∧
    exec .encCtxReset s = .next { s with
      enc := { s.enc with ctx := Vector.replicate 32 ⟨false, 0⟩ }, status := { s.status with err := .ok } } ∧
    exec .decCtxReset s = .next { s with
      dec := { s.dec with ctx := Vector.replicate 32 ⟨false, 0⟩ }, status := { s.status with err := .ok } }

/-! The encoder unit (rules R99 to R108, R144). -/

/-- ENC_START (rule R104): its word, and the whole next state; contexts and OUT_BUF are kept, an open session is discarded. -/
def Obligations.EncStartResult : Prop :=
  encode .encStart = 0x00000003 ∧
  ∀ s : State, s.status.busy = false →
    exec .encStart s = .next { s with
      enc := { s.enc with
        r := 510, l := 0, cnt := 8, pendValid := false, pend := 0, ffRun := 0, outLen := 0, active := true },
      status := { s.status with err := .ok } }

/-- ENC_BIN (rules R99, R100, R101, R107): the whole next state. The part of the range that the bin keeps is doubled `k`
times, up to 256..511; the low, advanced by the MPS width for an LPS, is shifted as often; where the counter runs out, the
bits from the 10-bit window up go to the byte machine of rule R102 and the counter restarts at 7. It completes wherever no
byte is emitted or there is room for one. -/
def Obligations.EncBinResult : Prop :=
  ∀ (s : State) (c : Fin 32) (b : Bool), s.cfg.Legal → s.enc.active = true → 256 ≤ s.enc.r.toNat →
    ∃ k ≤ 8, 256 ≤ partWidth s.cfg s.enc.r (s.enc.ctx.get c) b * 2 ^ k ∧
      partWidth s.cfg s.enc.r (s.enc.ctx.get c) b * 2 ^ k < 512 ∧
      (k ≤ s.enc.cnt.toNat ∨ s.enc.produced < s.cfg.outCap →
        exec (.encBin c b) s = .next { s with
          enc :=
            let low := s.enc.l.toNat +
              (if b = (s.enc.ctx.get c).mps then 0 else mpsWidth s.cfg s.enc.r (s.enc.ctx.get c))
            let u := if k ≤ s.enc.cnt.toNat then
                { s.enc with l := BitVec.ofNat 19 (low * 2 ^ k), cnt := BitVec.ofNat 4 (s.enc.cnt.toNat - k) }
              else
                { s.enc.resolve (BitVec.ofNat 9 (low * 2 ^ (s.enc.cnt.toNat + 1) / 1024)) with
                  l := BitVec.ofNat 19 (low * 2 ^ (s.enc.cnt.toNat + 1) % 1024 * 2 ^ (k - s.enc.cnt.toNat - 1)),
                  cnt := BitVec.ofNat 4 (7 - (k - s.enc.cnt.toNat - 1)) }
            { u with
              r := BitVec.ofNat 9 (partWidth s.cfg s.enc.r (s.enc.ctx.get c) b * 2 ^ k),
              ctx := s.enc.ctx.put c (entryAfter s.cfg (s.enc.ctx.get c) b) },
          status := { s.status with err := .ok, busy := false } })

/-- The faults of ENC_BIN and ENC_FINISH's NOT_STARTED, with rule R149's unit effects (rules R102, R107, R108): NOT_STARTED
changes nothing in the unit; ZERO_WIDTH applies nothing of the bin; at OUT_OVERFLOW the registers and the contexts are as at
the failing Emit and no byte is written. -/
def Obligations.EncBinFaults : Prop :=
  (∀ (s : State) (c : Fin 32) (b : Bool), s.enc.active = false →
    exec (.encBin c b) s = .next { s with
      status := { s.status with err := .notStarted, fault := true, busy := false } } ∧
    exec .encFinish s = .next { s with
      status := { s.status with err := .notStarted, fault := true, busy := false } }) ∧
  (∀ (s : State) (c : Fin 32) (b : Bool), s.enc.active = true →
    lpsWidth s.cfg s.enc.r (s.enc.ctx.get c) = 0 ∨ mpsWidth s.cfg s.enc.r (s.enc.ctx.get c) = 0 →
    exec (.encBin c b) s = .next { s with
      enc := { s.enc with active := false },
      status := { s.status with err := .zeroWidth, fault := true, busy := false } }) ∧
  (∀ (s : State) (c : Fin 32) (b : Bool) (k : Nat), s.cfg.Legal → s.enc.active = true → 256 ≤ s.enc.r.toNat → k ≤ 8 →
    256 ≤ partWidth s.cfg s.enc.r (s.enc.ctx.get c) b * 2 ^ k →
    partWidth s.cfg s.enc.r (s.enc.ctx.get c) b * 2 ^ k < 512 → s.enc.cnt.toNat < k → s.cfg.outCap ≤ s.enc.produced →
    exec (.encBin c b) s = .next { s with
      enc :=
        let low := s.enc.l.toNat +
          (if b = (s.enc.ctx.get c).mps then 0 else mpsWidth s.cfg s.enc.r (s.enc.ctx.get c))
        { s.enc with
          r := BitVec.ofNat 9 (partWidth s.cfg s.enc.r (s.enc.ctx.get c) b * 2 ^ (s.enc.cnt.toNat + 1)),
          l := BitVec.ofNat 19 (low * 2 ^ (s.enc.cnt.toNat + 1) % 1024), cnt := 7,
          ctx := s.enc.ctx.put c (entryAfter s.cfg (s.enc.ctx.get c) b), active := false },
      status := { s.status with err := .outOverflow, fault := true, busy := false } })

/-- The carry-resolving byte machine (rules R102, R103): OUT_OVERFLOW with nothing changed where the produced bytes fill the
capacity; else a carry adds 1 to the held byte and turns the run to zeros, a 0xFF is deferred, and another byte writes the
held byte and the run unchanged. Every other byte of OUT_BUF keeps its value. -/
def Obligations.EmitResolvesHeldBytes : Prop :=
  ∀ (cfg : Config) (out : BitVec 9) (u : EncUnit), cfg.outCap ≤ 65536 →
    (cfg.outCap ≤ u.produced → emit cfg out u = .raised .outOverflow u) ∧
    (u.produced < cfg.outCap → ∃ v, emit cfg out u = .ok () v ∧
      (256 ≤ out.toNat →
        v = { u with
          pend := out.extractLsb' 0 8, pendValid := true, ffRun := 0, outLen := v.outLen, outBuf := v.outBuf } ∧
        v.outLen.toNat = u.outLen.toNat + 1 + u.ffRun.toNat ∧
        ∀ a, v.outByteAt a =
          if a = u.outLen.toNat then u.pend + 1
          else if u.outLen.toNat < a ∧ a ≤ u.outLen.toNat + u.ffRun.toNat then 0x00
          else u.outByteAt a) ∧
      (out = 0x0FF → v = { u with ffRun := u.ffRun + 1 }) ∧
      (out.toNat < 0xFF → u.pendValid = true →
        v = { u with
          pend := out.extractLsb' 0 8, pendValid := true, ffRun := 0, outLen := v.outLen, outBuf := v.outBuf } ∧
        v.outLen.toNat = u.outLen.toNat + 1 + u.ffRun.toNat ∧
        ∀ a, v.outByteAt a =
          if a = u.outLen.toNat then u.pend
          else if u.outLen.toNat < a ∧ a ≤ u.outLen.toNat + u.ffRun.toNat then 0xFF
          else u.outByteAt a) ∧
      (out.toNat < 0xFF → u.pendValid = false →
        v = { u with pend := out.extractLsb' 0 8, pendValid := true, ffRun := 0 }))

/-- ENC_FINISH on an open session (rules R105, R108): with room for the bytes to come, it leaves R = 256, L = 0, CNT = 7, no
held byte and no session; the stream is the produced bytes and two more, three from a counter of 0; and the bytes of
OUT_BUF[0..OUT_LEN-1] spell exactly the low that the session had reached (shifted as the termination shifts it). Bytes
below the old OUT_LEN and at or above the new one keep their value. Without room it raises OUT_OVERFLOW and closes the
session. -/
def Obligations.EncFinishResult : Prop :=
  ∀ s : State, Inv s → s.enc.active = true →
    (s.enc.produced + (if s.enc.cnt = 0 then 3 else 2) ≤ s.cfg.outCap →
      ∃ t, exec .encFinish s = .next t ∧
        t = { s with
          enc := { s.enc with
            r := 256, l := 0, cnt := 7, pendValid := false, pend := 0, ffRun := 0, active := false,
            outLen := t.enc.outLen, outBuf := t.enc.outBuf },
          status := { s.status with err := .ok } } ∧
        t.enc.outLen.toNat = s.enc.produced + (if s.enc.cnt = 0 then 3 else 2) ∧
        bytesValue t.enc.outByteAt t.enc.outLen.toNat * 2 ^ 10 =
          lowValue s.enc * 2 ^ (if s.enc.cnt = 0 ∨ s.enc.cnt = 8 then 17 else 9 + s.enc.cnt.toNat) ∧
        ∀ a, a < s.enc.outLen.toNat ∨ t.enc.outLen.toNat ≤ a → t.enc.outByteAt a = s.enc.outByteAt a) ∧
    (s.cfg.outCap < s.enc.produced + (if s.enc.cnt = 0 then 3 else 2) →
      ∃ t, exec .encFinish s = .next t ∧ t.enc.active = false ∧ t.enc.ctx = s.enc.ctx ∧
        t = { s with enc := t.enc, status := { s.status with err := .outOverflow, fault := true } })

/-- ENC_BLOCK (rules R106, R144): it takes ceil((9 + S) / 8) bytes, at most 35074, for the `S` shifts of the block's bins.
With capacity for them it completes from every state that keeps the invariant: R = 256, L = 0, CNT = 7, nothing held, no
session; the bytes stand from OUT_BUF[0] on; the contexts are adapted, not reset, by the block's bins; every byte of OUT_BUF
at or above OUT_LEN and everything else is unchanged but ERR. Without capacity it raises OUT_OVERFLOW and leaves no session
open. -/
def Obligations.EncBlockResult : Prop :=
  ∀ (s : State) (blk : BlkType) (comp : Component) (n : Nat), s.cfg.Legal → Inv s →
    n = (9 + sessionShifts s.cfg (blockBins s.cfg blk s.enc.coefIn) 510 s.enc.ctx + 7) / 8 →
    n ≤ 35074 ∧
    (n ≤ s.cfg.outCap →
      ∃ t, exec (.encBlock blk comp) s = .next t ∧
        t = { s with
          enc := { s.enc with
            r := 256, l := 0, cnt := 7, pendValid := false, pend := 0, ffRun := 0, active := false,
            ctx := tableAfter s.cfg (blockBins s.cfg blk s.enc.coefIn) s.enc.ctx, outLen := BitVec.ofNat 17 n,
            outBuf := t.enc.outBuf },
          status := { s.status with err := .ok } } ∧
        ∀ a, n ≤ a → t.enc.outByteAt a = s.enc.outByteAt a) ∧
    (s.cfg.outCap < n →
      ∃ t, exec (.encBlock blk comp) s = .next t ∧ t.enc.active = false ∧
        t = { s with enc := t.enc, status := { s.status with err := .outOverflow, fault := true } })

/-- Rule R150, the encoder: an ENC_BLOCK that does not fault is equal in effect to ENC_START, one ENC_BIN for each bin of the
block with its context, and ENC_FINISH. -/
def Obligations.EncBlockEqualsItsBins : Prop :=
  ∀ (s t : State) (blk : BlkType) (comp : Component), exec (.encBlock blk comp) s = .next t → t.status.err = .ok →
    afterAll (encSession (blockBins s.cfg blk s.enc.coefIn)) s = t

/-- Rule R129: the number of bins of a block; 16 for an all-zero block; the longest prefix 2184 ones, for -32768; and
rule R144's bound of 35072. -/
def Obligations.BlockBinCount : Prop :=
  (∀ (cfg : Config) (blk : BlkType) (coefs : Coefs),
    (blockBins cfg blk coefs).length = 16 + (significant (scanned cfg blk coefs)).length +
      ((significant (scanned cfg blk coefs)).map fun i =>
        ((scanned cfg blk coefs i).natAbs - 1) / 15 + 1 +
          (if 15 ≤ (scanned cfg blk coefs i).natAbs - 1 then 4 else 0) + 1).sum ∧
    (blockBins cfg blk coefs).length ≤ 35072 ∧
    ((∀ p, coefs.get p = 0) → (blockBins cfg blk coefs).length = 16)) ∧
  (∀ x : BitVec 16, (x.toInt.natAbs - 1) / 15 ≤ 2184) ∧ ((-32768 : Int).natAbs - 1) / 15 = 2184

/-- The bins of a block (rules R125 to R128). Every block: the significance flags, the last-position flags, 1 for the last
significant position alone, and the levels in reverse scan order. A level: the magnitude less 1 as `15 * ones + suffix`, the
ones and a 0 in the prefix context, the four suffix bits, most significant first, in contexts 21 to 24 if there is a one, the
sign in context 25. An all-zero block (rule R139): 16 zero flags, no last-position flag, no level. One coefficient, at scan
index 0 (rule R140): one last-position bin, 1, at context 8, then that level. -/
def Obligations.SimpleBlocksBins : Prop :=
  (∀ (cfg : Config) (blk : BlkType) (coefs : Coefs), blockBins cfg blk coefs = (encSyntax cfg blk coefs).bins) ∧
  (∀ (x : Int) (i : Fin 16), levelBins x i =
    List.replicate ((x.natAbs - 1) / 15) (true, prefixCtx i) ++ [(false, prefixCtx i)] ++
      (if 15 ≤ x.natAbs - 1 then
        [(((x.natAbs - 1) % 15).testBit 3, 21), (((x.natAbs - 1) % 15).testBit 2, 22),
          (((x.natAbs - 1) % 15).testBit 1, 23), (((x.natAbs - 1) % 15).testBit 0, 24)]
      else []) ++ [(decide (x < 0), 25)]) ∧
  (∀ (cfg : Config) (blk : BlkType) (coefs : Coefs), (∀ p, coefs.get p = 0) →
    blockBins cfg blk coefs = List.replicate 16 (false, 0)) ∧
  (∀ (cfg : Config) (blk : BlkType) (coefs : Coefs), (∀ i, scanned cfg blk coefs i ≠ 0 ↔ i = 0) →
    blockBins cfg blk coefs =
      [(true, 0), (false, 1), (false, 0), (false, 0), (false, 1)] ++ List.replicate 11 (false, 0) ++ [(true, 8)] ++
        levelSyntax 0 (((scanned cfg blk coefs 0).natAbs - 1) / 15) (((scanned cfg blk coefs 0).natAbs - 1) % 15)
          (decide (scanned cfg blk coefs 0 < 0)))

/-- The shape of a block stream (rule R106): a session of ENC_START, bins and ENC_FINISH whose bins make `S` shifts, with
room for its bytes, completes with ceil((9 + S) / 8) of them, at least 2, and its first byte is at most 0xFE. -/
def Obligations.BlockStreamShape : Prop :=
  ∀ (s : State) (bins : List (Bool × Fin 32)), s.cfg.Legal → Inv s →
    (9 + sessionShifts s.cfg bins 510 s.enc.ctx + 7) / 8 ≤ s.cfg.outCap →
    (afterAll (encSession bins) s).status.err = .ok ∧
    (afterAll (encSession bins) s).enc.outLen.toNat = (9 + sessionShifts s.cfg bins 510 s.enc.ctx + 7) / 8 ∧
    2 ≤ (afterAll (encSession bins) s).enc.outLen.toNat ∧
    ((afterAll (encSession bins) s).enc.outByteAt 0).toNat ≤ 0xFE

/-! The decoder unit (rules R109 to R118, R130 to R137, R146, R147). -/

/-- DEC_LOAD (rule R146): its word, and the whole next state in its three cases. -/
def Obligations.DecLoadResult : Prop :=
  encode .decLoad = 0x00000007 ∧
  ∀ s : State, s.status.busy = false →
    (s.dec.inLen.toNat < 2 → exec .decLoad s = .next { s with
      dec := { s.dec with ready := false, active := false },
      status := { s.status with err := .shortStream, fault := true } }) ∧
    (2 ≤ s.dec.inLen.toNat → s.cfg.inCap < s.dec.inLen.toNat → exec .decLoad s = .next { s with
      dec := { s.dec with ready := false, active := false },
      status := { s.status with err := .badLen, fault := true } }) ∧
    (2 ≤ s.dec.inLen.toNat → s.dec.inLen.toNat ≤ s.cfg.inCap → exec .decLoad s = .next { s with
      dec := { s.dec with
        len := s.dec.inLen, cur := 0, r := 510, code := 0, res := 0, nres := 0, ready := true, active := false },
      status := { s.status with err := .ok } })

/-- Rules R109, R110: one byte fetch and one bit of input. -/
def Obligations.InputBytesAndBits : Prop :=
  ∀ u : DecUnit,
    u.inByte = (if u.cur.toNat < u.len.toNat then u.inByteAt u.cur.toNat else 0x00,
      { u with cur := if u.cur.toNat < 2 ^ 32 - 1 then u.cur + 1 else u.cur }) ∧
    (u.nres = 0 → u.nextBit = (u.inByte.1.getLsbD 7, { u.inByte.2 with res := u.inByte.1, nres := 7 })) ∧
    (u.nres ≠ 0 → u.nextBit = (u.res.getLsbD (u.nres.toNat - 1), { u with nres := u.nres - 1 }))

/-- DEC_START (rules R111, R115): the whole next state. NOT_READY changes nothing in the unit. Else the cursor moves past one
leading 0xFF inside the stream, at most, and two bytes; the first 9 bits are the offset and 7 stay in the reservoir; an
offset of 510 or 511 raises STREAM_INVALID and drops the stream. -/
def Obligations.DecStartResult : Prop :=
  ∀ s : State,
    (s.dec.ready = false → exec .decStart s = .next { s with
      status := { s.status with err := .notReady, fault := true, busy := false } }) ∧
    (s.dec.ready = true → ∀ p,
      p = s.dec.cur.toNat +
        (if s.dec.cur.toNat < s.dec.len.toNat ∧ s.dec.inByteAt s.dec.cur.toNat = 0xFF then 1 else 0) →
      ((inputByte s.dec p).toNat * 2 + (inputByte s.dec (p + 1)).toNat / 128 < 510 → exec .decStart s = .next { s with
        dec := { s.dec with
          cur := BitVec.ofNat 32 (min (p + 2) (2 ^ 32 - 1)), r := 510,
          code := BitVec.ofNat 9 ((inputByte s.dec p).toNat * 2 + (inputByte s.dec (p + 1)).toNat / 128),
          res := BitVec.ofNat 8 ((inputByte s.dec (p + 1)).toNat % 128), nres := 7, active := true },
        status := { s.status with err := .ok, busy := false } }) ∧
      (510 ≤ (inputByte s.dec p).toNat * 2 + (inputByte s.dec (p + 1)).toNat / 128 → exec .decStart s = .next { s with
        dec := { s.dec with
          cur := BitVec.ofNat 32 (min (p + 2) (2 ^ 32 - 1)), r := 510,
          code := BitVec.ofNat 9 ((inputByte s.dec p).toNat * 2 + (inputByte s.dec (p + 1)).toNat / 128),
          res := BitVec.ofNat 8 ((inputByte s.dec (p + 1)).toNat % 128), nres := 7, ready := false, active := false },
        status := { s.status with err := .streamInvalid, fault := true, busy := false } }))

/-- DEC_BIN (rules R112, R113, R116): the whole next state. The bin is the LPS where the offset reaches the MPS width; the
part kept is doubled `k` times, up to 256..511; the offset takes in the next `k` bits; a byte is fetched where the reservoir
does not hold them; BIN is the bin. -/
def Obligations.DecBinResult : Prop :=
  ∀ (s : State) (c : Fin 32) (b : Bool), s.cfg.Legal → s.dec.active = true → 256 ≤ s.dec.r.toNat →
    s.dec.code.toNat < s.dec.r.toNat →
    b = (if mpsWidth s.cfg s.dec.r (s.dec.ctx.get c) ≤ s.dec.code.toNat then !(s.dec.ctx.get c).mps
      else (s.dec.ctx.get c).mps) →
    ∃ k ≤ 8, 256 ≤ partWidth s.cfg s.dec.r (s.dec.ctx.get c) b * 2 ^ k ∧
      partWidth s.cfg s.dec.r (s.dec.ctx.get c) b * 2 ^ k < 512 ∧
      exec (.decBin c) s = .next { s with
        dec := { s.dec with
          r := BitVec.ofNat 9 (partWidth s.cfg s.dec.r (s.dec.ctx.get c) b * 2 ^ k),
          code := BitVec.ofNat 9 ((s.dec.code.toNat -
            (if b = (s.dec.ctx.get c).mps then 0 else mpsWidth s.cfg s.dec.r (s.dec.ctx.get c))) * 2 ^ k +
            upcomingValue s.dec k),
          nres := BitVec.ofNat 4 (if k ≤ s.dec.nres.toNat then s.dec.nres.toNat - k else s.dec.nres.toNat + 8 - k),
          res := if k ≤ s.dec.nres.toNat then s.dec.res else inputByte s.dec s.dec.cur.toNat,
          cur := if k ≤ s.dec.nres.toNat then s.dec.cur else advanceCursor s.dec.cur,
          ctx := s.dec.ctx.put c (entryAfter s.cfg (s.dec.ctx.get c) b) },
        status := { s.status with err := .ok, bin := b, busy := false } }

/-- The faults of DEC_BIN, and DEC_BLOCK's NOT_READY, with rule R149's unit effects (rules R116, R147): NOT_READY changes
nothing in the unit; ZERO_WIDTH applies nothing of the bin and drops the stream. -/
def Obligations.DecBinFaults : Prop :=
  (∀ (s : State) (c : Fin 32), s.dec.active = false → exec (.decBin c) s = .next { s with
    status := { s.status with err := .notReady, fault := true, busy := false } }) ∧
  (∀ (s : State) (blk : BlkType) (comp : Component), s.dec.ready = false → exec (.decBlock blk comp) s = .next { s with
    status := { s.status with err := .notReady, fault := true, busy := false } }) ∧
  (∀ (s : State) (c : Fin 32), s.dec.active = true →
    lpsWidth s.cfg s.dec.r (s.dec.ctx.get c) = 0 ∨ mpsWidth s.cfg s.dec.r (s.dec.ctx.get c) = 0 →
    exec (.decBin c) s = .next { s with
      dec := { s.dec with ready := false, active := false },
      status := { s.status with err := .zeroWidth, fault := true, busy := false } })

/-- DEC_BLOCK on an accepted stream (rules R117, R147, R149): it completes, with the stream kept, no block open and a range
of 256..510 above the offset (COEF_OUT stands in `DecBlockEqualsItsBins`), or it raises STREAM_INVALID or LEVEL_RANGE, with
the stream dropped and COEF_OUT kept; in either case IN_BUF, IN_LEN, LEN, BIN and the encoder are unchanged. It raises
STREAM_INVALID exactly where the first nine bits after the marker skip are 510 or 511. -/
def Obligations.DecBlockResult : Prop :=
  ∀ (s : State) (blk : BlkType) (comp : Component), s.cfg.Legal → Inv s → s.dec.ready = true →
    ∃ t, exec (.decBlock blk comp) s = .next t ∧
      ((t.status.err = .ok ∧ 256 ≤ t.dec.r.toNat ∧ t.dec.r.toNat ≤ 510 ∧ t.dec.code.toNat < t.dec.r.toNat ∧
        t = { s with
          dec := { s.dec with
            r := t.dec.r, code := t.dec.code, res := t.dec.res, nres := t.dec.nres, cur := t.dec.cur, ctx := t.dec.ctx,
            coefOut := t.dec.coefOut, active := false },
          status := { s.status with err := .ok } }) ∨
      ((t.status.err = .streamInvalid ∨ t.status.err = .levelRange) ∧
        t = { s with
          dec := { s.dec with
            r := t.dec.r, code := t.dec.code, res := t.dec.res, nres := t.dec.nres, cur := t.dec.cur, ctx := t.dec.ctx,
            ready := false, active := false },
          status := { s.status with err := t.status.err, fault := true } })) ∧
      ∀ p, p = s.dec.cur.toNat +
          (if s.dec.cur.toNat < s.dec.len.toNat ∧ s.dec.inByteAt s.dec.cur.toNat = 0xFF then 1 else 0) →
        (t.status.err = .streamInvalid ↔
          510 ≤ (inputByte s.dec p).toNat * 2 + (inputByte s.dec (p + 1)).toNat / 128)

/-- Rule R150, the decoder: DEC_BLOCK completes exactly where DEC_START and one DEC_BIN for each bin of rule R130's syntax, with
that bin's context, return bins that spell a block; it is then equal in effect on its unit to those commands and the
reconstruction (rule R135) of the levels the bins spell, with the block closed, and it leaves BIN as it was. A position that
is not coded, a significant one after the terminal one among them, gets no level bins and the level 0 (rules R131, R132). -/
def Obligations.DecBlockEqualsItsBins : Prop :=
  ∀ (s t : State) (blk : BlkType) (comp : Component),
    (exec (.decBlock blk comp) s = .next t ∧ t.status.err = .ok) ↔
    (s.dec.ready = true ∧ ∃ (g : BlockSyntax) (v : State), (∀ i ∈ g.coded, g.LevelOk i) ∧ StartReads g.bins s v ∧
      t = { s with
        dec := { v.dec with coefOut := scatter (scan s.cfg blk) g.levels s.dec.coefOut, active := false },
        status := { s.status with err := .ok, busy := false } })

/-- Where DEC_BLOCK raises LEVEL_RANGE (rules R133, R134, R149): exactly where the bins after DEC_START are the flags of a block,
the levels of some of its coded positions in reverse order, each one that a coefficient can hold, and then, for the next
position, 2185 prefix ones or a level that no coefficient can hold. The unit is as at that bin, the stream dropped, COEF_OUT
kept. -/
def Obligations.DecBlockLevelRange : Prop :=
  ∀ (s t : State) (blk : BlkType) (comp : Component),
    (exec (.decBlock blk comp) s = .next t ∧ t.status.err = .levelRange) ↔
    (s.dec.ready = true ∧ ∃ (g : BlockSyntax) (done rest : List (Fin 16)) (i : Fin 16) (bins : List (Bool × Fin 32))
      (v : State), g.coded.reverse = done ++ i :: rest ∧ (∀ j ∈ done, g.LevelOk j) ∧
      (bins = List.replicate 2185 (true, prefixCtx i) ∨
        bins = g.levelBins [i] ∧ LevelFields (g.ones i) (g.suffix i) ∧ ¬ FitsCoef (g.level i)) ∧
      StartReads (g.flagBins ++ g.levelBins done ++ bins) s v ∧
      t = { s with
        dec := { v.dec with ready := false, active := false },
        status := { s.status with err := .levelRange, fault := true, busy := false } })

/-- DEC_BLOCK past the end of its stream, against a significance context whose most probable symbol is 0 (rules R109, R117,
R147): it completes with an all-zero grid, the offset 0, and no context but number 0 changed. -/
def Obligations.DecBlockPastEndIsZero : Prop :=
  ∀ (s : State) (blk : BlkType) (comp : Component), s.cfg.Legal → s.dec.ready = true →
    s.dec.len.toNat ≤ s.dec.cur.toNat → (s.dec.ctx.get 0).mps = false →
    ∃ t, exec (.decBlock blk comp) s = .next t ∧
      t = { s with
        dec := { s.dec with
          r := t.dec.r, code := 0, res := 0, nres := t.dec.nres, cur := t.dec.cur, ctx := t.dec.ctx,
          coefOut := Vector.replicate 16 0, active := false },
        status := { s.status with err := .ok, busy := false } } ∧
      (t.dec.ctx.get 0).mps = false ∧ ∀ c : Fin 32, c ≠ 0 → t.dec.ctx.get c = s.dec.ctx.get c

/-- One level (rules R133, R134): it decodes exactly where its bins are fewer than 2185 prefix ones, a 0, a suffix behind a one
and a sign, and the number they spell fits 16 bits; LEVEL_RANGE is raised exactly at the 2185th prefix one, and after the
bins of a level that does not fit. Representable levels (rule R137): a decoded level has magnitude 1 or at least 16, and
every entry of COEF_OUT after a DEC_BLOCK that completes is 0 or such a level. -/
def Obligations.DecodedLevels : Prop :=
  (∀ (cfg : Config) (i : Fin 16) (u v : DecUnit) (x : Int), decodeLevel cfg i u = .ok x v ↔
    ∃ ones suffix negative, LevelFields ones suffix ∧ x = levelValue ones suffix negative ∧ FitsCoef x ∧
      Reads cfg (levelSyntax i ones suffix negative) u v) ∧
  (∀ (cfg : Config) (i : Fin 16) (u v : DecUnit), decodeLevel cfg i u = .raised .levelRange v ↔
    Reads cfg (List.replicate 2185 (true, prefixCtx i)) u v ∨
    ∃ ones suffix negative, LevelFields ones suffix ∧ ¬ FitsCoef (levelValue ones suffix negative) ∧
      Reads cfg (levelSyntax i ones suffix negative) u v) ∧
  (∀ (cfg : Config) (i : Fin 16) (u v : DecUnit) (x : Int), decodeLevel cfg i u = .ok x v →
    x.natAbs = 1 ∨ 16 ≤ x.natAbs) ∧
  (∀ (s t : State) (blk : BlkType) (comp : Component), s.cfg.Legal → exec (.decBlock blk comp) s = .next t →
    t.status.err = .ok →
    ∀ p : Fin 16, (t.dec.coefOut.get p).toInt = 0 ∨ (t.dec.coefOut.get p).toInt.natAbs = 1 ∨
      16 ≤ (t.dec.coefOut.get p).toInt.natAbs)

/-- The coded positions (rules R130, R131): the significant ones up to and including the first whose last-position flag is 1;
all of them where no flag is 1; at least one if any is significant. -/
def Obligations.CodedPositions : Prop :=
  (∀ (cfg : Config) (is coded : List (Fin 16)) (u v : DecUnit), decodeLast cfg is u = .ok coded v →
    coded <+: is ∧ (is ≠ [] → coded ≠ [])) ∧
  (∀ (cfg : Config) (i : Fin 16) (rest : List (Fin 16)) (u v : DecUnit), decodeBin cfg (lastCtx i) u = .ok true v →
    decodeLast cfg (i :: rest) u = .ok [i] v) ∧
  (∀ (cfg : Config) (i : Fin 16) (rest coded : List (Fin 16)) (u v w : DecUnit),
    decodeBin cfg (lastCtx i) u = .ok false v → decodeLast cfg rest v = .ok coded w →
    decodeLast cfg (i :: rest) u = .ok (i :: coded) w)

/-- The reconstruction (rule R135): COEF_OUT at the raster position of scan index `i` holds the level decoded for `i`, for
every `i`, and so gives the scanned layout back; this rests on the scan orders being permutations (rule R10). -/
def Obligations.ReconstructionInvertsScan : Prop :=
  ∀ (cfg : Config) (blk : BlkType) (lev out : Coefs) (i : Fin 16), cfg.Legal →
    (scatter (scan cfg blk) lev out).get ((scan cfg blk).get i) = lev.get i ∧
    scanned cfg blk (scatter (scan cfg blk) lev out) i = (lev.get i).toInt

/-- Input coherence (rules R35, R67, R169): a byte that the cursor has passed is not read again, and IN_LEN is read by
DEC_LOAD alone: another value of either changes nothing else in what a decoding command does. -/
def Obligations.ConsumedInputIsNotReRead : Prop :=
  ∀ (s : State) (i : Instr), ((∃ c, i = .decBin c) ∨ i = .decStart ∨ ∃ blk comp, i = .decBlock blk comp) →
    (∀ (j : Nat) (x : Byte), j < s.dec.cur.toNat →
      after i { s with dec := { s.dec with inBuf := s.dec.inBuf.write j x } } =
        { after i s with dec := { (after i s).dec with inBuf := s.dec.inBuf.write j x } }) ∧
    (∀ n : BitVec 17, after i { s with dec := { s.dec with inLen := n } } =
      { after i s with dec := { (after i s).dec with inLen := n } })

/-! The two units and the whole machine. -/

/-- Rule R172: an encoder command reads and writes only the encoder's state and STATUS, a decoder command only the decoder's;
COEF_IN, IN_BUF and IN_LEN are only read; so the two commute on the units. -/
def Obligations.UnitIndependence : Prop :=
  (∀ (i : Instr) (s s' : State), isEncCommand i = true →
    (after i s).dec = s.dec ∧ (after i s).status.bin = s.status.bin ∧ (after i s).enc.coefIn = s.enc.coefIn ∧
    (s.cfg = s'.cfg → s.enc = s'.enc →
      (after i s).enc = (after i s').enc ∧ (after i s).status.err = (after i s').status.err)) ∧
  (∀ (i : Instr) (s s' : State), isDecCommand i = true →
    (after i s).enc = s.enc ∧ (after i s).dec.inBuf = s.dec.inBuf ∧ (after i s).dec.inLen = s.dec.inLen ∧
    (s.cfg = s'.cfg → s.dec = s'.dec →
      (after i s).dec = (after i s').dec ∧ (after i s).status.err = (after i s').status.err)) ∧
  (∀ (e d : Instr) (s : State), isEncCommand e = true → isDecCommand d = true →
    (after d (after e s)).enc = (after e (after d s)).enc ∧ (after d (after e s)).dec = (after e (after d s)).dec)

/-- Where commands store (rules R28, R62, R103): ENC_BIN and ENC_FINISH write OUT_BUF from the old OUT_LEN up to the new one,
ENC_BLOCK from index 0 up to the new one, no other command writes OUT_BUF, and none writes IN_BUF. Every other byte reads as
before, also when the command faults. -/
def Obligations.BufferFrame : Prop :=
  ∀ (s t : State) (i : Instr) (a : Nat), Inv s → exec i s = .next t →
    t.dec.inByteAt a = s.dec.inByteAt a ∧
    (match i with
      | .encBin _ _ | .encFinish =>
        a < s.enc.outLen.toNat ∨ t.enc.outLen.toNat ≤ a → t.enc.outByteAt a = s.enc.outByteAt a
      | .encBlock _ _ => t.enc.outLen.toNat ≤ a → t.enc.outByteAt a = s.enc.outByteAt a
      | .nop | .encCtxReset | .decCtxReset | .encStart | .decLoad | .decStart | .decBin _ | .decBlock _ _ =>
        t.enc.outByteAt a = s.enc.outByteAt a)

/-- The invariant holds at reset. -/
def Obligations.InvariantAtReset : Prop := Inv State.reset

/-- Every step keeps the invariant: the ranges and the low bound of an open session (rules R119 to R121), a held byte that
is never 0xFF (rule R122), the capacities (rules R26, R28, R103), the offset below the range (rule R120), an open block only
on an accepted stream of 2..IN_CAP bytes (rules R36, R146), the canonical form of both buffers, and STATUS (rules R41,
R152). -/
def Obligations.StepKeepsInvariant : Prop := ∀ s t : State, Inv s → step s = .next t → Inv t

/-- The bin-level round trip (rules R118, R123): the bins that a session encodes come back from a decoder that holds its
bytes from the cursor on, with equal contexts at the start, whatever stands after them; the contexts stay equal, and the
cursor moves past exactly those bytes. -/
def Obligations.BinLevelRoundTrip : Prop :=
  ∀ (s d : State) (bins : List (Bool × Fin 32)), s.cfg.Legal → Inv s → Inv d → d.cfg = s.cfg →
    (afterAll (encSession bins) s).status.err = .ok → d.dec.ready = true → d.dec.ctx = s.enc.ctx →
    d.dec.cur.toNat + (afterAll (encSession bins) s).enc.outLen.toNat ≤ d.dec.len.toNat →
    (∀ i < (afterAll (encSession bins) s).enc.outLen.toNat,
      d.dec.inByteAt (d.dec.cur.toNat + i) = (afterAll (encSession bins) s).enc.outByteAt i) →
    (after .decStart d).status.err = .ok ∧
    (decBins (bins.map Prod.snd) (after .decStart d)).1 = bins.map Prod.fst ∧
    (decBins (bins.map Prod.snd) (after .decStart d)).2.status.err = .ok ∧
    (decBins (bins.map Prod.snd) (after .decStart d)).2.dec.ctx = (afterAll (encSession bins) s).enc.ctx ∧
    (decBins (bins.map Prod.snd) (after .decStart d)).2.dec.cur.toNat =
      d.dec.cur.toNat + (afterAll (encSession bins) s).enc.outLen.toNat

/-- The block round trip (rules R137, R138): a DEC_BLOCK of the stream of an ENC_BLOCK with the same blk, from equal
contexts, gives each coefficient back exactly where its magnitude is 0, 1 or at least 16, and its sign where it is 2..15; the
contexts stay equal, and the cursor moves past exactly those bytes. -/
def Obligations.BlockRoundTrip : Prop :=
  ∀ (s e d : State) (blk : BlkType) (comp comp' : Component), s.cfg.Legal → Inv s → Inv d → d.cfg = s.cfg →
    exec (.encBlock blk comp) s = .next e → e.status.err = .ok → d.dec.ready = true → d.dec.ctx = s.enc.ctx →
    d.dec.cur.toNat + e.enc.outLen.toNat ≤ d.dec.len.toNat →
    (∀ i < e.enc.outLen.toNat, d.dec.inByteAt (d.dec.cur.toNat + i) = e.enc.outByteAt i) →
    ∃ t, exec (.decBlock blk comp') d = .next t ∧ t.status.err = .ok ∧ t.dec.ctx = e.enc.ctx ∧
      t.dec.cur.toNat = d.dec.cur.toNat + e.enc.outLen.toNat ∧
      ∀ p : Fin 16, (t.dec.coefOut.get p).toInt =
        if 2 ≤ (s.enc.coefIn.get p).toInt.natAbs ∧ (s.enc.coefIn.get p).toInt.natAbs ≤ 15 then
          (s.enc.coefIn.get p).toInt.sign
        else (s.enc.coefIn.get p).toInt
end

