-- ==== Sys2Proof/Laws/Binarizer.lean ====
section
/-! SUPPORT. How many bins the parts of a block have (rules R127, R128, R129). -/

namespace Sys2Proof.Machine

theorem sigBins_length (lev : Fin 16 → Int) : (sigBins lev).length = 16 := rfl

theorem significant_length (lev : Fin 16 → Int) : (significant lev).length ≤ 16 := List.length_filter_le _ _

theorem lastBins_length (is : List (Fin 16)) : (lastBins is).length = is.length := by
  induction is with
  | nil => rfl
  | cons i is ih =>
    cases is with
    | nil => rfl
    | cons j is =>
      simp only [lastBins, List.length_cons] at *
      omega

theorem levelBins_length (x : Int) (i : Fin 16) :
    (levelBins x i).length = (x.natAbs - 1) / 15 + 1 + (if 15 ≤ x.natAbs - 1 then 4 else 0) + 1 := by
  unfold levelBins
  simp only [List.length_append, List.length_replicate, List.length_cons, List.length_nil]
  by_cases h : 15 ≤ x.natAbs - 1
  · rw [if_pos h, if_pos (by omega)]
    simp [suffixBins]
  · rw [if_neg h, if_neg (by omega)]
    simp

/-- A 16-bit coefficient has magnitude at most 32768 (rule R30). -/
theorem scanned_natAbs_le (cfg : Config) (blk : BlkType) (coefs : Coefs) (i : Fin 16) :
    (scanned cfg blk coefs i).natAbs ≤ 32768 := by
  unfold scanned
  have := BitVec.toInt_lt (x := coefs.get ((scan cfg blk).get i))
  have := BitVec.le_toInt (x := coefs.get ((scan cfg blk).get i))
  omega

end Sys2Proof.Machine
end

