-- ==== Sys2Proof/Laws/State.lean ====
section
/-! SUPPORT. One lemma per field per update: what each update of a unit, of STATUS or of the state leaves in each field. -/

namespace Sys2Proof.Machine

@[simp] theorem EncUnit.outByte_r (v : Byte) (u : EncUnit) : (u.outByte v).r = u.r := rfl
@[simp] theorem EncUnit.outByte_l (v : Byte) (u : EncUnit) : (u.outByte v).l = u.l := rfl
@[simp] theorem EncUnit.outByte_cnt (v : Byte) (u : EncUnit) : (u.outByte v).cnt = u.cnt := rfl
@[simp] theorem EncUnit.outByte_pendValid (v : Byte) (u : EncUnit) : (u.outByte v).pendValid = u.pendValid := rfl
@[simp] theorem EncUnit.outByte_pend (v : Byte) (u : EncUnit) : (u.outByte v).pend = u.pend := rfl
@[simp] theorem EncUnit.outByte_ffRun (v : Byte) (u : EncUnit) : (u.outByte v).ffRun = u.ffRun := rfl
@[simp] theorem EncUnit.outByte_active (v : Byte) (u : EncUnit) : (u.outByte v).active = u.active := rfl
@[simp] theorem EncUnit.outByte_outLen (v : Byte) (u : EncUnit) : (u.outByte v).outLen = u.outLen + 1 := rfl
@[simp] theorem EncUnit.outByte_outBuf (v : Byte) (u : EncUnit) : (u.outByte v).outBuf = u.outBuf.write u.outLen.toNat v := rfl
@[simp] theorem EncUnit.outByte_outDraw (v : Byte) (u : EncUnit) : (u.outByte v).outDraw = u.outDraw := rfl
@[simp] theorem EncUnit.outByte_ctx (v : Byte) (u : EncUnit) : (u.outByte v).ctx = u.ctx := rfl
@[simp] theorem EncUnit.outByte_coefIn (v : Byte) (u : EncUnit) : (u.outByte v).coefIn = u.coefIn := rfl

@[simp] theorem EncUnit.hold_r (b : Byte) (u : EncUnit) : (u.hold b).r = u.r := rfl
@[simp] theorem EncUnit.hold_l (b : Byte) (u : EncUnit) : (u.hold b).l = u.l := rfl
@[simp] theorem EncUnit.hold_cnt (b : Byte) (u : EncUnit) : (u.hold b).cnt = u.cnt := rfl
@[simp] theorem EncUnit.hold_pendValid (b : Byte) (u : EncUnit) : (u.hold b).pendValid = true := rfl
@[simp] theorem EncUnit.hold_pend (b : Byte) (u : EncUnit) : (u.hold b).pend = b := rfl
@[simp] theorem EncUnit.hold_ffRun (b : Byte) (u : EncUnit) : (u.hold b).ffRun = 0 := rfl
@[simp] theorem EncUnit.hold_active (b : Byte) (u : EncUnit) : (u.hold b).active = u.active := rfl
@[simp] theorem EncUnit.hold_outLen (b : Byte) (u : EncUnit) : (u.hold b).outLen = u.outLen := rfl
@[simp] theorem EncUnit.hold_outBuf (b : Byte) (u : EncUnit) : (u.hold b).outBuf = u.outBuf := rfl
@[simp] theorem EncUnit.hold_outDraw (b : Byte) (u : EncUnit) : (u.hold b).outDraw = u.outDraw := rfl
@[simp] theorem EncUnit.hold_ctx (b : Byte) (u : EncUnit) : (u.hold b).ctx = u.ctx := rfl
@[simp] theorem EncUnit.hold_coefIn (b : Byte) (u : EncUnit) : (u.hold b).coefIn = u.coefIn := rfl

@[simp] theorem EncUnit.started_r (u : EncUnit) : (u.started).r = 510 := rfl
@[simp] theorem EncUnit.started_l (u : EncUnit) : (u.started).l = 0 := rfl
@[simp] theorem EncUnit.started_cnt (u : EncUnit) : (u.started).cnt = 8 := rfl
@[simp] theorem EncUnit.started_pendValid (u : EncUnit) : (u.started).pendValid = false := rfl
@[simp] theorem EncUnit.started_pend (u : EncUnit) : (u.started).pend = 0 := rfl
@[simp] theorem EncUnit.started_ffRun (u : EncUnit) : (u.started).ffRun = 0 := rfl
@[simp] theorem EncUnit.started_active (u : EncUnit) : (u.started).active = true := rfl
@[simp] theorem EncUnit.started_outLen (u : EncUnit) : (u.started).outLen = 0 := rfl
@[simp] theorem EncUnit.started_outBuf (u : EncUnit) : (u.started).outBuf = u.outBuf := rfl
@[simp] theorem EncUnit.started_outDraw (u : EncUnit) : (u.started).outDraw = u.outDraw := rfl
@[simp] theorem EncUnit.started_ctx (u : EncUnit) : (u.started).ctx = u.ctx := rfl
@[simp] theorem EncUnit.started_coefIn (u : EncUnit) : (u.started).coefIn = u.coefIn := rfl

@[simp] theorem EncUnit.closed_r (u : EncUnit) : (u.closed).r = u.r := rfl
@[simp] theorem EncUnit.closed_l (u : EncUnit) : (u.closed).l = u.l := rfl
@[simp] theorem EncUnit.closed_cnt (u : EncUnit) : (u.closed).cnt = u.cnt := rfl
@[simp] theorem EncUnit.closed_pendValid (u : EncUnit) : (u.closed).pendValid = u.pendValid := rfl
@[simp] theorem EncUnit.closed_pend (u : EncUnit) : (u.closed).pend = u.pend := rfl
@[simp] theorem EncUnit.closed_ffRun (u : EncUnit) : (u.closed).ffRun = u.ffRun := rfl
@[simp] theorem EncUnit.closed_active (u : EncUnit) : (u.closed).active = false := rfl
@[simp] theorem EncUnit.closed_outLen (u : EncUnit) : (u.closed).outLen = u.outLen := rfl
@[simp] theorem EncUnit.closed_outBuf (u : EncUnit) : (u.closed).outBuf = u.outBuf := rfl
@[simp] theorem EncUnit.closed_outDraw (u : EncUnit) : (u.closed).outDraw = u.outDraw := rfl
@[simp] theorem EncUnit.closed_ctx (u : EncUnit) : (u.closed).ctx = u.ctx := rfl
@[simp] theorem EncUnit.closed_coefIn (u : EncUnit) : (u.closed).coefIn = u.coefIn := rfl

@[simp] theorem DecUnit.failed_r (u : DecUnit) : (u.failed).r = u.r := rfl
@[simp] theorem DecUnit.failed_code (u : DecUnit) : (u.failed).code = u.code := rfl
@[simp] theorem DecUnit.failed_res (u : DecUnit) : (u.failed).res = u.res := rfl
@[simp] theorem DecUnit.failed_nres (u : DecUnit) : (u.failed).nres = u.nres := rfl
@[simp] theorem DecUnit.failed_cur (u : DecUnit) : (u.failed).cur = u.cur := rfl
@[simp] theorem DecUnit.failed_len (u : DecUnit) : (u.failed).len = u.len := rfl
@[simp] theorem DecUnit.failed_ready (u : DecUnit) : (u.failed).ready = false := rfl
@[simp] theorem DecUnit.failed_active (u : DecUnit) : (u.failed).active = false := rfl
@[simp] theorem DecUnit.failed_inBuf (u : DecUnit) : (u.failed).inBuf = u.inBuf := rfl
@[simp] theorem DecUnit.failed_inDraw (u : DecUnit) : (u.failed).inDraw = u.inDraw := rfl
@[simp] theorem DecUnit.failed_inLen (u : DecUnit) : (u.failed).inLen = u.inLen := rfl
@[simp] theorem DecUnit.failed_ctx (u : DecUnit) : (u.failed).ctx = u.ctx := rfl
@[simp] theorem DecUnit.failed_coefOut (u : DecUnit) : (u.failed).coefOut = u.coefOut := rfl

@[simp] theorem DecUnit.inByte_snd_r (u : DecUnit) : (u.inByte.2).r = u.r := rfl
@[simp] theorem DecUnit.inByte_snd_code (u : DecUnit) : (u.inByte.2).code = u.code := rfl
@[simp] theorem DecUnit.inByte_snd_res (u : DecUnit) : (u.inByte.2).res = u.res := rfl
@[simp] theorem DecUnit.inByte_snd_nres (u : DecUnit) : (u.inByte.2).nres = u.nres := rfl
@[simp] theorem DecUnit.inByte_snd_cur (u : DecUnit) : (u.inByte.2).cur = advanceCursor u.cur := rfl
@[simp] theorem DecUnit.inByte_snd_len (u : DecUnit) : (u.inByte.2).len = u.len := rfl
@[simp] theorem DecUnit.inByte_snd_ready (u : DecUnit) : (u.inByte.2).ready = u.ready := rfl
@[simp] theorem DecUnit.inByte_snd_active (u : DecUnit) : (u.inByte.2).active = u.active := rfl
@[simp] theorem DecUnit.inByte_snd_inBuf (u : DecUnit) : (u.inByte.2).inBuf = u.inBuf := rfl
@[simp] theorem DecUnit.inByte_snd_inDraw (u : DecUnit) : (u.inByte.2).inDraw = u.inDraw := rfl
@[simp] theorem DecUnit.inByte_snd_inLen (u : DecUnit) : (u.inByte.2).inLen = u.inLen := rfl
@[simp] theorem DecUnit.inByte_snd_ctx (u : DecUnit) : (u.inByte.2).ctx = u.ctx := rfl
@[simp] theorem DecUnit.inByte_snd_coefOut (u : DecUnit) : (u.inByte.2).coefOut = u.coefOut := rfl

@[simp] theorem complete_cfg (u : State) : (complete u).cfg = u.cfg := rfl
@[simp] theorem complete_enc (u : State) : (complete u).enc = u.enc := rfl
@[simp] theorem complete_dec (u : State) : (complete u).dec = u.dec := rfl
@[simp] theorem complete_status (u : State) : (complete u).status = u.status.completed := rfl
@[simp] theorem complete_pending (u : State) : (complete u).pending = u.pending := rfl
@[simp] theorem complete_rdata (u : State) : (complete u).rdata = u.rdata := rfl

@[simp] theorem raiseFault_cfg (e : ErrCode) (u : State) : (raiseFault e u).cfg = u.cfg := rfl
@[simp] theorem raiseFault_enc (e : ErrCode) (u : State) : (raiseFault e u).enc = u.enc := rfl
@[simp] theorem raiseFault_dec (e : ErrCode) (u : State) : (raiseFault e u).dec = u.dec := rfl
@[simp] theorem raiseFault_status (e : ErrCode) (u : State) : (raiseFault e u).status = u.status.raised e := rfl
@[simp] theorem raiseFault_pending (e : ErrCode) (u : State) : (raiseFault e u).pending = u.pending := rfl
@[simp] theorem raiseFault_rdata (e : ErrCode) (u : State) : (raiseFault e u).rdata = u.rdata := rfl

@[simp] theorem State.taken_cfg (h : List HostEvent) (u : State) : (u.taken h).cfg = u.cfg := rfl
@[simp] theorem State.taken_enc (h : List HostEvent) (u : State) : (u.taken h).enc = u.enc := rfl
@[simp] theorem State.taken_dec (h : List HostEvent) (u : State) : (u.taken h).dec = u.dec := rfl
@[simp] theorem State.taken_status (h : List HostEvent) (u : State) : (u.taken h).status = u.status := rfl
@[simp] theorem State.taken_pending (h : List HostEvent) (u : State) : (u.taken h).pending = h := rfl
@[simp] theorem State.taken_rdata (h : List HostEvent) (u : State) : (u.taken h).rdata = none := rfl

@[simp] theorem State.busRead_cfg (r : Reg) (u : State) : (u.busRead r).cfg = u.cfg := rfl
@[simp] theorem State.busRead_enc (r : Reg) (u : State) : (u.busRead r).enc = u.enc := rfl
@[simp] theorem State.busRead_dec (r : Reg) (u : State) : (u.busRead r).dec = u.dec := rfl
@[simp] theorem State.busRead_status (r : Reg) (u : State) : (u.busRead r).status = u.status := rfl
@[simp] theorem State.busRead_pending (r : Reg) (u : State) : (u.busRead r).pending = u.pending := rfl
@[simp] theorem State.busRead_rdata (r : Reg) (u : State) : (u.busRead r).rdata = some (u.readReg r) := rfl

@[simp] theorem Status.completed_busy (u : Status) : (u.completed).busy = false := rfl
@[simp] theorem Status.completed_bin (u : Status) : (u.completed).bin = u.bin := rfl
@[simp] theorem Status.completed_fault (u : Status) : (u.completed).fault = u.fault := rfl
@[simp] theorem Status.completed_err (u : Status) : (u.completed).err = .ok := rfl

@[simp] theorem Status.raised_busy (e : ErrCode) (u : Status) : (u.raised e).busy = false := rfl
@[simp] theorem Status.raised_bin (e : ErrCode) (u : Status) : (u.raised e).bin = u.bin := rfl
@[simp] theorem Status.raised_fault (e : ErrCode) (u : Status) : (u.raised e).fault = true := rfl
@[simp] theorem Status.raised_err (e : ErrCode) (u : Status) : (u.raised e).err = e := rfl

@[simp] theorem Status.withBin_busy (b : Bool) (u : Status) : (u.withBin b).busy = u.busy := rfl
@[simp] theorem Status.withBin_bin (b : Bool) (u : Status) : (u.withBin b).bin = b := rfl
@[simp] theorem Status.withBin_fault (b : Bool) (u : Status) : (u.withBin b).fault = u.fault := rfl
@[simp] theorem Status.withBin_err (b : Bool) (u : Status) : (u.withBin b).err = u.err := rfl

/-! Context tables. -/

theorem get_set_self {α : Type} {n : Nat} (t : Vector α n) (i : Fin n) (x : α) : (t.set i x).get i = x := by
  simp [Vector.get_eq_getElem]

theorem get_set_ne {α : Type} {n : Nat} (t : Vector α n) (i k : Fin n) (x : α) (h : k ≠ i) : (t.set i x).get k = t.get k := by
  have : i.val ≠ k.val := fun e => h (Fin.ext e.symm)
  simp [Vector.get_eq_getElem, this]

@[simp] theorem CtxTable.get_put_self (t : CtxTable) (c : Fin 32) (e : Ctx) : (t.put c e).get c = e := by
  simp [CtxTable.put, Vector.get_eq_getElem]

theorem CtxTable.get_put_ne (t : CtxTable) (c d : Fin 32) (e : Ctx) (h : d ≠ c) : (t.put c e).get d = t.get d := by
  have h' : c.val ≠ d.val := fun x => h (Fin.ext x.symm)
  simp [CtxTable.put, Vector.get_eq_getElem, h']

@[simp] theorem CtxTable.get_init (c : Fin 32) : CtxTable.init.get c = Ctx.init := by
  simp [CtxTable.init, Vector.get_eq_getElem]

@[simp] theorem Coefs.get_zero (p : Fin 16) : Coefs.zero.get p = 0 := by
  simp [Coefs.zero, Vector.get_eq_getElem]

end Sys2Proof.Machine
end

