-- ==== Sys2Proof/Laws/Memory.lean ====
section
/-! SUPPORT. The buffers: a read after a write, that a write keeps the canonical form, and the same for the byte operations
of the encoder (rules R103, R45). -/

namespace Sys2Proof.Machine

theorem Memory.read?_write_self (m : Memory) (a : Nat) (v : Byte) : (m.write a v).read? a = some v := by
  induction m with
  | nil => simp [Memory.write, Memory.read?]
  | cons e m ih =>
    obtain ⟨k, w⟩ := e
    by_cases h₁ : a < k
    · simp [Memory.write, Memory.read?, h₁]
    · by_cases h₂ : a = k
      · simp [Memory.write, Memory.read?, h₂]
      · simp [Memory.write, Memory.read?, h₁, h₂, ih]

theorem Memory.read?_write_ne (m : Memory) (a b : Nat) (v : Byte) (h : b ≠ a) :
    (m.write a v).read? b = m.read? b := by
  induction m with
  | nil => simp [Memory.write, Memory.read?, h]
  | cons e m ih =>
    obtain ⟨k, w⟩ := e
    by_cases h₁ : a < k
    · simp [Memory.write, Memory.read?, h₁, h]
    · by_cases h₂ : a = k
      · subst h₂
        simp [Memory.write, Memory.read?, h]
      · simp [Memory.write, Memory.read?, h₁, h₂, ih]

/-- What a write can add to a buffer's entries. -/
theorem Memory.mem_write (m : Memory) (a : Nat) (v : Byte) (e : Host.Cell) (h : e ∈ m.write a v) :
    e = (a, v) ∨ e ∈ m := by
  induction m with
  | nil => simpa [Memory.write] using h
  | cons x m ih =>
    obtain ⟨k, w⟩ := x
    simp only [Memory.write] at h
    split at h
    · simpa using h
    · split at h
      · simp only [List.mem_cons] at h ⊢
        tauto
      · simp only [List.mem_cons] at h ⊢
        tauto

theorem Memory.write_wf (m : Memory) (a : Nat) (v : Byte) (h : m.wf) : (m.write a v).wf := by
  induction m with
  | nil => simp [Memory.write]
  | cons x m ih =>
    obtain ⟨k, w⟩ := x
    obtain ⟨hk, hm⟩ := List.pairwise_cons.1 h
    simp only [Memory.write]
    split
    · rename_i hlt
      refine List.pairwise_cons.2 ⟨fun e he => ?_, h⟩
      rcases List.mem_cons.1 he with rfl | he
      · exact hlt
      · exact Nat.lt_trans hlt (hk e he)
    · split
      · rename_i heq
        subst heq
        exact List.pairwise_cons.2 ⟨hk, hm⟩
      · rename_i h₁ h₂
        refine List.pairwise_cons.2 ⟨fun e he => ?_, ih hm⟩
        rcases Memory.mem_write m a v e he with rfl | he
        · simp only
          omega
        · exact hk e he

/-- A write below a bound keeps every index below it. -/
theorem Memory.write_bound (m : Memory) (a : Nat) (v : Byte) (n : Nat) (ha : a < n) (h : ∀ e ∈ m, e.1 < n) :
    ∀ e ∈ m.write a v, e.1 < n := by
  intro e he
  rcases Memory.mem_write m a v e he with rfl | he
  · exact ha
  · exact h e he

/-! The encoder's byte operations. -/

theorem EncUnit.outByteAt_outByte (u : EncUnit) (v : Byte) (i : Nat) :
    (u.outByte v).outByteAt i = if i = u.outLen.toNat then v else u.outByteAt i := by
  by_cases h : i = u.outLen.toNat
  · subst h
    simp [EncUnit.outByteAt, EncUnit.outByte, Memory.read?_write_self]
  · simp [EncUnit.outByteAt, EncUnit.outByte, Memory.read?_write_ne _ _ _ _ h, h]

/-- OutByte repeated changes OUT_LEN and OUT_BUF alone. -/
theorem EncUnit.outRun_eq (v : Byte) (n : Nat) (u : EncUnit) :
    u.outRun v n = { u with outLen := (u.outRun v n).outLen, outBuf := (u.outRun v n).outBuf } := by
  induction n generalizing u with
  | zero => rfl
  | succ n ih =>
    simp only [EncUnit.outRun]
    rw [ih (u.outByte v)]
    rfl

/-- Where OUT_LEN stays inside its 17 bits, OutByte repeated n times counts n bytes. -/
theorem EncUnit.outRun_outLen (v : Byte) (n : Nat) (u : EncUnit) (h : u.outLen.toNat + n < 2 ^ 17) :
    (u.outRun v n).outLen.toNat = u.outLen.toNat + n := by
  induction n generalizing u with
  | zero => rfl
  | succ n ih =>
    have h₁ : (u.outByte v).outLen.toNat = u.outLen.toNat + 1 := by
      simp only [EncUnit.outByte_outLen, BitVec.toNat_add]
      have : (1 : BitVec 17).toNat = 1 := rfl
      omega
    simp only [EncUnit.outRun]
    rw [ih _ (by omega), h₁]
    omega

/-- The bytes of OUT_BUF after OutByte repeated n times. -/
theorem EncUnit.outByteAt_outRun (v : Byte) (n : Nat) (u : EncUnit) (h : u.outLen.toNat + n < 2 ^ 17) (i : Nat) :
    (u.outRun v n).outByteAt i =
      if u.outLen.toNat ≤ i ∧ i < u.outLen.toNat + n then v else u.outByteAt i := by
  induction n generalizing u with
  | zero =>
    have : ¬(u.outLen.toNat ≤ i ∧ i < u.outLen.toNat + 0) := by omega
    simp only [EncUnit.outRun, if_neg this]
  | succ n ih =>
    have h₁ : (u.outByte v).outLen.toNat = u.outLen.toNat + 1 := by
      simp only [EncUnit.outByte_outLen, BitVec.toNat_add]
      have : (1 : BitVec 17).toNat = 1 := rfl
      omega
    simp only [EncUnit.outRun]
    rw [ih _ (by omega), h₁, EncUnit.outByteAt_outByte]
    by_cases h₂ : u.outLen.toNat + 1 ≤ i ∧ i < u.outLen.toNat + 1 + n
    · rw [if_pos h₂, if_pos (by omega)]
    · rw [if_neg h₂]
      by_cases h₃ : i = u.outLen.toNat
      · rw [if_pos h₃, if_pos (by omega)]
      · rw [if_neg h₃, if_neg (by omega)]

/-- OutByte repeated keeps OUT_BUF in its canonical form. -/
theorem EncUnit.outRun_wf (v : Byte) (n : Nat) (u : EncUnit) (h : u.outBuf.wf) : (u.outRun v n).outBuf.wf := by
  induction n generalizing u with
  | zero => exact h
  | succ n ih => exact ih _ (Memory.write_wf _ _ _ h)

/-- OutByte repeated keeps OUT_BUF inside a bound that the bytes written stay below. -/
theorem EncUnit.outRun_bound (v : Byte) (n m : Nat) (u : EncUnit) (hm : u.outLen.toNat + n ≤ m) (hm' : m ≤ 65536)
    (h : ∀ e ∈ u.outBuf, e.1 < m) : ∀ e ∈ (u.outRun v n).outBuf, e.1 < m := by
  induction n generalizing u with
  | zero => exact h
  | succ n ih =>
    have h₁ : (u.outByte v).outLen.toNat = u.outLen.toNat + 1 := by
      simp only [EncUnit.outByte_outLen, BitVec.toNat_add]
      have : (1 : BitVec 17).toNat = 1 := rfl
      omega
    exact ih _ (by omega) (Memory.write_bound _ _ _ _ (by omega) h)

/-- The reset buffers hold nothing, in canonical form (rule R45). -/
theorem reset_buffers_wf : State.reset.enc.outBuf.wf ∧ State.reset.dec.inBuf.wf :=
  ⟨List.Pairwise.nil, List.Pairwise.nil⟩

end Sys2Proof.Machine
end

