-- ==== Sys2Proof/Laws/Ops.lean ====
section
/-! SUPPORT. What each shared operation can do: sequencing, the width split, the context updates, the ends of commands. -/

namespace Sys2Proof.Machine

/-! Sequencing (rule R152). -/

@[simp] theorem Res.bind_ok {σ α β : Type} (a : α) (u : σ) (f : α → σ → Res σ β) :
    (Res.ok a u : Res σ α).bind f = f a u := rfl

@[simp] theorem Res.bind_raised {σ α β : Type} (e : ErrCode) (u : σ) (f : α → σ → Res σ β) :
    (Res.raised e u : Res σ α).bind f = .raised e u := rfl

theorem Res.bind_eq_ok {σ α β : Type} {x : Res σ α} {f : α → σ → Res σ β} {b : β} {v : σ} :
    x.bind f = .ok b v ↔ ∃ a u, x = .ok a u ∧ f a u = .ok b v := by
  cases x <;> simp

theorem Res.bind_eq_raised {σ α β : Type} {x : Res σ α} {f : α → σ → Res σ β} {e : ErrCode} {v : σ} :
    x.bind f = .raised e v ↔ x = .raised e v ∨ ∃ a u, x = .ok a u ∧ f a u = .raised e v := by
  cases x <;> simp

theorem Res.bind_assoc {σ α β γ : Type} (x : Res σ α) (f : α → σ → Res σ β) (g : β → σ → Res σ γ) :
    (x.bind f).bind g = x.bind fun a u => (f a u).bind g := by
  cases x <;> rfl

/-- What holds of the unit however the procedure ended. -/
def Res.All {σ α : Type} (p : σ → Prop) : Res σ α → Prop
  | .ok _ u => p u
  | .raised _ u => p u

theorem Res.All.bind {σ α β : Type} {p q : σ → Prop} {x : Res σ α} {f : α → σ → Res σ β} (hx : x.All p)
    (hf : ∀ a u, p u → (f a u).All q) (hp : ∀ u, p u → q u) : (x.bind f).All q := by
  cases x with
  | ok a u => exact hf a u hx
  | raised e u => exact hp u hx

/-- The procedure went through to a unit with `p`, or raised an error and left a unit with `q`. -/
def Res.Sat {σ α : Type} (p : σ → Prop) (q : ErrCode → σ → Prop) : Res σ α → Prop
  | .ok _ u => p u
  | .raised e u => q e u

theorem Res.Sat.bind {σ α β : Type} {p p' : σ → Prop} {q : ErrCode → σ → Prop} {x : Res σ α} {f : α → σ → Res σ β}
    (hx : x.Sat p q) (hf : ∀ a u, p u → (f a u).Sat p' q) : (x.bind f).Sat p' q := by
  cases x with
  | ok a u => exact hf a u hx
  | raised e u => exact hx

/-! Widths (rules R10, R93). -/

/-- A split that does not raise ZERO_WIDTH gives two non-empty parts of the range. -/
theorem widths_some {cfg : Config} {r : BitVec 9} {st : BitVec 4} {lps mps : Nat} (h : widths cfg r st = some (lps, mps)) :
    lps = r.toNat * (cfg.lpsScale.get st.toFin).toNat / 65536 ∧ lps + mps = r.toNat ∧ 1 ≤ lps ∧ 1 ≤ mps := by
  simp only [widths, Nat.shiftRight_eq_div_pow] at h
  split at h
  · simp at h
  · simp only [Option.some.injEq, Prod.mk.injEq] at h
    omega

/-- Under rule R10's constraint on the scale table no range of at least 256 splits into an empty part. -/
theorem widths_legal {cfg : Config} {r : BitVec 9} {st : BitVec 4} (hc : 256 ≤ (cfg.lpsScale.get st.toFin).toNat)
    (hr : 256 ≤ r.toNat) :
    widths cfg r st = some (r.toNat * (cfg.lpsScale.get st.toFin).toNat / 65536,
      r.toNat - r.toNat * (cfg.lpsScale.get st.toFin).toNat / 65536) := by
  have hs := (cfg.lpsScale.get st.toFin).isLt
  unfold widths
  simp only [Nat.shiftRight_eq_div_pow]
  generalize (cfg.lpsScale.get st.toFin).toNat = s at *
  have h₁ : 256 * 256 ≤ r.toNat * s := Nat.mul_le_mul hr hc
  have h₂ : r.toNat * s ≤ r.toNat * 65535 := Nat.mul_le_mul_left _ (by omega)
  rw [if_neg (by omega)]

theorem widths_eq_lpsWidth {cfg : Config} {r : BitVec 9} {e : Ctx} (hc : 256 ≤ (cfg.lpsScale.get e.state.toFin).toNat)
    (hr : 256 ≤ r.toNat) :
    widths cfg r e.state = some (Safety.lpsWidth cfg r e, Safety.mpsWidth cfg r e) := widths_legal hc hr

/-- Every range of 1..511 has a number of doublings that brings it to 256..511 (rules R100, R113). -/
theorem exists_doublings (r : Nat) (h₁ : 1 ≤ r) (h₂ : r < 512) : ∃ k ≤ 8, 256 ≤ r * 2 ^ k ∧ r * 2 ^ k < 512 := by
  by_cases h : 256 ≤ r
  · exact ⟨0, by omega, by omega, by omega⟩
  by_cases h : 128 ≤ r
  · exact ⟨1, by omega, by omega, by omega⟩
  by_cases h : 64 ≤ r
  · exact ⟨2, by omega, by omega, by omega⟩
  by_cases h : 32 ≤ r
  · exact ⟨3, by omega, by omega, by omega⟩
  by_cases h : 16 ≤ r
  · exact ⟨4, by omega, by omega, by omega⟩
  by_cases h : 8 ≤ r
  · exact ⟨5, by omega, by omega, by omega⟩
  by_cases h : 4 ≤ r
  · exact ⟨6, by omega, by omega, by omega⟩
  by_cases h : 2 ≤ r
  · exact ⟨7, by omega, by omega, by omega⟩
  exact ⟨8, by omega, by omega, by omega⟩

/-- That number is one. -/
theorem doublings_unique {r k j : Nat} (h₁ : 256 ≤ r * 2 ^ k) (h₂ : r * 2 ^ k < 512) (h₃ : 256 ≤ r * 2 ^ j)
    (h₄ : r * 2 ^ j < 512) : k = j := by
  have key : ∀ k m, 256 ≤ r * 2 ^ k → r * 2 ^ (k + 1 + m) < 512 → False := by
    intro k m h1 h2
    have := Nat.mul_le_mul_left (r * 2 ^ k * 2) (Nat.one_le_two_pow (n := m))
    rw [Nat.pow_add, Nat.pow_succ, ← Nat.mul_assoc, ← Nat.mul_assoc] at h2
    omega
  rcases Nat.lt_trichotomy k j with h | h | h
  · obtain ⟨m, rfl⟩ : ∃ m, j = k + 1 + m := ⟨j - k - 1, by omega⟩
    exact (key k m h₁ h₄).elim
  · exact h
  · obtain ⟨m, rfl⟩ : ∃ m, k = j + 1 + m := ⟨k - j - 1, by omega⟩
    exact (key j m h₃ h₂).elim

/-- `doublings` computes it. -/
theorem doublings_spec (r : Nat) (h₁ : 1 ≤ r) (h₂ : r < 512) :
    256 ≤ r * 2 ^ Safety.doublings r ∧ r * 2 ^ Safety.doublings r < 512 := by
  have h0 : r ≠ 0 := by omega
  have hlo := Nat.log2_self_le h0
  have hhi : r < 2 ^ (r.log2 + 1) := Nat.lt_log2_self
  have h8 : r.log2 ≤ 8 := by
    have : r.log2 < 9 := (Nat.log2_lt h0).2 (by omega)
    omega
  unfold Safety.doublings
  have hp : 2 ^ r.log2 * 2 ^ (8 - r.log2) = 256 := by
    rw [← Nat.pow_add, show r.log2 + (8 - r.log2) = 8 by omega]
  have hp' : 2 ^ (r.log2 + 1) * 2 ^ (8 - r.log2) = 512 := by
    rw [← Nat.pow_add, show r.log2 + 1 + (8 - r.log2) = 9 by omega]
  constructor
  · rw [← hp]
    exact Nat.mul_le_mul_right _ hlo
  · rw [← hp']
    exact Nat.mul_lt_mul_of_pos_right hhi (Nat.two_pow_pos _)

/-! The ends of commands (rules R149, R152, R153). -/

@[simp] theorem endEnc_ok (s : State) (u : EncUnit) : endEnc s (.ok () u) = complete { s with enc := u } := rfl

@[simp] theorem endEnc_raised (s : State) (e : ErrCode) (u : EncUnit) :
    endEnc s (.raised e u) = raiseFault e { s with enc := u.closed } := rfl

@[simp] theorem endDec_ok (s : State) (u : DecUnit) : endDec s (.ok () u) = complete { s with dec := u } := rfl

@[simp] theorem endDec_raised (s : State) (e : ErrCode) (u : DecUnit) :
    endDec s (.raised e u) = raiseFault e { s with dec := u.failed } := rfl

/-- An encoder command ends with its unit as the procedure left it, ENC.ACTIVE cleared on a fault, and nothing else but
ERR, FAULT and BUSY changed. -/
theorem endEnc_cases (s : State) (x : Res EncUnit Unit) :
    (∃ u, x = .ok () u ∧ endEnc s x = { s with enc := u, status := s.status.completed }) ∨
    (∃ e u, x = .raised e u ∧ endEnc s x = { s with enc := u.closed, status := s.status.raised e }) := by
  cases x with
  | ok a u => exact .inl ⟨u, rfl, rfl⟩
  | raised e u => exact .inr ⟨e, u, rfl, rfl⟩

/-- A decoder command ends with its unit as the procedure left it, READY and ACTIVE cleared on a fault, and nothing else
but ERR, FAULT and BUSY changed. -/
theorem endDec_cases (s : State) (x : Res DecUnit Unit) :
    (∃ u, x = .ok () u ∧ endDec s x = { s with dec := u, status := s.status.completed }) ∨
    (∃ e u, x = .raised e u ∧ endDec s x = { s with dec := u.failed, status := s.status.raised e }) := by
  cases x with
  | ok a u => exact .inl ⟨u, rfl, rfl⟩
  | raised e u => exact .inr ⟨e, u, rfl, rfl⟩

/-! Commands. -/

/-- Every command answers a next state (rules R80, R152, R153). -/
theorem exec_next (i : Instr) (s : State) : exec i s = .next (Safety.after i s) := by
  cases i <;> rfl

/-- The state after each command, for a proof to rewrite with. -/
theorem after_nop (s : State) : Safety.after .nop s = complete s := rfl

theorem after_encCtxReset (s : State) :
    Safety.after .encCtxReset s = complete { s with enc := { s.enc with ctx := CtxTable.init } } := rfl

theorem after_decCtxReset (s : State) :
    Safety.after .decCtxReset s = complete { s with dec := { s.dec with ctx := CtxTable.init } } := rfl

theorem after_encStart (s : State) : Safety.after .encStart s = complete { s with enc := s.enc.started } := rfl

theorem after_encBin (c : Fin 32) (b : Bool) (s : State) :
    Safety.after (.encBin c b) s =
      if s.enc.active then endEnc s (encodeBin s.cfg b c s.enc) else raiseFault .notStarted s := rfl

theorem after_encFinish (s : State) :
    Safety.after .encFinish s =
      if s.enc.active then endEnc s ((terminate s.cfg s.enc).bind fun _ u => .ok () u.closed)
      else raiseFault .notStarted s := rfl

theorem after_encBlock (blk : BlkType) (comp : Component) (s : State) :
    Safety.after (.encBlock blk comp) s = endEnc s (encodeBlock s.cfg blk s.enc) := rfl

theorem after_decLoad (s : State) : Safety.after .decLoad s = endDec s (loadStream s.cfg s.dec) := rfl

theorem after_decStart (s : State) :
    Safety.after .decStart s = if s.dec.ready then endDec s (prime s.dec) else raiseFault .notReady s := rfl

theorem after_decBin (c : Fin 32) (s : State) :
    Safety.after (.decBin c) s =
      if s.dec.active then
        endDec (noteBin (decodeBin s.cfg c s.dec) s) ((decodeBin s.cfg c s.dec).bind fun _ u => .ok () u)
      else raiseFault .notReady s := rfl

theorem after_decBlock (blk : BlkType) (comp : Component) (s : State) :
    Safety.after (.decBlock blk comp) s =
      if s.dec.ready then endDec s (decodeBlock s.cfg blk s.dec) else raiseFault .notReady s := rfl

end Sys2Proof.Machine
end

