-- ==== Sys2Proof/Laws/DecEngine.lean ====
section
/-! SUPPORT. The decoder's engine: the bits it uses are the upcoming bits of its input in order (rules R59, R109, R110,
R114), and its renormalization and bins in closed form (rules R112, R113, R120). -/

namespace Sys2Proof.Machine

open Safety

/-- What a bit or a renormalization leaves alone in the decoder unit, beside the range and the offset. -/
def DecUnit.SameRest (u v : DecUnit) : Prop :=
  v.len = u.len ∧ v.ready = u.ready ∧ v.active = u.active ∧ v.inBuf = u.inBuf ∧ v.inDraw = u.inDraw ∧ v.inLen = u.inLen ∧
    v.ctx = u.ctx ∧ v.coefOut = u.coefOut

theorem DecUnit.SameRest.refl (u : DecUnit) : u.SameRest u := ⟨rfl, rfl, rfl, rfl, rfl, rfl, rfl, rfl⟩

theorem DecUnit.SameRest.trans {u v w : DecUnit} (h₁ : u.SameRest v) (h₂ : v.SameRest w) : u.SameRest w := by
  obtain ⟨a1, a2, a3, a4, a5, a6, a7, a8⟩ := h₁
  obtain ⟨b1, b2, b3, b4, b5, b6, b7, b8⟩ := h₂
  exact ⟨b1.trans a1, b2.trans a2, b3.trans a3, b4.trans a4, b5.trans a5, b6.trans a6, b7.trans a7, b8.trans a8⟩

theorem inputByte_congr {u v : DecUnit} (h₁ : v.len = u.len) (h₂ : v.inBuf = u.inBuf) (h₃ : v.inDraw = u.inDraw) (i : Nat) :
    inputByte v i = inputByte u i := by
  simp only [inputByte, DecUnit.inByteAt, h₁, h₂, h₃]

/-- Past any stream the input is zero (rules R35, R109). -/
theorem inputByte_far (u : DecUnit) (i : Nat) (h : 2 ^ 17 ≤ i) : inputByte u i = 0 := by
  have := u.len.isLt
  unfold inputByte
  rw [if_neg (by omega)]

theorem advanceCursor_toNat (c : BitVec 32) :
    (advanceCursor c).toNat = if c.toNat = 2 ^ 32 - 1 then 2 ^ 32 - 1 else c.toNat + 1 := by
  have hc := c.isLt
  have h1 : (BitVec.allOnes 32).toNat = 2 ^ 32 - 1 := BitVec.toNat_allOnes
  unfold advanceCursor
  by_cases h : c = BitVec.allOnes 32
  · rw [if_pos h, h, if_pos h1, h1]
  · have hn : c.toNat ≠ 2 ^ 32 - 1 := fun hh => h (BitVec.eq_of_toNat_eq (hh.trans h1.symm))
    rw [if_neg h, if_neg hn, BitVec.toNat_add]
    have : (1 : BitVec 32).toNat = 1 := rfl
    omega

/-- The byte at the advanced cursor and beyond is what the next byte was (the saturated cursor reads zero either way). -/
theorem inputByte_advance (u : DecUnit) (i : Nat) :
    inputByte u ((advanceCursor u.cur).toNat + i) = inputByte u (u.cur.toNat + 1 + i) := by
  rw [advanceCursor_toNat]
  split
  · rename_i h
    rw [inputByte_far _ _ (by omega), inputByte_far _ _ (by omega)]
  · rfl

theorem inByte_fst (u : DecUnit) : u.inByte.1 = inputByte u u.cur.toNat := rfl

/-- One bit (rule R110): it is the next upcoming one, and the rest follow. -/
theorem nextBit_spec (u : DecUnit) :
    u.nextBit.1 = upcomingBit u 0 ∧ (∀ j, upcomingBit u.nextBit.2 j = upcomingBit u (j + 1)) ∧
    u.SameRest u.nextBit.2 ∧ u.nextBit.2.r = u.r ∧ u.nextBit.2.code = u.code ∧
    u.nextBit.2.nres.toNat = (if u.nres = 0 then 7 else u.nres.toNat - 1) ∧
    u.nextBit.2.cur = (if u.nres = 0 then advanceCursor u.cur else u.cur) := by
  have h1 : (1 : BitVec 4).toNat = 1 := rfl
  have h8 : (8 : BitVec 4).toNat = 8 := rfl
  by_cases h : u.nres = 0
  · have h0 : u.nres.toNat = 0 := by rw [h]; rfl
    have hv : u.refill = { u.inByte.2 with res := u.inByte.1, nres := 8 } := if_pos h
    have h7 : (8 - 1 : BitVec 4).toNat = 7 := rfl
    refine ⟨?_, fun j => ?_, ?_, ?_, ?_, ?_, ?_⟩
    · simp only [DecUnit.nextBit, hv, upcomingBit, h0, Nat.lt_irrefl, if_false, h7, inByte_fst]
      simp
    · simp only [DecUnit.nextBit, hv, upcomingBit, h0, h7]
      rw [if_neg (by omega : ¬ j + 1 < 0)]
      by_cases hj : j < 7
      · rw [if_pos hj, inByte_fst, show (j + 1 - 0) / 8 = 0 by omega, Nat.add_zero]
        congr 1
        omega
      · rw [if_neg hj]
        refine (congrArg (fun b : Byte => b.getLsbD (7 - (j - 7) % 8)) (inputByte_advance u ((j - 7) / 8))).trans ?_
        rw [show u.cur.toNat + 1 + (j - 7) / 8 = u.cur.toNat + (j + 1 - 0) / 8 by omega]
        congr 1
        omega
    · simp only [DecUnit.nextBit, hv]
      exact DecUnit.SameRest.refl u
    · simp only [DecUnit.nextBit, hv]
      rfl
    · simp only [DecUnit.nextBit, hv]
      rfl
    · simp only [DecUnit.nextBit, hv, if_pos h, h7]
    · simp only [DecUnit.nextBit, hv, if_pos h]
      rfl
  · have hn : u.nres.toNat ≠ 0 := fun hh => h (BitVec.eq_of_toNat_eq hh)
    have hv : u.refill = u := if_neg h
    have hs : (u.nres - 1).toNat = u.nres.toNat - 1 := by
      have := u.nres.isLt
      rw [BitVec.toNat_sub]
      omega
    refine ⟨?_, fun j => ?_, ?_, ?_, ?_, ?_, ?_⟩
    · simp only [DecUnit.nextBit, hv, upcomingBit, hs]
      rw [if_pos (by omega), Nat.sub_zero]
    · simp only [DecUnit.nextBit, hv, upcomingBit, hs]
      by_cases hj : j + 1 < u.nres.toNat
      · rw [if_pos (by omega), if_pos hj]
        congr 1
        omega
      · rw [if_neg (by omega), if_neg hj,           show j - (u.nres.toNat - 1) = j + 1 - u.nres.toNat by omega]
        rfl
    · simp only [DecUnit.nextBit, hv]
      exact DecUnit.SameRest.refl u
    · simp only [DecUnit.nextBit, hv]
    · simp only [DecUnit.nextBit, hv]
    · simp only [DecUnit.nextBit, hv, if_neg h, hs]
    · simp only [DecUnit.nextBit, hv, if_neg h]

/-- The reservoir after one bit (rule R110). -/
theorem nextBit_res (u : DecUnit) :
    u.nextBit.2.res = if u.nres = 0 then inputByte u u.cur.toNat else u.res := by
  unfold DecUnit.nextBit DecUnit.refill
  simp only
  split
  · rfl
  · rfl

/-- The next `k` bits are a number below `2 ^ k`. -/
theorem upcomingValue_lt (u : DecUnit) (k : Nat) : upcomingValue u k < 2 ^ k := by
  induction k with
  | zero => simp [upcomingValue]
  | succ k ih =>
    have := Bool.toNat_le (upcomingBit u k)
    simp only [upcomingValue]
    rw [Nat.pow_succ]
    omega

/-- The first bit taken out of the next `k + 1`. -/
theorem upcomingValue_succ (u v : DecUnit) (h : ∀ j, upcomingBit v j = upcomingBit u (j + 1)) (k : Nat) :
    upcomingValue u (k + 1) = (upcomingBit u 0).toNat * 2 ^ k + upcomingValue v k := by
  induction k with
  | zero => simp [upcomingValue]
  | succ k ih =>
    rw [upcomingValue, ih]
    simp only [upcomingValue, h]
    rw [Nat.pow_succ]
    ring

/-- The renormalization (rule R113) from a range that `k` doublings bring to 256..511, the offset being below the range: it
shifts in the next `k` bits and no more, and takes them off the upcoming ones. -/
theorem renormD_closed (k n : Nat) (u : DecUnit) (hkn : k ≤ n) (hlo : 256 ≤ u.r.toNat * 2 ^ k)
    (hhi : u.r.toNat * 2 ^ k < 512) (hc : u.code.toNat < u.r.toNat) :
    (renormD n u).r.toNat = u.r.toNat * 2 ^ k ∧
    (renormD n u).code.toNat = u.code.toNat * 2 ^ k + upcomingValue u k ∧
    (∀ j, upcomingBit (renormD n u) j = upcomingBit u (k + j)) ∧ u.SameRest (renormD n u) ∧
    (renormD n u).code.toNat < (renormD n u).r.toNat := by
  induction k generalizing n u with
  | zero =>
    have hd : renormD n u = u := by
      cases n with
      | zero => rfl
      | succ n => exact if_neg (by rw [Nat.pow_zero, Nat.mul_one] at hlo; omega)
    rw [hd]
    simp only [upcomingValue, Nat.pow_zero, Nat.mul_one, Nat.add_zero, Nat.zero_add]
    exact ⟨trivial, trivial, fun j => trivial, DecUnit.SameRest.refl u, hc⟩
  | succ k ih =>
    obtain ⟨n, rfl⟩ : ∃ m, n = m + 1 := ⟨n - 1, by omega⟩
    have hpos : 1 ≤ 2 ^ k := Nat.one_le_two_pow
    have h2 : u.r.toNat * 2 ^ (k + 1) = u.r.toNat * 2 ^ k * 2 := by rw [Nat.pow_succ, Nat.mul_assoc]
    have hle : u.r.toNat ≤ u.r.toNat * 2 ^ k := Nat.le_mul_of_pos_right _ hpos
    have hr1 : (u.r <<< 1).toNat = u.r.toNat * 2 := by
      rw [BitVec.toNat_shiftLeft, Nat.shiftLeft_eq]
      omega
    obtain ⟨b1, b2, b3, b4, b5, -, -⟩ := nextBit_spec u
    have hbit := Bool.toNat_le u.nextBit.1
    have hd : renormD (n + 1) u = renormD n { u.nextBit.2 with
        r := u.r <<< 1, code := BitVec.ofNat 9 (2 * u.code.toNat + u.nextBit.1.toNat) } := if_pos (by omega)
    have hc1 : (BitVec.ofNat 9 (2 * u.code.toNat + u.nextBit.1.toNat)).toNat = 2 * u.code.toNat + u.nextBit.1.toNat := by
      rw [BitVec.toNat_ofNat]
      omega
    rw [hd]
    have hup : ∀ j, upcomingBit { u.nextBit.2 with
        r := u.r <<< 1, code := BitVec.ofNat 9 (2 * u.code.toNat + u.nextBit.1.toNat) } j = upcomingBit u (j + 1) :=
      fun j => b2 j
    have hmul : u.r.toNat * 2 * 2 ^ k = u.r.toNat * 2 ^ (k + 1) := by rw [h2]; ring
    obtain ⟨i1, i2, i3, i4, i5⟩ := ih n { u.nextBit.2 with
        r := u.r <<< 1, code := BitVec.ofNat 9 (2 * u.code.toNat + u.nextBit.1.toNat) } (by omega)
      (by simp only [hr1]; omega) (by simp only [hr1]; omega) (by simp only [hr1, hc1]; omega)
    refine ⟨by rw [i1]; simp only [hr1]; exact hmul, ?_, fun j => ?_, b3.trans i4, i5⟩
    · rw [i2, upcomingValue_succ u _ hup, ← b1]
      simp only [hc1]
      rw [Nat.pow_succ]
      ring
    · rw [i3, hup]
      congr 1
      omega

/-- The input position after a renormalization of `k` turns (rules R110, R113): the reservoir gives what it holds, and one
byte is fetched where that is too little. -/
theorem renormD_input (k n : Nat) (u : DecUnit) (hkn : k ≤ n) (hlo : 256 ≤ u.r.toNat * 2 ^ k)
    (hhi : u.r.toNat * 2 ^ k < 512) (hk : k ≤ u.nres.toNat + 8) :
    (renormD n u).nres.toNat = (if k ≤ u.nres.toNat then u.nres.toNat - k else u.nres.toNat + 8 - k) ∧
    (renormD n u).res = (if k ≤ u.nres.toNat then u.res else inputByte u u.cur.toNat) ∧
    (renormD n u).cur = (if k ≤ u.nres.toNat then u.cur else advanceCursor u.cur) := by
  induction k generalizing n u with
  | zero =>
    have hd : renormD n u = u := by
      cases n with
      | zero => rfl
      | succ n => exact if_neg (by rw [Nat.pow_zero, Nat.mul_one] at hlo; omega)
    rw [hd]
    simp
  | succ k ih =>
    obtain ⟨n, rfl⟩ : ∃ m, n = m + 1 := ⟨n - 1, by omega⟩
    have hpos : 1 ≤ 2 ^ k := Nat.one_le_two_pow
    have h2 : u.r.toNat * 2 ^ (k + 1) = u.r.toNat * 2 ^ k * 2 := by rw [Nat.pow_succ, Nat.mul_assoc]
    have hle : u.r.toNat ≤ u.r.toNat * 2 ^ k := Nat.le_mul_of_pos_right _ hpos
    have hr1 : (u.r <<< 1).toNat = u.r.toNat * 2 := by
      rw [BitVec.toNat_shiftLeft, Nat.shiftLeft_eq]
      omega
    obtain ⟨-, -, b3, -, -, b6, b7⟩ := nextBit_spec u
    have b8 := nextBit_res u
    have hn : u.nres = 0 ↔ u.nres.toNat = 0 := ⟨fun h => by rw [h]; rfl, fun h => BitVec.eq_of_toNat_eq h⟩
    simp only [hn] at b6 b7 b8
    have hd : renormD (n + 1) u = renormD n { u.nextBit.2 with
        r := u.r <<< 1, code := BitVec.ofNat 9 (2 * u.code.toNat + u.nextBit.1.toNat) } := if_pos (by omega)
    have hmul : u.r.toNat * 2 * 2 ^ k = u.r.toNat * 2 ^ (k + 1) := by rw [h2]; ring
    obtain ⟨i1, i2, i3⟩ := ih n { u.nextBit.2 with
        r := u.r <<< 1, code := BitVec.ofNat 9 (2 * u.code.toNat + u.nextBit.1.toNat) } (by omega)
      (by simp only [hr1]; omega) (by simp only [hr1]; omega) (by simp only [b6]; split <;> omega)
    have hb : ∀ i, inputByte { u.nextBit.2 with
        r := u.r <<< 1, code := BitVec.ofNat 9 (2 * u.code.toNat + u.nextBit.1.toNat) } i = inputByte u i :=
      fun i => inputByte_congr b3.1 b3.2.2.2.1 b3.2.2.2.2.1 i
    rw [hb] at i2
    rw [hd]
    refine ⟨i1.trans ?_, i2.trans ?_, i3.trans ?_⟩
    all_goals
      simp only [b6, b7, b8]
      by_cases h0 : u.nres.toNat = 0
      · simp only [if_pos h0]
        rw [if_pos (by omega), if_neg (by omega)]
        try omega
      · simp only [if_neg h0]
        by_cases h1 : k + 1 ≤ u.nres.toNat
        · rw [if_pos (by omega), if_pos h1]
          try omega
        · rw [if_neg (by omega), if_neg h1]
          try omega

/-- The event of a bin leaves the input alone (rule R112). -/
theorem takeBin_input (cfg : Config) (c : Fin 32) (lps mps : Nat) (u : DecUnit) :
    (u.takeBin cfg c lps mps).nres = u.nres ∧ (u.takeBin cfg c lps mps).res = u.res ∧
    (u.takeBin cfg c lps mps).cur = u.cur ∧ ∀ i, inputByte (u.takeBin cfg c lps mps) i = inputByte u i := by
  unfold DecUnit.takeBin
  simp only
  split <;> exact ⟨rfl, rfl, rfl, fun _ => rfl⟩

/-- The part of the range, and what is taken off the offset, that a decoded bin gives (rule R112). -/
theorem takeBin_spec (cfg : Config) (c : Fin 32) (lps mps : Nat) (u : DecUnit) (hsum : lps + mps = u.r.toNat)
    (hl : 1 ≤ lps) (hm : 1 ≤ mps) (hc : u.code.toNat < u.r.toNat) :
    (u.takeBin cfg c lps mps).r.toNat = (if mps ≤ u.code.toNat then lps else mps) ∧
    (u.takeBin cfg c lps mps).code.toNat = (if mps ≤ u.code.toNat then u.code.toNat - mps else u.code.toNat) ∧
    (u.takeBin cfg c lps mps).code.toNat < (u.takeBin cfg c lps mps).r.toNat ∧
    (∀ j, upcomingBit (u.takeBin cfg c lps mps) j = upcomingBit u j) ∧
    ((u.takeBin cfg c lps mps).len = u.len ∧ (u.takeBin cfg c lps mps).ready = u.ready ∧
      (u.takeBin cfg c lps mps).active = u.active ∧ (u.takeBin cfg c lps mps).inBuf = u.inBuf ∧
      (u.takeBin cfg c lps mps).inDraw = u.inDraw ∧ (u.takeBin cfg c lps mps).inLen = u.inLen ∧
      (u.takeBin cfg c lps mps).coefOut = u.coefOut) ∧
    (u.takeBin cfg c lps mps).ctx = u.ctx.put c
      (if mps ≤ u.code.toNat then (u.ctx.get c).lpsUpdate cfg else (u.ctx.get c).mpsUpdate cfg) := by
  have hr := u.r.isLt
  unfold DecUnit.takeBin
  simp only
  split
  · have h1 : (BitVec.ofNat 9 lps).toNat = lps := by rw [BitVec.toNat_ofNat]; omega
    have h2 : (BitVec.ofNat 9 (u.code.toNat - mps)).toNat = u.code.toNat - mps := by rw [BitVec.toNat_ofNat]; omega
    refine ⟨h1, h2, ?_, fun j => rfl, ⟨rfl, rfl, rfl, rfl, rfl, rfl, rfl⟩, rfl⟩
    simp only [h1, h2]
    omega
  · have h1 : (BitVec.ofNat 9 mps).toNat = mps := by rw [BitVec.toNat_ofNat]; omega
    refine ⟨h1, rfl, ?_, fun j => rfl, ⟨rfl, rfl, rfl, rfl, rfl, rfl, rfl⟩, rfl⟩
    simp only [h1]
    omega

/-- A decoded bin as numbers (rules R112, R113): the LPS exactly where the offset reaches the MPS width; some `k ≤ 8`
doublings of the part it keeps; the next `k` bits shifted in. -/
structure DecUnit.Binned (cfg : Config) (c : Fin 32) (b : Bool) (k : Nat) (u v : DecUnit) : Prop where
  bin : b = if mpsWidth cfg u.r (u.ctx.get c) ≤ u.code.toNat then !(u.ctx.get c).mps else (u.ctx.get c).mps
  range : v.r.toNat = (if mpsWidth cfg u.r (u.ctx.get c) ≤ u.code.toNat then lpsWidth cfg u.r (u.ctx.get c)
    else mpsWidth cfg u.r (u.ctx.get c)) * 2 ^ k
  range_lo : 256 ≤ v.r.toNat
  range_hi : v.r.toNat ≤ 510
  code : v.code.toNat = (if mpsWidth cfg u.r (u.ctx.get c) ≤ u.code.toNat then
    u.code.toNat - mpsWidth cfg u.r (u.ctx.get c) else u.code.toNat) * 2 ^ k + upcomingValue u k
  code_lt : v.code.toNat < v.r.toNat
  turns : k ≤ 8
  bits : ∀ j, upcomingBit v j = upcomingBit u (k + j)
  ctx : v.ctx = u.ctx.put c (if mpsWidth cfg u.r (u.ctx.get c) ≤ u.code.toNat then (u.ctx.get c).lpsUpdate cfg
    else (u.ctx.get c).mpsUpdate cfg)
  nres : v.nres.toNat = if k ≤ u.nres.toNat then u.nres.toNat - k else u.nres.toNat + 8 - k
  res : v.res = if k ≤ u.nres.toNat then u.res else inputByte u u.cur.toNat
  cur : v.cur = if k ≤ u.nres.toNat then u.cur else advanceCursor u.cur
  rest : v.len = u.len ∧ v.ready = u.ready ∧ v.active = u.active ∧ v.inBuf = u.inBuf ∧ v.inDraw = u.inDraw ∧
    v.inLen = u.inLen ∧ v.coefOut = u.coefOut

/-- One bin: ZERO_WIDTH with nothing changed, or it goes through (rules R112, R116, R117). -/
theorem decodeBin_cases (cfg : Config) (c : Fin 32) (u : DecUnit) (hr' : u.r.toNat ≤ 510)
    (hc : u.code.toNat < u.r.toNat) :
    (widths cfg u.r (u.ctx.get c).state = none ∧ decodeBin cfg c u = .raised .zeroWidth u) ∨
    (∃ b k v, decodeBin cfg c u = .ok b v ∧ DecUnit.Binned cfg c b k u v) := by
  cases hw : widths cfg u.r (u.ctx.get c).state with
  | none => exact .inl ⟨rfl, by simp [decodeBin, hw]⟩
  | some p =>
    right
    obtain ⟨lps, mps⟩ := p
    obtain ⟨e1, e2, e3, e4⟩ := widths_some hw
    have hlps : lps = lpsWidth cfg u.r (u.ctx.get c) := e1
    have hmps : mps = mpsWidth cfg u.r (u.ctx.get c) := by
      unfold mpsWidth
      omega
    obtain ⟨t1, t2, t3, t4, t5, t6⟩ := takeBin_spec cfg c lps mps u e2 e3 e4 hc
    have hpart : 1 ≤ (if mps ≤ u.code.toNat then lps else mps) ∧ (if mps ≤ u.code.toNat then lps else mps) ≤ 509 := by
      split <;> omega
    obtain ⟨k, hk, hlo, hhi⟩ := exists_doublings (if mps ≤ u.code.toNat then lps else mps) hpart.1 (by omega)
    obtain ⟨d1, d2, d3, d4, d5⟩ := renormD_closed k 8 (u.takeBin cfg c lps mps) hk (by rw [t1]; exact hlo)
      (by rw [t1]; exact hhi) t3
    have hup : ∀ j, upcomingValue (u.takeBin cfg c lps mps) j = upcomingValue u j := by
      intro j
      induction j with
      | zero => rfl
      | succ j ih => simp only [upcomingValue, ih, t4]
    obtain ⟨s1, s2, s3, s4, s5, s6, s7, s8⟩ := d4
    obtain ⟨q1, q2, q3, q4, q5, q6, q7⟩ := t5
    obtain ⟨n1, n2, n3⟩ := renormD_input k 8 (u.takeBin cfg c lps mps) hk (by rw [t1]; exact hlo) (by rw [t1]; exact hhi)
      (by omega)
    obtain ⟨p1, p2, p3, p4⟩ := takeBin_input cfg c lps mps u
    rw [p1] at n1 n2 n3
    rw [p2, p3, p4] at n2
    rw [p3] at n3
    refine ⟨u.binOf c mps, k, renormD 8 (u.takeBin cfg c lps mps), by simp only [decodeBin, hw], ?_⟩
    refine ⟨by simp only [DecUnit.binOf, hmps], by rw [d1, t1, hlps, hmps], by rw [d1, t1]; exact hlo, ?_, ?_, d5, hk,
      fun j => by rw [d3, t4], by rw [s7, t6, hmps], n1, n2, n3, s1.trans q1, s2.trans q2, s3.trans q3, s4.trans q4,
      s5.trans q5, s6.trans q6, s8.trans q7⟩
    · rw [d1, t1]
      cases k with
      | zero => rw [Nat.pow_zero, Nat.mul_one]; omega
      | succ k =>
        rw [Nat.pow_succ, ← Nat.mul_assoc] at hhi ⊢
        omega
    · rw [d2, t2, hup, hmps]

/-! Priming (rule R111). -/

/-- The index of the first byte that Prime reads: one further where the byte at the cursor is a 0xFF of the stream. -/
def DecUnit.primeAt (u : DecUnit) : Nat :=
  u.cur.toNat + (if u.cur.toNat < u.len.toNat ∧ u.inByteAt u.cur.toNat = 0xFF then 1 else 0)

/-- The first nine bits as a number. -/
def DecUnit.primeCode (u : DecUnit) : Nat :=
  (inputByte u u.primeAt).toNat * 2 + (inputByte u (u.primeAt + 1)).toNat / 128

theorem DecUnit.skipMarker_eq (u : DecUnit) :
    u.skipMarker = { u with cur := u.skipMarker.cur } ∧ u.skipMarker.cur.toNat = u.primeAt := by
  unfold DecUnit.skipMarker DecUnit.primeAt
  split
  · rename_i h
    refine ⟨rfl, ?_⟩
    have := u.len.isLt
    have h1 : (1 : BitVec 32).toNat = 1 := rfl
    rw [BitVec.toNat_add]
    omega
  · exact ⟨rfl, rfl⟩

theorem DecUnit.primeCode_lt (u : DecUnit) : u.primeCode < 2 ^ 9 := by
  have := (inputByte u u.primeAt).isLt
  have := (inputByte u (u.primeAt + 1)).isLt
  unfold DecUnit.primeCode
  omega

/-- The registers that Prime sets (rule R111). -/
theorem DecUnit.primeRegs_eq (u : DecUnit) :
    u.primeRegs = { u with
      cur := BitVec.ofNat 32 (min (u.primeAt + 2) (2 ^ 32 - 1)), r := 510, code := BitVec.ofNat 9 u.primeCode,
      res := BitVec.ofNat 8 ((inputByte u (u.primeAt + 1)).toNat % 128), nres := 7 } := by
  obtain ⟨h1, h2⟩ := u.skipMarker_eq
  have hlt := u.skipMarker.cur.isLt
  have hcur : advanceCursor (advanceCursor u.skipMarker.cur) = BitVec.ofNat 32 (min (u.primeAt + 2) (2 ^ 32 - 1)) := by
    apply BitVec.eq_of_toNat_eq
    rw [advanceCursor_toNat, advanceCursor_toNat, h2, BitVec.toNat_ofNat]
    rw [h2] at hlt
    split <;> split <;> omega
  have hb0 : u.skipMarker.inByte.1 = inputByte u u.primeAt := by
    rw [inByte_fst, h2]
    exact inputByte_congr (by rw [h1]) (by rw [h1]) (by rw [h1]) _
  have hb1 : u.skipMarker.inByte.2.inByte.1 = inputByte u (u.primeAt + 1) := by
    rw [inByte_fst, ← h2]
    refine (inputByte_congr (u := u.skipMarker) rfl rfl rfl _).trans ?_
    refine (inputByte_advance u.skipMarker 0).trans ?_
    exact inputByte_congr (by rw [h1]) (by rw [h1]) (by rw [h1]) _
  have hp : u.primeRegs = { u.skipMarker with
      cur := advanceCursor (advanceCursor u.skipMarker.cur), r := Config.rangeInit,
      code := u.skipMarker.inByte.1 ++ u.skipMarker.inByte.2.inByte.1.extractLsb' 7 1,
      res := u.skipMarker.inByte.2.inByte.1 &&& 0x7F, nres := 7 } := rfl
  have hcode : ∀ b0 b1 : Byte, b0 ++ b1.extractLsb' 7 1 = BitVec.ofNat 9 (b0.toNat * 2 + b1.toNat / 128) := by
    intro b0 b1
    have := b0.isLt
    have := b1.isLt
    have hx : (b1.extractLsb' 7 1).toNat = b1.toNat / 128 := by
      simp only [BitVec.extractLsb'_toNat, Nat.shiftRight_eq_div_pow]
      omega
    apply BitVec.eq_of_toNat_eq
    rw [BitVec.toNat_append, BitVec.toNat_ofNat, ← Nat.shiftLeft_add_eq_or_of_lt (BitVec.isLt _), hx, Nat.shiftLeft_eq]
    omega
  have hres : ∀ b1 : Byte, b1 &&& 0x7F = BitVec.ofNat 8 (b1.toNat % 128) := by
    intro b1
    apply BitVec.eq_of_toNat_eq
    have h : (0x7F : Byte).toNat = 2 ^ 7 - 1 := rfl
    rw [BitVec.toNat_and, h, Nat.and_two_pow_sub_one_eq_mod, BitVec.toNat_ofNat]
    omega
  rw [hp, hcur, hb0, hb1, hcode, hres, h1]
  rfl

/-- Prime goes through exactly if the first nine bits are below the range (rule R111). -/
theorem prime_cases (u : DecUnit) :
    (u.primeCode < 510 ∧ prime u = .ok () { u.primeRegs with active := true }) ∨
    (510 ≤ u.primeCode ∧ prime u = .raised .streamInvalid u.primeRegs) := by
  have h1 : u.primeRegs.r.toNat = 510 := by rw [DecUnit.primeRegs_eq]; rfl
  have h2 : u.primeRegs.code.toNat = u.primeCode := by
    rw [DecUnit.primeRegs_eq]
    simp only [BitVec.toNat_ofNat]
    exact Nat.mod_eq_of_lt u.primeCode_lt
  by_cases h : u.primeCode < 510
  · refine .inl ⟨h, ?_⟩
    unfold prime
    simp only
    rw [if_neg (by omega)]
  · refine .inr ⟨by omega, ?_⟩
    unfold prime
    simp only
    rw [if_pos (by omega)]

/-- What Prime leaves alone. -/
theorem DecUnit.primeRegs_rest (u : DecUnit) : u.SameRest u.primeRegs := by
  rw [DecUnit.primeRegs_eq]
  exact DecUnit.SameRest.refl u

end Sys2Proof.Machine
end

