-- ==== Sys2Proof/Laws/DecSession.lean ====
section
/-! SUPPORT. The block syntax of the decoder as a sequence of bins (rules R130 to R135): what every bin in a context of the
block syntax keeps, the whole syntax keeps. -/

namespace Sys2Proof.Machine

open Safety

theorem sigCtx_mem (i : Fin 16) (sig : Fin 16 → Bool) : sigCtx i sig ∈ syntaxContexts := by
  unfold sigCtx
  simp only
  split <;> split <;> decide

theorem lastCtx_mem : ∀ i : Fin 16, lastCtx i ∈ syntaxContexts := by decide

theorem prefixCtx_mem : ∀ i : Fin 16, prefixCtx i ∈ syntaxContexts := by decide

theorem suffixCtx_mem : ∀ j : Fin 4, suffixCtx j ∈ syntaxContexts := by decide

theorem signCtx_mem : signCtx ∈ syntaxContexts := by decide

section

variable {cfg : Config} {p : DecUnit → Prop} {q : ErrCode → DecUnit → Prop}
  (hbin : ∀ c ∈ syntaxContexts, ∀ u, p u → (decodeBin cfg c u).Sat p q) (hlev : ∀ u, p u → q .levelRange u)

include hbin in
theorem decodeSig_sat (is : List (Fin 16)) (sig : Vector Bool 16) (u : DecUnit) (h : p u) :
    (decodeSig cfg is sig u).Sat p q := by
  induction is generalizing sig u with
  | nil => exact h
  | cons i is ih => exact (hbin _ (sigCtx_mem i _) u h).bind fun b v hv => ih _ v hv

include hbin in
theorem decodeLast_sat (is : List (Fin 16)) (u : DecUnit) (h : p u) : (decodeLast cfg is u).Sat p q := by
  induction is generalizing u with
  | nil => exact h
  | cons i is ih =>
    refine (hbin _ (lastCtx_mem i) u h).bind fun b v hv => ?_
    split
    · exact hv
    · exact (ih v hv).bind fun _ w hw => hw

include hbin hlev in
theorem decodePrefix_sat (i : Fin 16) (fuel n : Nat) (u : DecUnit) (h : p u) :
    (decodePrefix cfg i fuel n u).Sat p q := by
  induction fuel generalizing n u with
  | zero => exact hlev u h
  | succ fuel ih =>
    refine (hbin _ (prefixCtx_mem i) u h).bind fun b v hv => ?_
    split
    · split
      · exact hlev v hv
      · exact ih _ v hv
    · exact hv

include hbin in
theorem decodeSuffix_sat (js : List (Fin 4)) (x : Nat) (u : DecUnit) (h : p u) : (decodeSuffix cfg js x u).Sat p q := by
  induction js generalizing x u with
  | nil => exact h
  | cons j js ih => exact (hbin _ (suffixCtx_mem j) u h).bind fun b v hv => ih _ v hv

include hbin hlev in
theorem decodeLevel_sat (i : Fin 16) (u : DecUnit) (h : p u) : (decodeLevel cfg i u).Sat p q := by
  refine (decodePrefix_sat hbin hlev i _ 0 u h).bind fun n v hv => ?_
  have hs : ((if 0 < n then decodeSuffix cfg [0, 1, 2, 3] 0 v else .ok 0 v) : Res DecUnit Nat).Sat p q := by
    split
    · exact decodeSuffix_sat hbin _ _ v hv
    · exact hv
  refine hs.bind fun x w hw => (hbin _ signCtx_mem w hw).bind fun s y hy => ?_
  have hend : ∀ level : Int, ((if level < -2 ^ (Config.coefW - 1) ∨ 2 ^ (Config.coefW - 1) - 1 < level then
      .raised .levelRange y else .ok level y) : Res DecUnit Int).Sat p q := by
    intro level
    split
    · exact hlev y hy
    · exact hy
  exact hend _

include hbin hlev in
theorem decodeLevels_sat (is : List (Fin 16)) (lev : Coefs) (u : DecUnit) (h : p u) :
    (decodeLevels cfg is lev u).Sat p q := by
  induction is generalizing lev u with
  | nil => exact h
  | cons i is ih => exact (decodeLevel_sat hbin hlev i u h).bind fun x v hv => ih _ v hv

include hbin hlev in
/-- The whole syntax, from what its bins keep; LEVEL_RANGE may be raised between any two of them (rules R130, R133). -/
theorem decodeBlockSyntax_sat (u : DecUnit) (h : p u) : (decodeBlockSyntax cfg u).Sat p q :=
  (decodeSig_sat hbin scanIndices _ u h).bind fun _ v hv =>
    (decodeLast_sat hbin _ v hv).bind fun _ w hw => decodeLevels_sat hbin hlev _ _ w hw

end

/-! Frames (rules R67, R98, R116). -/

/-- A refill and a bit leave everything but the reservoir and the cursor (rule R110). -/
theorem nextBit_frame (u : DecUnit) :
    u.nextBit.2 = { u with res := u.nextBit.2.res, nres := u.nextBit.2.nres, cur := u.nextBit.2.cur } := by
  unfold DecUnit.nextBit DecUnit.refill
  simp only
  split <;> rfl

/-- A renormalization leaves everything but the arithmetic registers and the input position (rule R113). -/
theorem renormD_frame (n : Nat) (u : DecUnit) :
    renormD n u = { u with
      r := (renormD n u).r, code := (renormD n u).code, res := (renormD n u).res, nres := (renormD n u).nres,
      cur := (renormD n u).cur } := by
  induction n generalizing u with
  | zero => rfl
  | succ n ih =>
    unfold renormD
    split
    · simp only
      rw [ih]
      simp only
      rw [nextBit_frame]
    · rfl

/-- What a bin leaves alone, whatever its outcome (rules R98, R116). -/
def DecUnit.Frame (s : List (Fin 32)) (u v : DecUnit) : Prop :=
  v = { u with
    r := v.r, code := v.code, res := v.res, nres := v.nres, cur := v.cur, ctx := v.ctx } ∧
  ∀ c, c ∉ s → v.ctx.get c = u.ctx.get c

theorem DecUnit.Frame.refl (s : List (Fin 32)) (u : DecUnit) : u.Frame s u := ⟨rfl, fun _ _ => rfl⟩

theorem DecUnit.Frame.trans {s : List (Fin 32)} {u v w : DecUnit} (h₁ : u.Frame s v) (h₂ : v.Frame s w) : u.Frame s w :=
  ⟨by rw [h₂.1, h₁.1], fun c hc => (h₂.2 c hc).trans (h₁.2 c hc)⟩

theorem decodeBin_frame (cfg : Config) (c : Fin 32) (s : List (Fin 32)) (hc : c ∈ s) (u : DecUnit) :
    (decodeBin cfg c u).Sat (u.Frame s) fun _ v => v = u := by
  unfold decodeBin
  split
  · exact rfl
  · rename_i lps mps _
    have ht : u.Frame s (u.takeBin cfg c lps mps) := by
      unfold DecUnit.takeBin
      simp only
      split <;> exact ⟨rfl, fun k hk => CtxTable.get_put_ne _ _ _ _ fun h => hk (h ▸ hc)⟩
    have hr := renormD_frame 8 (u.takeBin cfg c lps mps)
    have hctx : (renormD 8 (u.takeBin cfg c lps mps)).ctx = (u.takeBin cfg c lps mps).ctx := by rw [hr]
    exact ht.trans ⟨by rw [hctx]; exact hr, fun k _ => by rw [hctx]⟩

end Sys2Proof.Machine
end

