-- ==== Sys2Proof/Laws/Decode.lean ====
section
/-! SUPPORT. The command word as the number of its fields (rules R70, R77), and the fields of a word that decodes
(rules R72, R75). -/

namespace Sys2Proof

theorem Word.toNat_fields (w : Word) :
    w.toNat = (w.extractLsb' 0 4).toNat + 16 * (w.extractLsb' 4 1).toNat + 32 * (w.extractLsb' 5 2).toNat +
      128 * (w.extractLsb' 7 1).toNat + 256 * (w.extractLsb' 8 5).toNat + 8192 * (w.extractLsb' 13 1).toNat +
      16384 * (w.extractLsb' 14 18).toNat := by
  simp only [BitVec.extractLsb'_toNat, Nat.shiftRight_eq_div_pow]
  have := w.isLt
  omega

/-- The encoding as a number: "`OP | blk<<4 | comp<<5 | ctx<<8 | bin<<13`" (rule R77). -/
theorem encode_toNat (i : Instr) :
    (encode i).toNat = i.opcode.toNat + 16 * i.blkField.toNat + 32 * i.compField.toNat + 256 * i.ctxField.toNat +
      8192 * i.binField.toNat := by
  cases i with
  | encBin c b => revert c b; decide
  | decBin c => revert c; decide
  | encBlock k m => cases k <;> cases m <;> decide
  | decBlock k m => cases k <;> cases m <;> decide
  | nop => decide
  | encCtxReset => decide
  | decCtxReset => decide
  | encStart => decide
  | encFinish => decide
  | decLoad => decide
  | decStart => decide

/-- The fields of a set of fields that names a command are that command's. -/
theorem CmdFields.eq_fields (f : CmdFields) (i : Instr) (h₁ : f.wellFormed = true) (h₂ : f.command = some i) :
    f = i.fields := by
  obtain ⟨op, blk, comp, r7, ctx, bin, rh⟩ := f
  simp only [CmdFields.wellFormed, CmdFields.reservedZero, CmdFields.blockFieldsZero, CmdFields.ctxZero, CmdFields.binZero,
    CmdFields.opcodeDefined, CmdFields.usesBlock, CmdFields.usesCtx, CmdFields.usesBin, Bool.and_eq_true,
    Bool.or_eq_true, beq_iff_eq, decide_eq_true_eq] at h₁
  obtain ⟨⟨⟨⟨-, rfl, rfl⟩, hb⟩, hc⟩, hbin⟩ := h₁
  have bits : ∀ k : BitVec 1, (BlkType.ofBits k).bits = k := by decide
  have cbits : ∀ m : BitVec 2, (Component.ofBits m).bits = m := by decide
  have bb : ∀ b : BitVec 1, BitVec.ofBool (b == 1) = b := by decide
  have hop : ∀ n, op.toNat = n → op = BitVec.ofNat 4 n := fun n hn => by
    apply BitVec.eq_of_toNat_eq
    have : op.toNat < 16 := op.isLt
    rw [BitVec.toNat_ofNat]
    omega
  unfold CmdFields.command at h₂
  simp only at h₂
  split at h₂
  case h_12 => simp at h₂
  all_goals
    rename_i hn
    have hn := hop _ hn
    subst hn
    simp only [Option.some.injEq] at h₂
    subst h₂
    simp_all [Instr.fields, Instr.opcode, Instr.blkField, Instr.compField, Instr.ctxField, Instr.binField]

/-- A word decodes to a command exactly if its fields are well formed (rule R75). -/
theorem decode_legal_iff (w : Word) : (∃ i, decode w = .command i) ↔ (CmdFields.ofWord w).wellFormed = true := by
  unfold decode
  simp only
  constructor
  · rintro ⟨i, h⟩
    split at h
    · assumption
    · simp at h
  · intro h
    generalize CmdFields.ofWord w = f at *
    have hop : f.op.toNat ≤ 10 := by
      simp only [CmdFields.wellFormed, CmdFields.opcodeDefined, Bool.and_eq_true, decide_eq_true_eq] at h
      exact h.1.1.1.1
    obtain ⟨i, hi⟩ : ∃ i, f.command = some i := by
      unfold CmdFields.command
      generalize f.op.toNat = n at hop
      split
      case h_12 =>
        have : n = 0 ∨ n = 1 ∨ n = 2 ∨ n = 3 ∨ n = 4 ∨ n = 5 ∨ n = 6 ∨ n = 7 ∨ n = 8 ∨ n = 9 ∨ n = 10 := by omega
        simp_all
      all_goals exact ⟨_, rfl⟩
    rw [h, hi]
    exact ⟨i, rfl⟩

/-- The fields of a word that decodes are the command's. -/
theorem ofWord_of_decode (w : Word) (i : Instr) (h : decode w = .command i) : CmdFields.ofWord w = i.fields := by
  unfold decode at h
  simp only at h
  split at h
  · rename_i j h₁ h₂
    simp only [Decoded.command.injEq] at h
    subst h
    exact CmdFields.eq_fields _ _ h₁ h₂
  · simp at h

end Sys2Proof
end

