-- ==== Sys2Proof/Laws/EncEngine.lean ====
section
/-! SUPPORT. The encoder's engine: what each of its procedures can do, and its loops in closed form (rules R99 to R105). -/

namespace Sys2Proof.Machine

/-- Emit's state machine changes the held bytes, OUT_LEN and OUT_BUF alone (rule R102). -/
theorem EncUnit.resolve_eq (out : BitVec 9) (u : EncUnit) :
    u.resolve out = { u with
      pend := (u.resolve out).pend, pendValid := (u.resolve out).pendValid, ffRun := (u.resolve out).ffRun,
      outLen := (u.resolve out).outLen, outBuf := (u.resolve out).outBuf } := by
  unfold EncUnit.resolve
  simp only
  split
  · rw [EncUnit.outRun_eq]; rfl
  · split
    · rfl
    · split
      · rw [EncUnit.outRun_eq]; rfl
      · rfl

@[simp] theorem EncUnit.resolve_r (out : BitVec 9) (u : EncUnit) : (u.resolve out).r = u.r := by
  rw [EncUnit.resolve_eq]
@[simp] theorem EncUnit.resolve_l (out : BitVec 9) (u : EncUnit) : (u.resolve out).l = u.l := by
  rw [EncUnit.resolve_eq]
@[simp] theorem EncUnit.resolve_cnt (out : BitVec 9) (u : EncUnit) : (u.resolve out).cnt = u.cnt := by
  rw [EncUnit.resolve_eq]
@[simp] theorem EncUnit.resolve_active (out : BitVec 9) (u : EncUnit) : (u.resolve out).active = u.active := by
  rw [EncUnit.resolve_eq]
@[simp] theorem EncUnit.resolve_outDraw (out : BitVec 9) (u : EncUnit) : (u.resolve out).outDraw = u.outDraw := by
  rw [EncUnit.resolve_eq]
@[simp] theorem EncUnit.resolve_ctx (out : BitVec 9) (u : EncUnit) : (u.resolve out).ctx = u.ctx := by
  rw [EncUnit.resolve_eq]
@[simp] theorem EncUnit.resolve_coefIn (out : BitVec 9) (u : EncUnit) : (u.resolve out).coefIn = u.coefIn := by
  rw [EncUnit.resolve_eq]

/-- OutByte repeated does not look at the arithmetic registers. -/
theorem EncUnit.outRun_with (v : Byte) (n : Nat) (u : EncUnit) (r : BitVec 9) (l : BitVec 19) (cnt : BitVec 4) (t : CtxTable) :
    ({ u with r := r, l := l, cnt := cnt, ctx := t } : EncUnit).outRun v n =
      { u.outRun v n with r := r, l := l, cnt := cnt, ctx := t } := by
  induction n generalizing u with
  | zero => rfl
  | succ n ih => exact ih (u.outByte v)

/-- Emit's state machine does not look at the arithmetic registers (rule R102). -/
theorem EncUnit.resolve_with (out : BitVec 9) (u : EncUnit) (r : BitVec 9) (l : BitVec 19) (cnt : BitVec 4) (t : CtxTable) :
    ({ u with r := r, l := l, cnt := cnt, ctx := t } : EncUnit).resolve out =
      { u.resolve out with r := r, l := l, cnt := cnt, ctx := t } := by
  unfold EncUnit.resolve
  simp only
  split
  · exact congrArg (EncUnit.hold _) (EncUnit.outRun_with _ _ (u.outByte (u.pend + 1)) r l cnt t)
  · split
    · rfl
    · split
      · exact congrArg (EncUnit.hold _) (EncUnit.outRun_with _ _ (u.outByte u.pend) r l cnt t)
      · rfl

/-- Emit either raises OUT_OVERFLOW with nothing changed, when the capacity is used up, or runs the state machine
(rule R102). -/
theorem emit_cases (cfg : Config) (out : BitVec 9) (u : EncUnit) :
    (cfg.outCap ≤ u.produced ∧ emit cfg out u = .raised .outOverflow u) ∨
    (u.produced < cfg.outCap ∧ emit cfg out u = .ok () (u.resolve out)) := by
  by_cases h : cfg.outCap ≤ u.produced
  · exact .inl ⟨h, if_pos h⟩
  · exact .inr ⟨Nat.lt_of_not_le h, if_neg h⟩

/-- A shift with the counter above 0 (rule R101). -/
theorem shiftE_quiet (cfg : Config) (u : EncUnit) (h : u.cnt ≠ 0) :
    shiftE cfg u = .ok false { u with l := u.l <<< 1, cnt := u.cnt - 1 } := if_neg h

/-- A shift at counter 0 with room for the byte (rule R101). -/
theorem shiftE_emits (cfg : Config) (u : EncUnit) (h : u.cnt = 0) (hp : u.produced < cfg.outCap) :
    shiftE cfg u = .ok true { u.resolve ((u.l <<< 1).extractLsb' 10 9) with
      l := (u.l <<< 1) &&& 0x3FF, cnt := 7 } := by
  have hw : ({ u with l := (u.l <<< 1) &&& 0x3FF, cnt := 7 } : EncUnit).resolve ((u.l <<< 1).extractLsb' 10 9) =
      { u.resolve ((u.l <<< 1).extractLsb' 10 9) with l := (u.l <<< 1) &&& 0x3FF, cnt := 7 } := by
    have := EncUnit.resolve_with ((u.l <<< 1).extractLsb' 10 9) u u.r ((u.l <<< 1) &&& 0x3FF) 7 u.ctx
    rw [show ({ u with r := u.r, l := (u.l <<< 1) &&& 0x3FF, cnt := 7, ctx := u.ctx } : EncUnit) =
      { u with l := (u.l <<< 1) &&& 0x3FF, cnt := 7 } from rfl] at this
    rw [this]
    simp
  unfold shiftE
  simp only
  rw [if_pos h]
  unfold emit
  rw [if_neg (by exact Nat.not_le.2 hp), Res.bind_ok, hw]

/-- A shift at counter 0 with no room for the byte (rules R101, R102). -/
theorem shiftE_overflows (cfg : Config) (u : EncUnit) (h : u.cnt = 0) (hp : cfg.outCap ≤ u.produced) :
    shiftE cfg u = .raised .outOverflow { u with l := (u.l <<< 1) &&& 0x3FF, cnt := 7 } := by
  unfold shiftE
  simp only
  rw [if_pos h]
  unfold emit
  rw [if_pos (by exact hp), Res.bind_raised]

/-- A renormalization turn while the range is below 256 (rule R100). -/
theorem renormE_turn (cfg : Config) (n : Nat) (u : EncUnit) (h : u.r.toNat < 256) :
    renormE cfg (n + 1) u = (shiftE cfg { u with r := u.r <<< 1 }).bind fun _ v => renormE cfg n v := if_pos h

/-- The renormalization ends at a range of at least 256 (rule R100). -/
theorem renormE_done (cfg : Config) (n : Nat) (u : EncUnit) (h : 256 ≤ u.r.toNat) : renormE cfg n u = .ok () u := by
  cases n with
  | zero => rfl
  | succ n => exact if_neg (Nat.not_lt.2 h)

theorem BitVec.toNat_shiftLeft_of_le {w : Nat} (x : BitVec w) (k : Nat) (h : x.toNat * 2 ^ k < 2 ^ w) :
    (x <<< k).toNat = x.toNat * 2 ^ k := by
  rw [BitVec.toNat_shiftLeft, Nat.shiftLeft_eq, Nat.mod_eq_of_lt h]

/-- `k` renormalization turns that emit nothing (rules R100, R101). -/
theorem renormE_quiet (cfg : Config) (k n : Nat) (u : EncUnit) (hk : k ≤ u.cnt.toNat) (hr : u.r.toNat * 2 ^ k < 512) :
    renormE cfg (n + k) u =
      renormE cfg n { u with r := u.r <<< k, l := u.l <<< k, cnt := BitVec.ofNat 4 (u.cnt.toNat - k) } := by
  induction k generalizing u with
  | zero => simp
  | succ k ih =>
    have hpos : 0 < 2 ^ k := Nat.two_pow_pos k
    have h2 : u.r.toNat * 2 ^ (k + 1) = u.r.toNat * 2 ^ k * 2 := by rw [Nat.pow_succ, Nat.mul_assoc]
    have hle : u.r.toNat ≤ u.r.toNat * 2 ^ k := Nat.le_mul_of_pos_right _ hpos
    have hr1 : (u.r <<< 1).toNat = u.r.toNat * 2 := BitVec.toNat_shiftLeft_of_le u.r 1 (by omega)
    have hc : u.cnt ≠ 0 := by
      intro h
      rw [h] at hk
      simp at hk
    have hc1 : (u.cnt - 1).toNat = u.cnt.toNat - 1 := by
      have : (1 : BitVec 4).toNat = 1 := rfl
      have := u.cnt.isLt
      rw [BitVec.toNat_sub]
      omega
    rw [← Nat.add_assoc, renormE_turn _ _ _ (by omega), shiftE_quiet cfg { u with r := u.r <<< 1 } hc, Res.bind_ok, ih]
    · simp only [hc1]
      congr 2
      · rw [← BitVec.shiftLeft_add, Nat.add_comm]
      · rw [← BitVec.shiftLeft_add, Nat.add_comm]
      · congr 1
        omega
    · simp only [hc1]
      omega
    · simp only [hr1]
      rw [Nat.mul_assoc, ← Nat.pow_succ']
      omega

theorem BitVec.shiftLeft_eq_ofNat {w : Nat} (x : BitVec w) (k : Nat) : x <<< k = BitVec.ofNat w (x.toNat * 2 ^ k) := by
  apply BitVec.eq_of_toNat_eq
  rw [BitVec.toNat_shiftLeft, Nat.shiftLeft_eq, BitVec.toNat_ofNat]

/-- The byte and carry that ShiftE emits, as a number (rule R101). -/
theorem emitted_eq (y : Nat) : (BitVec.ofNat 19 y).extractLsb' 10 9 = BitVec.ofNat 9 (y / 1024) := by
  apply BitVec.eq_of_toNat_eq
  simp only [BitVec.extractLsb'_toNat, BitVec.toNat_ofNat, Nat.shiftRight_eq_div_pow]
  omega

/-- The window that ShiftE keeps, as a number (rule R101). -/
theorem kept_eq (y : Nat) : BitVec.ofNat 19 y &&& 0x3FF = BitVec.ofNat 19 (y % 1024) := by
  apply BitVec.eq_of_toNat_eq
  have h : (0x3FF : BitVec 19).toNat = 2 ^ 10 - 1 := rfl
  rw [BitVec.toNat_and, h, Nat.and_two_pow_sub_one_eq_mod, BitVec.toNat_ofNat, BitVec.toNat_ofNat]
  omega

/-- The unit after `k` shifts of the range and the low, `ENC.CNT < k ≤ ENC.CNT + 8`, one of which emitted a byte
(rules R100, R101). -/
def EncUnit.afterEmission (k : Nat) (u : EncUnit) : EncUnit :=
  let y := u.l.toNat * 2 ^ (u.cnt.toNat + 1)
  let j := k - u.cnt.toNat - 1
  { u.resolve (BitVec.ofNat 9 (y / 1024)) with
    r := u.r <<< k, l := BitVec.ofNat 19 (y % 1024 * 2 ^ j), cnt := BitVec.ofNat 4 (7 - j) }

/-- A renormalization turn at counter 0, with room for the byte; the unit is `u` but for its arithmetic registers
(rules R100, R101). -/
theorem renormE_turn_emits (cfg : Config) (n : Nat) (u : EncUnit) (r : BitVec 9) (l : BitVec 19) (cnt : BitVec 4)
    (hr : r.toNat < 256) (hc : cnt = 0) (hp : u.produced < cfg.outCap) :
    renormE cfg (n + 1) { u with r := r, l := l, cnt := cnt } =
      renormE cfg n { u.resolve ((l <<< 1).extractLsb' 10 9) with
        r := r <<< 1, l := (l <<< 1) &&& 0x3FF, cnt := 7 } := by
  have hs := shiftE_emits cfg { u with r := r <<< 1, l := l, cnt := cnt } hc hp
  have hw := EncUnit.resolve_with ((l <<< 1).extractLsb' 10 9) u (r <<< 1) l cnt u.ctx
  refine Eq.trans (renormE_turn cfg n _ hr) ?_
  refine Eq.trans (congrArg (fun x => Res.bind x fun _ v => renormE cfg n v) hs) ?_
  refine Eq.trans (congrArg (fun v : EncUnit => renormE cfg n { v with l := (l <<< 1) &&& 0x3FF, cnt := 7 }) hw) ?_
  simp only [EncUnit.resolve_ctx]

/-- `k` renormalization turns, one of which emits a byte (rules R100, R101). -/
theorem renormE_emitting (cfg : Config) (k n : Nat) (u : EncUnit) (hk : u.cnt.toNat < k) (hk' : k ≤ u.cnt.toNat + 8)
    (hr : u.r.toNat * 2 ^ k < 512) (hp : u.produced < cfg.outCap) :
    renormE cfg (n + k) u = renormE cfg n (u.afterEmission k) := by
  obtain ⟨j, rfl⟩ : ∃ j, k = u.cnt.toNat + 1 + j := ⟨k - u.cnt.toNat - 1, by omega⟩
  have hpow : u.r.toNat * 2 ^ (u.cnt.toNat + 1 + j) = u.r.toNat * 2 ^ u.cnt.toNat * 2 * 2 ^ j := by
    rw [Nat.pow_add, Nat.pow_succ, Nat.mul_assoc, Nat.mul_assoc, Nat.mul_assoc]
  have hj : 0 < 2 ^ j := Nat.two_pow_pos j
  have hle : u.r.toNat * 2 ^ u.cnt.toNat * 2 ≤ u.r.toNat * 2 ^ u.cnt.toNat * 2 * 2 ^ j := Nat.le_mul_of_pos_right _ hj
  have hrc : (u.r <<< u.cnt.toNat).toNat = u.r.toNat * 2 ^ u.cnt.toNat := BitVec.toNat_shiftLeft_of_le _ _ (by omega)
  have hrc1 : (u.r <<< u.cnt.toNat <<< 1).toNat = u.r.toNat * 2 ^ u.cnt.toNat * 2 := by
    rw [BitVec.toNat_shiftLeft_of_le _ _ (by rw [hrc]; omega), hrc, Nat.pow_one]
  have hly : u.l <<< u.cnt.toNat <<< 1 = BitVec.ofNat 19 (u.l.toNat * 2 ^ (u.cnt.toNat + 1)) := by
    rw [← BitVec.shiftLeft_add, BitVec.shiftLeft_eq_ofNat]
  have h7 : (7 : BitVec 4).toNat = 7 := rfl
  have hy : u.l.toNat * 2 ^ (u.cnt.toNat + 1) % 1024 < 1024 := Nat.mod_lt _ (by omega)
  rw [show n + (u.cnt.toNat + 1 + j) = (n + j + 1) + u.cnt.toNat by omega,
    renormE_quiet cfg u.cnt.toNat _ u (Nat.le_refl _) (by omega),
    renormE_turn_emits cfg _ u _ _ _ (by rw [hrc]; omega) (by simp) hp, hly, emitted_eq, kept_eq,
    renormE_quiet cfg j]
  · unfold EncUnit.afterEmission
    simp only
    congr 2
    · rw [← BitVec.shiftLeft_add, ← BitVec.shiftLeft_add]
      congr 1
      omega
    · rw [BitVec.shiftLeft_eq_ofNat, BitVec.toNat_ofNat, Nat.mod_eq_of_lt (by omega)]
      congr 3
      omega
    · rw [h7]
      congr 2
      omega
  · show j ≤ (7 : BitVec 4).toNat
    omega
  · simp only [hrc1]
    omega

/-- The closed form of the renormalization: the unit after `k` turns, `k` at most 8 above the counter. -/
def EncUnit.shifted (k : Nat) (u : EncUnit) : EncUnit :=
  if k ≤ u.cnt.toNat then
    { u with r := u.r <<< k, l := u.l <<< k, cnt := BitVec.ofNat 4 (u.cnt.toNat - k) }
  else u.afterEmission k

/-- The renormalization from a range that `k` doublings bring to at least 256, with room for one byte (rule R100). -/
theorem renormE_closed (cfg : Config) (k : Nat) (u : EncUnit) (hk : k ≤ 8) (hlo : 256 ≤ u.r.toNat * 2 ^ k)
    (hhi : u.r.toNat * 2 ^ k < 512) (hp : u.produced < cfg.outCap) :
    renormE cfg renormTurns u = .ok () (u.shifted k) := by
  have hr : (u.r <<< k).toNat = u.r.toNat * 2 ^ k := BitVec.toNat_shiftLeft_of_le _ _ hhi
  unfold EncUnit.shifted
  split
  · rename_i h
    rw [show renormTurns = (8 - k) + k by simp only [renormTurns]; omega, renormE_quiet cfg k _ u h hhi,
      renormE_done _ _ _ (by simp only [hr]; omega)]
  · rename_i h
    rw [show renormTurns = (8 - k) + k by simp only [renormTurns]; omega,
      renormE_emitting cfg k _ u (by omega) (by omega) hhi hp, renormE_done]
    simp only [EncUnit.afterEmission, hr]
    omega

end Sys2Proof.Machine
end

