-- ==== Sys2Proof/Laws/EncTrack.lean ====
section
/-! SUPPORT. What a shift of the encoder does to its numbers (rules R101, R102, R121, R122): the whole low doubles, one
more bit is produced, the low bound is kept. -/

namespace Sys2Proof.Machine

open Safety

/-! The number a buffer spells. -/

theorem bytesValue_congr (f g : Nat → Byte) (n : Nat) (h : ∀ i < n, f i = g i) : bytesValue f n = bytesValue g n := by
  induction n with
  | zero => rfl
  | succ n ih =>
    simp only [bytesValue]
    rw [ih fun i hi => h i (by omega), h n (by omega)]

theorem EncUnit.outByte_outLen_toNat (u : EncUnit) (v : Byte) (h : u.outLen.toNat + 1 < 2 ^ 17) :
    (u.outByte v).outLen.toNat = u.outLen.toNat + 1 := EncUnit.outRun_outLen v 1 u h

/-- OutByte appends one base-256 digit (rule R103). -/
theorem bytesValue_outByte (u : EncUnit) (v : Byte) (h : u.outLen.toNat + 1 < 2 ^ 17) :
    bytesValue (u.outByte v).outByteAt (u.outByte v).outLen.toNat =
      256 * bytesValue u.outByteAt u.outLen.toNat + v.toNat := by
  rw [EncUnit.outByte_outLen_toNat u v h]
  simp only [bytesValue, EncUnit.outByteAt_outByte, if_true]
  congr 2
  apply bytesValue_congr
  intro i hi
  rw [EncUnit.outByteAt_outByte, if_neg (by omega)]

/-- A run of zero bytes (rule R102). -/
theorem bytesValue_outRun_zero (u : EncUnit) (n : Nat) (h : u.outLen.toNat + n < 2 ^ 17) :
    bytesValue (u.outRun 0x00 n).outByteAt (u.outRun 0x00 n).outLen.toNat =
      bytesValue u.outByteAt u.outLen.toNat * 256 ^ n := by
  induction n generalizing u with
  | zero => simp [EncUnit.outRun]
  | succ n ih =>
    have h₁ := EncUnit.outByte_outLen_toNat u 0x00 (by omega)
    simp only [EncUnit.outRun]
    rw [ih _ (by omega), bytesValue_outByte _ _ (by omega), Nat.pow_succ]
    have : (0x00 : Byte).toNat = 0 := rfl
    rw [this]
    ring

/-- A run of 0xFF bytes (rules R102, R105). -/
theorem bytesValue_outRun_ff (u : EncUnit) (n : Nat) (h : u.outLen.toNat + n < 2 ^ 17) :
    bytesValue (u.outRun 0xFF n).outByteAt (u.outRun 0xFF n).outLen.toNat + 1 =
      (bytesValue u.outByteAt u.outLen.toNat + 1) * 256 ^ n := by
  induction n generalizing u with
  | zero => simp [EncUnit.outRun]
  | succ n ih =>
    have h₁ := EncUnit.outByte_outLen_toNat u 0xFF (by omega)
    simp only [EncUnit.outRun]
    rw [ih _ (by omega), bytesValue_outByte _ _ (by omega), Nat.pow_succ]
    have : (0xFF : Byte).toNat = 255 := rfl
    rw [this]
    ring

/-! The carry-resolving state machine (rule R102). -/

/-- An `out` the state machine may meet (rules R106, R121): with a byte held, at most 0x17F; the first one, at most 0xFE. -/
def OutOk (out : BitVec 9) (u : EncUnit) : Prop :=
  if u.pendValid then u.pend ≠ 0xFF ∧ out.toNat ≤ 383 else out.toNat ≤ 254 ∧ u.ffRun = 0 ∧ u.outLen = 0

theorem carry_iff (out : BitVec 9) : out.getLsbD 8 = decide (256 ≤ out.toNat) := by
  have h := out.isLt
  rw [BitVec.getLsbD, Nat.testBit, Nat.shiftRight_eq_div_pow, Nat.one_and_eq_mod_two]
  by_cases hc : 256 ≤ out.toNat
  · rw [show out.toNat / 2 ^ 8 % 2 = 1 by omega]
    simp [hc]
  · rw [show out.toNat / 2 ^ 8 % 2 = 0 by omega]
    simp [hc]

theorem byte_toNat (out : BitVec 9) : (out.extractLsb' 0 8).toNat = out.toNat % 256 := by
  simp [BitVec.extractLsb'_toNat]

@[simp] theorem EncUnit.outByteAt_hold (b : Byte) (u : EncUnit) : (u.hold b).outByteAt = u.outByteAt := rfl

/-- What Emit's state machine does to the counts and the number (rule R102): one more byte is produced, PEND is never 0xFF
(rule R122), and the produced number gains the digit `out`, its carry included. -/
theorem EncUnit.resolve_track (out : BitVec 9) (u : EncUnit) (h : OutOk out u) (hp : u.produced < 65536) :
    (u.resolve out).pendValid = true ∧ (u.resolve out).pend ≠ 0xFF ∧
    (u.resolve out).produced = u.produced + 1 ∧
    producedValue (u.resolve out) = 256 * producedValue u + out.toNat := by
  have hout := out.isLt
  have hbyte := byte_toNat out
  have hff : (0xFF : Byte).toNat = 255 := rfl
  have h0 : (0 : BitVec 17).toNat = 0 := rfl
  have hb : ∀ b : Byte, b ≠ 0xFF ↔ b.toNat ≠ 255 := fun b => by
    rw [← hff, ne_eq, ne_eq, BitVec.toNat_inj]
  simp only [EncUnit.produced] at hp
  unfold OutOk at h
  unfold EncUnit.resolve
  simp only [carry_iff, decide_eq_true_eq]
  by_cases hv : u.pendValid = true
  · rw [if_pos hv] at h
    obtain ⟨hpend, hout'⟩ := h
    have hpn : u.pend.toNat < 255 := by
      have := (hb _).1 hpend
      have := u.pend.isLt
      omega
    simp only [hv, Bool.toNat_true] at hp
    have hlen := u.outLen.isLt
    by_cases hc : 256 ≤ out.toNat
    · rw [if_pos hc]
      have h1 : (u.pend + 1).toNat = u.pend.toNat + 1 := by
        have : (1 : Byte).toNat = 1 := rfl
        rw [BitVec.toNat_add]
        omega
      have hl := EncUnit.outByte_outLen_toNat u (u.pend + 1) (by omega)
      have hl' := EncUnit.outRun_outLen 0x00 u.ffRun.toNat (u.outByte (u.pend + 1)) (by omega)
      have hval := bytesValue_outRun_zero (u.outByte (u.pend + 1)) u.ffRun.toNat (by omega)
      rw [bytesValue_outByte _ _ (by omega), h1] at hval
      refine ⟨rfl, ?_, ?_, ?_⟩
      · rw [hb, EncUnit.hold_pend, hbyte]
        omega
      · simp only [EncUnit.produced, EncUnit.hold_outLen, EncUnit.hold_pendValid, EncUnit.hold_ffRun, hl', hl, hv,
          Bool.toNat_true, h0]
      · have hpos : 1 ≤ 256 ^ u.ffRun.toNat := Nat.one_le_pow _ _ (by omega)
        simp only [producedValue, EncUnit.hold_pendValid, EncUnit.hold_pend, EncUnit.hold_ffRun, if_true, hv, hbyte]
        simp only [EncUnit.outByteAt_hold, EncUnit.hold_outLen, hval, h0, Nat.pow_zero, Nat.mul_one]
        generalize bytesValue u.outByteAt u.outLen.toNat = w
        have hge : 1 ≤ (256 * w + u.pend.toNat + 1) * 256 ^ u.ffRun.toNat := Nat.mul_pos (by omega) hpos
        rw [show 256 * w + (u.pend.toNat + 1) = 256 * w + u.pend.toNat + 1 by omega]
        generalize (256 * w + u.pend.toNat + 1) * 256 ^ u.ffRun.toNat = z at *
        omega
    · rw [if_neg hc]
      by_cases hbff : out.extractLsb' 0 8 = 0xFF
      · rw [if_pos hbff]
        have hb255 : out.toNat = 255 := by
          have := congrArg BitVec.toNat hbff
          rw [hbyte, hff] at this
          omega
        have hf := u.ffRun.isLt
        have h1 : (u.ffRun + 1).toNat = u.ffRun.toNat + 1 := by
          have : (1 : BitVec 17).toNat = 1 := rfl
          rw [BitVec.toNat_add]
          omega
        refine ⟨hv, hpend, ?_, ?_⟩
        · simp only [EncUnit.produced, h1]
          omega
        · simp only [producedValue, h1, hv, if_true]
          rw [show bytesValue (EncUnit.outByteAt { u with pendValid := true, ffRun := u.ffRun + 1 }) u.outLen.toNat =
            bytesValue u.outByteAt u.outLen.toNat from rfl, Nat.pow_succ, hb255]
          have hpos : 1 ≤ 256 ^ u.ffRun.toNat := Nat.one_le_pow _ _ (by omega)
          generalize bytesValue u.outByteAt u.outLen.toNat = w
          have hge : 1 ≤ (256 * w + u.pend.toNat + 1) * 256 ^ u.ffRun.toNat := Nat.mul_pos (by omega) hpos
          rw [← Nat.mul_assoc]
          generalize (256 * w + u.pend.toNat + 1) * 256 ^ u.ffRun.toNat = z at *
          omega
      · rw [if_neg hbff, if_pos hv]
        have hl := EncUnit.outByte_outLen_toNat u u.pend (by omega)
        have hl' := EncUnit.outRun_outLen 0xFF u.ffRun.toNat (u.outByte u.pend) (by omega)
        have hval := bytesValue_outRun_ff (u.outByte u.pend) u.ffRun.toNat (by omega)
        rw [bytesValue_outByte _ _ (by omega)] at hval
        refine ⟨rfl, hbff, ?_, ?_⟩
        · simp only [EncUnit.produced, EncUnit.hold_outLen, EncUnit.hold_pendValid, EncUnit.hold_ffRun, hl', hl, hv,
            Bool.toNat_true, h0]
        · simp only [producedValue, EncUnit.hold_pendValid, EncUnit.hold_pend, EncUnit.hold_ffRun, if_true, hv, hbyte]
          simp only [EncUnit.outByteAt_hold, EncUnit.hold_outLen, h0, Nat.pow_zero, Nat.mul_one]
          generalize bytesValue u.outByteAt u.outLen.toNat = w at *
          generalize (256 * w + u.pend.toNat + 1) * 256 ^ u.ffRun.toNat = z at *
          omega
  · rw [if_neg hv] at h
    obtain ⟨hout', hf, hl⟩ := h
    have hbff : out.extractLsb' 0 8 ≠ 0xFF := by
      rw [hb, hbyte]
      omega
    rw [if_neg (by omega), if_neg hbff, if_neg hv]
    refine ⟨rfl, hbff, ?_, ?_⟩
    · simp only [EncUnit.produced, EncUnit.hold_outLen, EncUnit.hold_pendValid, EncUnit.hold_ffRun, hf, hl, hv]
      rfl
    · simp only [producedValue, EncUnit.hold_pendValid, EncUnit.hold_pend, EncUnit.hold_ffRun, if_true, hv, hbyte]
      simp only [EncUnit.outByteAt_hold, EncUnit.hold_outLen, hf, hl, h0, bytesValue, Nat.pow_zero]
      simp
      omega

/-! Shifts. -/

/-- The encoder's bounds with a range `b` (rules R24, R106, R121, R122). -/
def EncUnit.Track (b : Nat) (u : EncUnit) : Prop :=
  if u.pendValid then u.pend ≠ 0xFF ∧ u.cnt.toNat ≤ 7 ∧ u.l.toNat + b ≤ 1533 * 2 ^ (7 - u.cnt.toNat)
  else u.cnt.toNat ≤ 8 ∧ u.ffRun = 0 ∧ u.outLen = 0 ∧ u.l.toNat + b ≤ 510 * 2 ^ (8 - u.cnt.toNat)

/-- The bytes produced fit the capacity, and OUT_BUF is in canonical form inside it. -/
def EncUnit.Stored (cap : Nat) (u : EncUnit) : Prop :=
  u.produced ≤ cap ∧ u.outBuf.wf ∧ ∀ e ∈ u.outBuf, e.1 < cap

/-- The shifts made since the start of the session: 8 for each byte produced, and those since the last one
(rules R24, R106). -/
def EncUnit.shifts (u : EncUnit) : Nat := 8 * u.produced + 8 - u.cnt.toNat

/-- What a shift, and so every procedure but a bin, leaves alone beside the range. -/
def EncUnit.SameRest (u v : EncUnit) : Prop :=
  v.ctx = u.ctx ∧ v.coefIn = u.coefIn ∧ v.active = u.active ∧ v.outDraw = u.outDraw

theorem EncUnit.SameRest.refl (u : EncUnit) : u.SameRest u := ⟨rfl, rfl, rfl, rfl⟩

theorem EncUnit.SameRest.trans {u v w : EncUnit} (h₁ : u.SameRest v) (h₂ : v.SameRest w) : u.SameRest w :=
  ⟨h₂.1.trans h₁.1, h₂.2.1.trans h₁.2.1, h₂.2.2.1.trans h₁.2.2.1, h₂.2.2.2.trans h₁.2.2.2⟩

theorem EncUnit.Track.mono {b b' : Nat} {u : EncUnit} (h : u.Track b) (hb : b' ≤ b) : u.Track b' := by
  unfold EncUnit.Track at *
  split at h
  · rename_i hv
    rw [if_pos hv]
    exact ⟨h.1, h.2.1, by omega⟩
  · rename_i hv
    rw [if_neg hv]
    exact ⟨h.1, h.2.1, h.2.2.1, by omega⟩

theorem EncUnit.Track.cnt_le {b : Nat} {u : EncUnit} (h : u.Track b) : u.cnt.toNat ≤ 8 := by
  unfold EncUnit.Track at h
  split at h <;> omega

/-- The counter stands above 7 only before the first byte. -/
theorem EncUnit.Track.pend_ne {b : Nat} {u : EncUnit} (h : u.Track b) : u.pendValid = true → u.pend ≠ 0xFF := by
  intro hv
  unfold EncUnit.Track at h
  rw [if_pos hv] at h
  exact h.1

/-- Emit's state machine keeps OUT_BUF in canonical form inside the capacity. -/
theorem EncUnit.resolve_buf (out : BitVec 9) (u : EncUnit) (cap : Nat) (h : u.Stored cap) (hv : OutOk out u)
    (hp : u.produced < cap) (hcap : cap ≤ 65536) :
    (u.resolve out).outBuf.wf ∧ ∀ e ∈ (u.resolve out).outBuf, e.1 < cap := by
  obtain ⟨-, hwf, hbd⟩ := h
  simp only [EncUnit.produced] at hp
  unfold OutOk at hv
  unfold EncUnit.resolve
  simp only [carry_iff, decide_eq_true_eq]
  by_cases hpv : u.pendValid = true
  · simp only [hpv, Bool.toNat_true, if_true] at hp ⊢
    have hl : ∀ v, (u.outByte v).outLen.toNat = u.outLen.toNat + 1 := fun v =>
      EncUnit.outByte_outLen_toNat u v (by omega)
    have hwf' : ∀ v, (u.outByte v).outBuf.wf := fun v => Memory.write_wf _ _ _ hwf
    have hbd' : ∀ v, ∀ e ∈ (u.outByte v).outBuf, e.1 < cap := fun v => Memory.write_bound _ _ _ _ (by omega) hbd
    split
    · exact ⟨EncUnit.outRun_wf _ _ _ (hwf' _),
        EncUnit.outRun_bound _ _ _ _ (by rw [hl]; omega) hcap (hbd' _)⟩
    · split
      · exact ⟨hwf, hbd⟩
      · exact ⟨EncUnit.outRun_wf _ _ _ (hwf' _),
          EncUnit.outRun_bound _ _ _ _ (by rw [hl]; omega) hcap (hbd' _)⟩
  · rw [if_neg hpv] at hv
    rw [if_neg (by omega), if_neg hpv]
    split
    · exact ⟨hwf, hbd⟩
    · exact ⟨hwf, hbd⟩

/-- What the low register holds before a shift fits 18 bits (rule R121). -/
theorem EncUnit.Track.low_lt {b : Nat} {u : EncUnit} (h : u.Track b) (hb : 1 ≤ b) : u.l.toNat * 2 < 2 ^ 19 := by
  have hp : ∀ n, n ≤ 8 → 2 ^ n ≤ 2 ^ 8 := fun n hn => Nat.pow_le_pow_right (by omega) hn
  unfold EncUnit.Track at h
  split at h
  · have : 2 ^ (7 - u.cnt.toNat) ≤ 2 ^ 7 := Nat.pow_le_pow_right (by omega) (by omega)
    have : 1533 * 2 ^ (7 - u.cnt.toNat) ≤ 1533 * 2 ^ 7 := Nat.mul_le_mul_left _ this
    omega
  · have := hp (8 - u.cnt.toNat) (by omega)
    have : 510 * 2 ^ (8 - u.cnt.toNat) ≤ 510 * 2 ^ 8 := Nat.mul_le_mul_left _ this
    omega

/-- The byte and carry a shift at counter 0 emits are ones the state machine may meet (rules R106, R121). -/
theorem EncUnit.Track.outOk {b : Nat} {u : EncUnit} (h : u.Track b) (hb : 1 ≤ b) (hc : u.cnt = 0) :
    OutOk (BitVec.ofNat 9 (u.l.toNat * 2 / 1024)) u ∧ (BitVec.ofNat 9 (u.l.toNat * 2 / 1024)).toNat = u.l.toNat * 2 / 1024 := by
  have hl := h.low_lt hb
  have h9 : (BitVec.ofNat 9 (u.l.toNat * 2 / 1024)).toNat = u.l.toNat * 2 / 1024 := by
    rw [BitVec.toNat_ofNat]
    omega
  refine ⟨?_, h9⟩
  have h0 : (0 : BitVec 4).toNat = 0 := rfl
  unfold OutOk
  unfold EncUnit.Track at h
  rw [h9]
  split
  · rename_i hv
    rw [if_pos hv, hc, h0] at h
    refine ⟨h.1, ?_⟩
    have := h.2.2
    omega
  · rename_i hv
    rw [if_neg hv, hc, h0] at h
    refine ⟨?_, h.2.1, h.2.2.1⟩
    have := h.2.2.2
    omega

/-- One shift (rule R101) with room for the byte it may emit: it answers, it tells whether it emitted, and it keeps the
bounds for twice the range, doubles the whole low and counts one more shift. -/
theorem shiftE_track (cfg : Config) (b : Nat) (u : EncUnit) (h : u.Track b) (hb : 1 ≤ b) (hs : u.Stored cfg.outCap)
    (hcap : cfg.outCap ≤ 65536) (hroom : u.cnt = 0 → u.produced < cfg.outCap) :
    ∃ v, shiftE cfg u = .ok (decide (u.cnt = 0)) v ∧ (∀ b' ≤ 510, b' ≤ 2 * b → v.Track b') ∧
      lowValue v = 2 * lowValue u ∧ v.shifts = u.shifts + 1 ∧ v.Stored cfg.outCap ∧ v.r = u.r ∧ u.SameRest v ∧
      v.cnt.toNat = (if u.cnt = 0 then 7 else u.cnt.toNat - 1) ∧ (u.cnt = 0 → v.l.toNat < 1024) := by
  have hl := h.low_lt hb
  have hl1 : (u.l <<< 1).toNat = u.l.toNat * 2 := BitVec.toNat_shiftLeft_of_le _ 1 (by omega)
  have hc8 := h.cnt_le
  by_cases hc : u.cnt = 0
  · have hroom := hroom hc
    have h0 : u.cnt.toNat = 0 := by rw [hc]; rfl
    have h7 : (7 : BitVec 4).toNat = 7 := rfl
    have hly : u.l <<< 1 = BitVec.ofNat 19 (u.l.toNat * 2) := by rw [BitVec.shiftLeft_eq_ofNat, Nat.pow_one]
    obtain ⟨hok, h9⟩ := h.outOk hb hc
    obtain ⟨t1, t2, t3, t4⟩ := EncUnit.resolve_track _ u hok (by omega)
    obtain ⟨w1, w2⟩ := EncUnit.resolve_buf _ u cfg.outCap hs hok hroom hcap
    have hsh := shiftE_emits cfg u hc hroom
    rw [hly, emitted_eq, kept_eq] at hsh
    have hk : (BitVec.ofNat 19 (u.l.toNat * 2 % 1024)).toNat = u.l.toNat * 2 % 1024 := by
      rw [BitVec.toNat_ofNat]
      omega
    have hpr : ∀ x : EncUnit, ∀ l c, ({ x with l := l, cnt := c } : EncUnit).produced = x.produced := fun _ _ _ => rfl
    have hpv : ∀ x : EncUnit, ∀ l c, producedValue { x with l := l, cnt := c } = producedValue x := fun _ _ _ => rfl
    refine ⟨{ u.resolve (BitVec.ofNat 9 (u.l.toNat * 2 / 1024)) with
        l := BitVec.ofNat 19 (u.l.toNat * 2 % 1024), cnt := 7 }, by rw [hsh, decide_eq_true hc], fun b' hb' _ => ?_, ?_, ?_, ⟨?_, w1, w2⟩, by simp, ⟨by simp, by simp, by simp, by simp⟩,
      by rw [if_pos hc]; rfl, fun _ => by rw [hk]; omega⟩
    · unfold EncUnit.Track
      simp only [t1, if_true, h7, hk]
      exact ⟨t2, Nat.le_refl _, by omega⟩
    · simp only [lowValue, hpv, h7, hk, t4, h9, h0]
      omega
    · simp only [EncUnit.shifts, hpr, t3, h7, h0]
      omega
    · rw [hpr, t3]
      omega
  · have hcn : u.cnt.toNat ≠ 0 := fun h => hc (BitVec.eq_of_toNat_eq h)
    have hc1 : (u.cnt - 1).toNat = u.cnt.toNat - 1 := by
      have : (1 : BitVec 4).toNat = 1 := rfl
      have := u.cnt.isLt
      rw [BitVec.toNat_sub]
      omega
    have hpr : ({ u with l := u.l <<< 1, cnt := u.cnt - 1 } : EncUnit).produced = u.produced := rfl
    have hpv : producedValue { u with l := u.l <<< 1, cnt := u.cnt - 1 } = producedValue u := rfl
    refine ⟨{ u with l := u.l <<< 1, cnt := u.cnt - 1 }, by rw [shiftE_quiet cfg u hc, decide_eq_false hc], fun b' _ hb' => ?_, ?_, ?_, ⟨hs.1, hs.2.1, hs.2.2⟩, rfl,
      EncUnit.SameRest.refl _, by rw [if_neg hc]; exact hc1, fun h => absurd h hc⟩
    · unfold EncUnit.Track at *
      simp only [hl1, hc1]
      split at h
      · rename_i hv
        rw [if_pos hv]
        refine ⟨h.1, by omega, ?_⟩
        rw [show 7 - (u.cnt.toNat - 1) = (7 - u.cnt.toNat) + 1 by omega, Nat.pow_succ]
        have := h.2.2
        omega
      · rename_i hv
        rw [if_neg hv]
        refine ⟨by omega, h.2.1, h.2.2.1, ?_⟩
        rw [show 8 - (u.cnt.toNat - 1) = (8 - u.cnt.toNat) + 1 by omega, Nat.pow_succ]
        have := h.2.2.2
        omega
    · simp only [lowValue, hpv, hl1, hc1]
      by_cases hv : u.pendValid = true
      · have : u.cnt.toNat ≤ 7 := by
          unfold EncUnit.Track at h
          rw [if_pos hv] at h
          exact h.2.1
        rw [show 10 + (7 - (u.cnt.toNat - 1)) = 10 + (7 - u.cnt.toNat) + 1 by omega, Nat.pow_succ]
        ring
      · have hz : producedValue u = 0 := by
          unfold EncUnit.Track at h
          rw [if_neg hv] at h
          simp [producedValue, hv, h.2.1, h.2.2.1, bytesValue]
        rw [hz]
        omega
    · simp only [EncUnit.shifts, hpr, hc1]
      omega

/-- One shift without room for its byte: OUT_OVERFLOW with the unit "as at the failing Emit" (rules R101, R102, R149). -/
theorem shiftE_full (cfg : Config) (u : EncUnit) (hc : u.cnt = 0) (hp : cfg.outCap ≤ u.produced) :
    shiftE cfg u = .raised .outOverflow { u with l := u.l <<< 1 &&& 0x3FF, cnt := 7 } := shiftE_overflows cfg u hc hp

end Sys2Proof.Machine
end

