-- ==== Sys2Proof/Laws/EncFrame.lean ====
section
/-! SUPPORT. Where the encoder's procedures store, and what they leave alone, whatever their outcome (rules R62, R103). -/

namespace Sys2Proof.Machine

open Safety

/-- From `u` to `v` bytes were stored at the indices from the old OUT_LEN up to the new one alone (rule R103), COEF_IN and
the draw being kept. -/
structure EncUnit.Appends (u v : EncUnit) : Prop where
  le : u.outLen.toNat ≤ v.outLen.toNat
  bytes : ∀ a, a < u.outLen.toNat ∨ v.outLen.toNat ≤ a → v.outByteAt a = u.outByteAt a
  coefIn : v.coefIn = u.coefIn
  active : v.active = u.active

theorem EncUnit.Appends.refl (u : EncUnit) : u.Appends u := ⟨Nat.le_refl _, fun _ _ => rfl, rfl, rfl⟩

theorem EncUnit.Appends.trans {u v w : EncUnit} (h₁ : u.Appends v) (h₂ : v.Appends w) : u.Appends w := by
  have hl₁ := h₁.le
  have hl₂ := h₂.le
  exact ⟨by omega, fun a ha => (h₂.bytes a (by omega)).trans (h₁.bytes a (by omega)), h₂.coefIn.trans h₁.coefIn,
    h₂.active.trans h₁.active⟩

/-- The held byte and its run written (rules R102, R105). -/
theorem EncUnit.appends_run (u : EncUnit) (x y : Byte) (n : Nat) (h : u.outLen.toNat + 1 + n < 2 ^ 17) :
    u.Appends ((u.outByte x).outRun y n) := by
  have h1 : (u.outByte x).outLen.toNat = u.outLen.toNat + 1 := EncUnit.outByte_outLen_toNat u x (by omega)
  have h2 : ((u.outByte x).outRun y n).outLen.toNat = u.outLen.toNat + 1 + n := by
    rw [EncUnit.outRun_outLen _ _ _ (by omega), h1]
  refine ⟨by omega, fun a ha => ?_, by rw [EncUnit.outRun_eq]; rfl, by rw [EncUnit.outRun_eq]; rfl⟩
  rw [EncUnit.outByteAt_outRun _ _ _ (by omega), EncUnit.outByteAt_outByte, h1, if_neg (by omega), if_neg (by omega)]

theorem EncUnit.resolve_appends (out : BitVec 9) (u : EncUnit) (h : u.outLen.toNat + 1 + u.ffRun.toNat < 2 ^ 17) :
    u.Appends (u.resolve out) := by
  have key : ∀ x y, u.Appends (((u.outByte x).outRun y u.ffRun.toNat).hold (out.extractLsb' 0 8)) := fun x y => by
    obtain ⟨h1, h2, h3, h4⟩ := u.appends_run x y u.ffRun.toNat h
    exact ⟨h1, h2, h3, h4⟩
  unfold EncUnit.resolve
  simp only
  split
  · exact key _ _
  · split
    · exact ⟨Nat.le_refl _, fun _ _ => rfl, rfl, rfl⟩
    · split
      · exact key _ _
      · exact ⟨Nat.le_refl _, fun _ _ => rfl, rfl, rfl⟩

/-- The same wherever the procedure ended. -/
abbrev EncUnit.AppendsIn {α : Type} (u : EncUnit) (x : Res EncUnit α) : Prop := x.Sat u.Appends fun _ v => u.Appends v

theorem EncUnit.AppendsIn.bind {α β : Type} {u : EncUnit} {x : Res EncUnit α} {f : α → EncUnit → Res EncUnit β}
    (hx : u.AppendsIn x) (hf : ∀ a (v : EncUnit), v.AppendsIn (f a v)) : u.AppendsIn (x.bind f) := by
  refine Res.Sat.bind hx fun a v hv => ?_
  have := hf a v
  cases hfa : f a v with
  | ok b w => rw [hfa] at this; exact hv.trans this
  | raised e w => rw [hfa] at this; exact hv.trans this

theorem emit_appends (cfg : Config) (hcap : cfg.outCap ≤ 65536) (out : BitVec 9) (u : EncUnit) :
    u.AppendsIn (emit cfg out u) := by
  rcases emit_cases cfg out u with ⟨-, h⟩ | ⟨hp, h⟩ <;> rw [h]
  · exact EncUnit.Appends.refl u
  · exact u.resolve_appends out (by simp only [EncUnit.produced] at hp; omega)

theorem shiftE_appends (cfg : Config) (hcap : cfg.outCap ≤ 65536) (u : EncUnit) : u.AppendsIn (shiftE cfg u) := by
  unfold shiftE
  simp only
  split
  · refine EncUnit.AppendsIn.bind ?_ fun _ v => EncUnit.Appends.refl v
    have := emit_appends cfg hcap ((u.l <<< 1).extractLsb' 10 9) { u with l := u.l <<< 1 &&& 0x3FF, cnt := 7 }
    have hu : u.Appends { u with l := u.l <<< 1 &&& 0x3FF, cnt := 7 } := ⟨Nat.le_refl _, fun _ _ => rfl, rfl, rfl⟩
    revert this
    generalize emit cfg _ _ = x
    intro this
    cases x with
    | ok a w => exact hu.trans this
    | raised e w => exact hu.trans this
  · exact ⟨Nat.le_refl _, fun _ _ => rfl, rfl, rfl⟩

theorem EncUnit.AppendsIn.from {α : Type} {u v : EncUnit} {x : Res EncUnit α} (hu : u.Appends v) (hx : v.AppendsIn x) :
    u.AppendsIn x := by
  cases x with
  | ok a w => exact hu.trans hx
  | raised e w => exact hu.trans hx

theorem renormE_appends (cfg : Config) (hcap : cfg.outCap ≤ 65536) (n : Nat) (u : EncUnit) :
    u.AppendsIn (renormE cfg n u) := by
  induction n generalizing u with
  | zero => exact EncUnit.Appends.refl u
  | succ n ih =>
    unfold renormE
    split
    · refine EncUnit.AppendsIn.from (v := { u with r := u.r <<< 1 }) ⟨Nat.le_refl _, fun _ _ => rfl, rfl, rfl⟩ ?_
      exact (shiftE_appends cfg hcap _).bind fun _ v => ih v
    · exact EncUnit.Appends.refl u

theorem shiftUntilEmit_appends (cfg : Config) (hcap : cfg.outCap ≤ 65536) (n : Nat) (u : EncUnit) :
    u.AppendsIn (shiftUntilEmit cfg n u) := by
  induction n generalizing u with
  | zero => exact EncUnit.Appends.refl u
  | succ n ih =>
    refine (shiftE_appends cfg hcap u).bind fun e v => ?_
    split
    · exact EncUnit.Appends.refl v
    · exact ih v

theorem flush_appends (cfg : Config) (hcap : cfg.outCap ≤ 65536) (u : EncUnit) : u.AppendsIn (u.flush cfg) := by
  unfold EncUnit.flush
  split
  · exact EncUnit.Appends.refl u
  · rename_i hp
    simp only [EncUnit.produced] at hp
    split
    · rename_i hv
      rw [hv, Bool.toNat_true] at hp
      obtain ⟨h1, h2, h3, h4⟩ := u.appends_run u.pend 0xFF u.ffRun.toNat (by omega)
      exact ⟨h1, h2, h3, h4⟩
    · exact ⟨Nat.le_refl _, fun _ _ => rfl, rfl, rfl⟩

theorem terminate_appends (cfg : Config) (hcap : cfg.outCap ≤ 65536) (u : EncUnit) : u.AppendsIn (terminate cfg u) := by
  unfold terminate
  refine EncUnit.AppendsIn.from (v := { u with r := Config.termRange }) ⟨Nat.le_refl _, fun _ _ => rfl, rfl, rfl⟩ ?_
  exact (renormE_appends cfg hcap _ _).bind fun _ v => (shiftE_appends cfg hcap v).bind fun _ v =>
    (shiftE_appends cfg hcap v).bind fun _ v => (shiftUntilEmit_appends cfg hcap _ v).bind fun _ v =>
    flush_appends cfg hcap v

theorem encodeBin_appends (cfg : Config) (hcap : cfg.outCap ≤ 65536) (b : Bool) (c : Fin 32) (u : EncUnit) :
    u.AppendsIn (encodeBin cfg b c u) := by
  unfold encodeBin
  split
  · exact EncUnit.Appends.refl u
  · refine EncUnit.AppendsIn.from ?_ (renormE_appends cfg hcap _ _)
    unfold EncUnit.codeBin
    simp only
    split <;> exact ⟨Nat.le_refl _, fun _ _ => rfl, rfl, rfl⟩

theorem encodeBins_appends (cfg : Config) (hcap : cfg.outCap ≤ 65536) (bins : List (Bool × Fin 32)) (u : EncUnit) :
    u.AppendsIn (encodeBins cfg bins u) := by
  induction bins generalizing u with
  | nil => exact EncUnit.Appends.refl u
  | cons p bins ih => exact (encodeBin_appends cfg hcap p.1 p.2 u).bind fun _ v => ih v

end Sys2Proof.Machine
end

