-- ==== Sys2Proof/Laws/EncSession.lean ====
section
/-! SUPPORT. The encoder's procedures over a session (rules R99, R100, R105, R106): what they do to the whole low, the
range and the count of shifts when they go through, and what they keep when they raise a fault. -/

namespace Sys2Proof.Machine

open Safety

/-- What a unit keeps at a fault: a held byte is not 0xFF (rule R122), and the buffer is sound. -/
def EncUnit.Loose (cap : Nat) (u : EncUnit) : Prop := (u.pendValid = true → u.pend ≠ 0xFF) ∧ u.Stored cap

/-- A procedure went through as a session step: it made `k` shifts, multiplied the whole low by `2 ^ k`, and kept the bounds
and the buffer. -/
structure EncUnit.Went (cap k : Nat) (u v : EncUnit) : Prop where
  low : lowValue v = lowValue u * 2 ^ k
  shifts : v.shifts = u.shifts + k
  stored : v.Stored cap
  rest : u.SameRest v

theorem EncUnit.Went.refl {cap : Nat} {u : EncUnit} (h : u.Stored cap) : u.Went cap 0 u :=
  ⟨by simp, rfl, h, EncUnit.SameRest.refl u⟩

theorem EncUnit.Went.trans {cap k j : Nat} {u v w : EncUnit} (h₁ : u.Went cap k v) (h₂ : v.Went cap j w) :
    u.Went cap (k + j) w :=
  ⟨by rw [h₂.low, h₁.low, Nat.pow_add, Nat.mul_assoc], by rw [h₂.shifts, h₁.shifts, Nat.add_assoc], h₂.stored,
    h₁.rest.trans h₂.rest⟩

/-- A counter at 0 tells how many shifts there were. -/
theorem EncUnit.shifts_at_zero {u : EncUnit} (hc : u.cnt = 0) : u.shifts = 8 * u.produced + 8 := by
  have : u.cnt.toNat = 0 := by rw [hc]; rfl
  simp only [EncUnit.shifts, this]
  omega

theorem shiftE_went (cfg : Config) (b : Nat) (u : EncUnit) (h : u.Track b) (hb : 1 ≤ b) (hs : u.Stored cfg.outCap)
    (hcap : cfg.outCap ≤ 65536) (hroom : u.shifts < 8 * cfg.outCap + 8) :
    ∃ v, shiftE cfg u = .ok (decide (u.cnt = 0)) v ∧ (∀ b' ≤ 510, b' ≤ 2 * b → v.Track b') ∧ u.Went cfg.outCap 1 v ∧
      v.r = u.r ∧ v.cnt.toNat = (if u.cnt = 0 then 7 else u.cnt.toNat - 1) ∧
      (u.cnt = 0 → v.l.toNat < 1024) := by
  obtain ⟨v, h1, h2, h3, h4, h5, h6, h7, h8⟩ := shiftE_track cfg b u h hb hs hcap fun hc => by
    have := EncUnit.shifts_at_zero hc
    omega
  exact ⟨v, h1, h2, ⟨by rw [h3]; ring, h4, h5, h7⟩, h6, h8⟩

/-- A shift that raises leaves a unit that is sound (rules R101, R102, R149). -/
theorem shiftE_sound (cfg : Config) (b : Nat) (u : EncUnit) (h : u.Track b) (hb : 1 ≤ b) (hs : u.Stored cfg.outCap)
    (hcap : cfg.outCap ≤ 65536) :
    (∃ v, shiftE cfg u = .ok (decide (u.cnt = 0)) v ∧ (∀ b' ≤ 510, b' ≤ 2 * b → v.Track b') ∧ u.Went cfg.outCap 1 v ∧
      v.r = u.r ∧ v.cnt.toNat = (if u.cnt = 0 then 7 else u.cnt.toNat - 1) ∧
      (u.cnt = 0 → v.l.toNat < 1024)) ∨
    (∃ v, shiftE cfg u = .raised .outOverflow v ∧ v.Loose cfg.outCap ∧ u.SameRest v ∧ cfg.outCap ≤ v.produced ∧
      8 * cfg.outCap + 8 ≤ u.shifts) := by
  by_cases hc : u.cnt = 0 ∧ cfg.outCap ≤ u.produced
  · exact .inr ⟨_, shiftE_full cfg u hc.1 hc.2, ⟨h.pend_ne, hs⟩, EncUnit.SameRest.refl u, hc.2, by
      have := EncUnit.shifts_at_zero hc.1
      omega⟩
  · obtain ⟨v, h1, h2, h3, h4, h5, h6, h7, h8⟩ := shiftE_track cfg b u h hb hs hcap fun hz => by
      by_contra hn
      exact hc ⟨hz, by omega⟩
    exact .inl ⟨v, h1, h2, ⟨by rw [h3]; ring, h4, h5, h7⟩, h6, h8⟩

/-- The renormalization (rule R100) from a range that `k` doublings bring to 256..510: with room it goes through. -/
theorem renormE_went (cfg : Config) (k n : Nat) (u : EncUnit) (hkn : k ≤ n) (h : u.Track u.r.toNat) (hr : 1 ≤ u.r.toNat)
    (hlo : 256 ≤ u.r.toNat * 2 ^ k) (hhi : u.r.toNat * 2 ^ k < 512) (hhi' : u.r.toNat ≤ 510) (hs : u.Stored cfg.outCap)
    (hcap : cfg.outCap ≤ 65536) (hroom : u.shifts + k ≤ 8 * cfg.outCap + 8) :
    ∃ v, renormE cfg n u = .ok () v ∧ v.Track v.r.toNat ∧ v.r.toNat = u.r.toNat * 2 ^ k ∧ u.Went cfg.outCap k v := by
  induction k generalizing n u with
  | zero =>
    exact ⟨u, renormE_done _ _ _ (by simpa using hlo), h, by simp, EncUnit.Went.refl hs⟩
  | succ k ih =>
    obtain ⟨n, rfl⟩ : ∃ m, n = m + 1 := ⟨n - 1, by omega⟩
    have hpos : 1 ≤ 2 ^ k := Nat.one_le_two_pow
    have h2 : u.r.toNat * 2 ^ (k + 1) = u.r.toNat * 2 ^ k * 2 := by rw [Nat.pow_succ, Nat.mul_assoc]
    have hle : u.r.toNat ≤ u.r.toNat * 2 ^ k := Nat.le_mul_of_pos_right _ hpos
    have hr1 : (u.r <<< 1).toNat = u.r.toNat * 2 := BitVec.toNat_shiftLeft_of_le u.r 1 (by omega)
    obtain ⟨v, h1, h2', h3, h4, -⟩ := shiftE_went cfg u.r.toNat { u with r := u.r <<< 1 } h hr hs hcap
      (by simp only [EncUnit.shifts, EncUnit.produced] at *; omega)
    have hvr : v.r.toNat = u.r.toNat * 2 := by rw [h4]; exact hr1
    have hmul : v.r.toNat * 2 ^ k = u.r.toNat * 2 ^ (k + 1) := by rw [hvr, h2]; ring
    obtain ⟨w, h5, h6, h7, h8⟩ := ih n v (by omega) (h2' _ (by omega) (by omega)) (by omega) (by omega) (by omega) (by omega) h3.stored
      (by have := h3.shifts; simp only [EncUnit.shifts, EncUnit.produced] at *; omega)
    refine ⟨w, by rw [renormE_turn _ _ _ (by omega), h1, Res.bind_ok, h5], h6, by rw [h7, hmul], ?_⟩
    have h9 := h3.trans h8
    exact ⟨by rw [h9.low, Nat.add_comm]; rfl, by rw [h9.shifts, Nat.add_comm 1 k]; rfl, h9.stored, h9.rest⟩

/-- The renormalization from any range of 1..510, with or without room. -/
theorem renormE_sound (cfg : Config) (k n : Nat) (u : EncUnit) (hkn : k ≤ n) (h : u.Track u.r.toNat) (hr : 1 ≤ u.r.toNat)
    (hlo : 256 ≤ u.r.toNat * 2 ^ k) (hhi : u.r.toNat * 2 ^ k < 512) (hhi' : u.r.toNat ≤ 510) (hs : u.Stored cfg.outCap)
    (hcap : cfg.outCap ≤ 65536) :
    (∃ v, renormE cfg n u = .ok () v ∧ v.Track v.r.toNat ∧ v.r.toNat = u.r.toNat * 2 ^ k ∧ u.Went cfg.outCap k v) ∨
    (∃ v, renormE cfg n u = .raised .outOverflow v ∧ v.Loose cfg.outCap ∧ u.SameRest v ∧ cfg.outCap ≤ v.produced ∧
      8 * cfg.outCap + 9 ≤ u.shifts + k) := by
  induction k generalizing n u with
  | zero =>
    exact .inl ⟨u, renormE_done _ _ _ (by simpa using hlo), h, by simp, EncUnit.Went.refl hs⟩
  | succ k ih =>
    obtain ⟨n, rfl⟩ : ∃ m, n = m + 1 := ⟨n - 1, by omega⟩
    have hpos : 1 ≤ 2 ^ k := Nat.one_le_two_pow
    have h2 : u.r.toNat * 2 ^ (k + 1) = u.r.toNat * 2 ^ k * 2 := by rw [Nat.pow_succ, Nat.mul_assoc]
    have hle : u.r.toNat ≤ u.r.toNat * 2 ^ k := Nat.le_mul_of_pos_right _ hpos
    have hr1 : (u.r <<< 1).toNat = u.r.toNat * 2 := BitVec.toNat_shiftLeft_of_le u.r 1 (by omega)
    have hsu : ({ u with r := u.r <<< 1 } : EncUnit).shifts = u.shifts := rfl
    rcases shiftE_sound cfg u.r.toNat { u with r := u.r <<< 1 } h hr hs hcap with
      ⟨v, h1, h2', h3, h4, -⟩ | ⟨v, h1, h3, h4, h5, h6⟩
    · have hvr : v.r.toNat = u.r.toNat * 2 := by rw [h4]; exact hr1
      have hmul : v.r.toNat * 2 ^ k = u.r.toNat * 2 ^ (k + 1) := by rw [hvr, h2]; ring
      have hturn : renormE cfg (n + 1) u = renormE cfg n v := by
        rw [renormE_turn _ _ _ (by omega), h1, Res.bind_ok]
      rcases ih n v (by omega) (h2' _ (by omega) (by omega)) (by omega) (by omega) (by omega) (by omega) h3.stored with
        ⟨w, h5, h6, h7, h8⟩ | ⟨w, h5, h6, h7, h8, h9⟩
      · have h9 := h3.trans h8
        exact .inl ⟨w, by rw [hturn, h5], h6, by rw [h7, hmul],
          ⟨by rw [h9.low, Nat.add_comm]; rfl, by rw [h9.shifts, Nat.add_comm 1 k]; rfl, h9.stored, h9.rest⟩⟩
      · have := h3.shifts
        exact .inr ⟨w, by rw [hturn, h5], h6, EncUnit.SameRest.trans h3.rest h7, h8, by omega⟩
    · exact .inr ⟨v, by rw [renormE_turn _ _ _ (by omega), h1, Res.bind_raised], h3, h4, h5, by omega⟩

/-! One bin (rule R99). -/

/-- What bin `b` in context `c` adds to the low: the MPS width, if it is the LPS. -/
def lowAdd (u : EncUnit) (b : Bool) (c : Fin 32) (mps : Nat) : Nat := if b = (u.ctx.get c).mps then 0 else mps

/-- The part of the range that bin `b` in context `c` keeps. -/
def partOf (u : EncUnit) (b : Bool) (c : Fin 32) (lps mps : Nat) : Nat := if b = (u.ctx.get c).mps then mps else lps

/-- The entry of context `c` after bin `b` (rules R94, R95). -/
def Ctx.afterBin (cfg : Config) (e : Ctx) (b : Bool) : Ctx := if b = e.mps then e.mpsUpdate cfg else e.lpsUpdate cfg

/-- The unit after the MPS or LPS event of a bin, as one update. -/
theorem EncUnit.codeBin_eq (cfg : Config) (b : Bool) (c : Fin 32) (lps mps : Nat) (u : EncUnit) :
    u.codeBin cfg b c lps mps = { u with
      l := BitVec.ofNat 19 (u.l.toNat + lowAdd u b c mps), r := BitVec.ofNat 9 (partOf u b c lps mps),
      ctx := u.ctx.put c ((u.ctx.get c).afterBin cfg b) } := by
  unfold EncUnit.codeBin lowAdd partOf Ctx.afterBin
  simp only
  split
  · congr 1
    simp
  · rfl

/-- The MPS or LPS event keeps the bounds: the low and the range together do not grow (rule R121). -/
theorem EncUnit.codeBin_track (cfg : Config) (b : Bool) (c : Fin 32) (lps mps : Nat) (u : EncUnit)
    (h : u.Track u.r.toNat) (hsum : lps + mps = u.r.toNat) (hl : 1 ≤ lps) (hm : 1 ≤ mps) :
    (u.codeBin cfg b c lps mps).Track (partOf u b c lps mps) ∧
    (u.codeBin cfg b c lps mps).l.toNat = u.l.toNat + lowAdd u b c mps ∧
    (u.codeBin cfg b c lps mps).r.toNat = partOf u b c lps mps ∧
    lowAdd u b c mps + partOf u b c lps mps ≤ u.r.toNat ∧ 1 ≤ partOf u b c lps mps := by
  have hr := u.r.isLt
  have hadd : lowAdd u b c mps + partOf u b c lps mps ≤ u.r.toNat ∧ 1 ≤ partOf u b c lps mps := by
    unfold lowAdd partOf
    split <;> omega
  have h1 := h.mono (b' := 1) (by omega)
  have hlt := h.low_lt (by omega)
  have hll : u.l.toNat + lowAdd u b c mps < 2 ^ 19 := by omega
  have hl' : (u.codeBin cfg b c lps mps).l.toNat = u.l.toNat + lowAdd u b c mps := by
    rw [EncUnit.codeBin_eq]
    simp only [BitVec.toNat_ofNat]
    exact Nat.mod_eq_of_lt hll
  refine ⟨?_, hl', ?_, hadd⟩
  · unfold EncUnit.Track at *
    rw [hl', EncUnit.codeBin_eq]
    simp only
    split at h
    · rename_i hv
      rw [if_pos hv]
      exact ⟨h.1, h.2.1, by omega⟩
    · rename_i hv
      rw [if_neg hv]
      exact ⟨h.1, h.2.1, h.2.2.1, by omega⟩
  · rw [EncUnit.codeBin_eq]
    simp only [BitVec.toNat_ofNat]
    omega

/-- A bin that goes through, as numbers: some `k ≤ 8` doublings of the part it keeps, and the low advanced and doubled as
often (rules R99, R100). -/
structure EncUnit.Binned (cfg : Config) (b : Bool) (c : Fin 32) (k : Nat) (u v : EncUnit) : Prop where
  track : v.Track v.r.toNat
  range : v.r.toNat = partOf u b c (lpsWidth cfg u.r (u.ctx.get c)) (mpsWidth cfg u.r (u.ctx.get c)) * 2 ^ k
  range_lo : 256 ≤ v.r.toNat
  range_hi : v.r.toNat ≤ 510
  low : lowValue v = (lowValue u + lowAdd u b c (mpsWidth cfg u.r (u.ctx.get c))) * 2 ^ k
  shifts : v.shifts = u.shifts + k
  turns : k ≤ 8
  stored : v.Stored cfg.outCap
  ctx : v.ctx = u.ctx.put c ((u.ctx.get c).afterBin cfg b)
  coefIn : v.coefIn = u.coefIn
  active : v.active = u.active
  outDraw : v.outDraw = u.outDraw

/-- One bin: ZERO_WIDTH with nothing changed, or it goes through, or OUT_OVERFLOW; the last not where there is room for the
shifts it makes, at most 8 (rules R99, R102, R107). -/
theorem encodeBin_cases (cfg : Config) (b : Bool) (c : Fin 32) (u : EncUnit) (h : u.Track u.r.toNat)
    (hr : 256 ≤ u.r.toNat) (hr' : u.r.toNat ≤ 510) (hs : u.Stored cfg.outCap) (hcap : cfg.outCap ≤ 65536) :
    (widths cfg u.r (u.ctx.get c).state = none ∧ encodeBin cfg b c u = .raised .zeroWidth u) ∨
    (∃ k v, encodeBin cfg b c u = .ok () v ∧ u.Binned cfg b c k v) ∨
    (∃ v, encodeBin cfg b c u = .raised .outOverflow v ∧ v.Loose cfg.outCap ∧ cfg.outCap ≤ v.produced ∧
      v.ctx = u.ctx.put c ((u.ctx.get c).afterBin cfg b) ∧ v.coefIn = u.coefIn ∧ v.active = u.active ∧
      v.outDraw = u.outDraw ∧ 8 * cfg.outCap < u.shifts) := by
  cases hw : widths cfg u.r (u.ctx.get c).state with
  | none =>
    left
    simp [encodeBin, hw]
  | some p =>
    right
    obtain ⟨lps, mps⟩ := p
    obtain ⟨e1, e2, e3, e4⟩ := widths_some hw
    have hlps : lps = lpsWidth cfg u.r (u.ctx.get c) := e1
    have hmps : mps = mpsWidth cfg u.r (u.ctx.get c) := by
      unfold mpsWidth
      omega
    obtain ⟨t1, t2, t3, t4, t5⟩ := EncUnit.codeBin_track cfg b c lps mps u h e2 e3 e4
    obtain ⟨k, hk, hlo, hhi⟩ := exists_doublings (partOf u b c lps mps) t5 (by omega)
    have hexec : encodeBin cfg b c u = renormE cfg renormTurns (u.codeBin cfg b c lps mps) := by
      simp [encodeBin, hw]
    have hst : (u.codeBin cfg b c lps mps).Stored cfg.outCap := by
      rw [EncUnit.codeBin_eq]
      exact hs
    have hsh : (u.codeBin cfg b c lps mps).shifts = u.shifts := by
      rw [EncUnit.codeBin_eq]
      rfl
    have hlow : lowValue (u.codeBin cfg b c lps mps) = lowValue u + lowAdd u b c mps := by
      have hp : producedValue (u.codeBin cfg b c lps mps) = producedValue u := by
        rw [EncUnit.codeBin_eq]
        rfl
      have hcnt : (u.codeBin cfg b c lps mps).cnt = u.cnt := by rw [EncUnit.codeBin_eq]
      simp only [lowValue, hp, hcnt, t2]
      omega
    have hrest : ∀ v, (u.codeBin cfg b c lps mps).SameRest v → v.ctx = u.ctx.put c ((u.ctx.get c).afterBin cfg b) ∧
        v.coefIn = u.coefIn ∧ v.active = u.active ∧ v.outDraw = u.outDraw := by
      intro v hv
      rw [EncUnit.codeBin_eq] at hv
      exact hv
    by_cases hroom : u.shifts + k ≤ 8 * cfg.outCap + 8
    · left
      obtain ⟨v, h1, h2, h3, h4⟩ := renormE_went cfg k renormTurns (u.codeBin cfg b c lps mps) hk (by rw [t3]; exact t1)
        (by omega) (by rw [t3]; exact hlo) (by rw [t3]; exact hhi) (by omega) hst hcap (by rw [hsh]; exact hroom)
      obtain ⟨r1, r2, r3, r4⟩ := hrest v h4.rest
      have heven : v.r.toNat ≤ 510 := by
        rw [h3, t3]
        cases k with
        | zero => rw [Nat.pow_zero, Nat.mul_one]; omega
        | succ k =>
          rw [Nat.pow_succ, ← Nat.mul_assoc] at hhi ⊢
          omega
      exact ⟨k, v, by rw [hexec, h1], ⟨h2, by rw [h3, t3, ← hlps, ← hmps], by rw [h3, t3]; exact hlo, heven,
        by rw [h4.low, hlow, ← hmps], by rw [h4.shifts, hsh], hk, h4.stored, r1, r2, r3, r4⟩⟩
    · rcases renormE_sound cfg k renormTurns (u.codeBin cfg b c lps mps) hk (by rw [t3]; exact t1)
        (by omega) (by rw [t3]; exact hlo) (by rw [t3]; exact hhi) (by omega) hst hcap with
        ⟨v, h1, h2, h3, h4⟩ | ⟨v, h1, h2, h3, h4, -⟩
      · left
        obtain ⟨r1, r2, r3, r4⟩ := hrest v h4.rest
        have heven : v.r.toNat ≤ 510 := by
          rw [h3, t3]
          cases k with
          | zero => rw [Nat.pow_zero, Nat.mul_one]; omega
          | succ k =>
            rw [Nat.pow_succ, ← Nat.mul_assoc] at hhi ⊢
            omega
        exact ⟨k, v, by rw [hexec, h1], ⟨h2, by rw [h3, t3, ← hlps, ← hmps], by rw [h3, t3]; exact hlo, heven,
          by rw [h4.low, hlow, ← hmps], by rw [h4.shifts, hsh], hk, h4.stored, r1, r2, r3, r4⟩⟩
      · right
        obtain ⟨r1, r2, r3, r4⟩ := hrest v h3
        exact ⟨v, by rw [hexec, h1], h2, h4, r1, r2, r3, r4, by omega⟩

/-! Lists of bins. -/

theorem encodeBins_append (cfg : Config) (xs ys : List (Bool × Fin 32)) (u : EncUnit) :
    encodeBins cfg (xs ++ ys) u = (encodeBins cfg xs u).bind fun _ v => encodeBins cfg ys v := by
  induction xs generalizing u with
  | nil => rfl
  | cons p xs ih =>
    obtain ⟨b, c⟩ := p
    simp only [List.cons_append, encodeBins, Res.bind_assoc, ih]

/-- A list of bins that finds every width legal and room for 8 shifts a bin goes through, and leaves a sound unit
(rules R99, R129). -/
theorem encodeBins_went (cfg : Config) (hc : cfg.Legal) (bins : List (Bool × Fin 32)) (u : EncUnit)
    (h : u.Track u.r.toNat) (hr : 256 ≤ u.r.toNat) (hr' : u.r.toNat ≤ 510) (hs : u.Stored cfg.outCap)
    (hroom : u.shifts + 8 * bins.length ≤ 8 * cfg.outCap) :
    ∃ v, encodeBins cfg bins u = .ok () v ∧ v.Track v.r.toNat ∧ 256 ≤ v.r.toNat ∧ v.r.toNat ≤ 510 ∧
      v.Stored cfg.outCap ∧ v.shifts ≤ u.shifts + 8 * bins.length ∧ v.coefIn = u.coefIn ∧ v.active = u.active ∧
      v.outDraw = u.outDraw := by
  have hcap := hc.2.2.2.1.2
  induction bins generalizing u with
  | nil => exact ⟨u, rfl, h, hr, hr', hs, by simp, rfl, rfl, rfl⟩
  | cons p bins ih =>
    obtain ⟨b, c⟩ := p
    simp only [List.length_cons] at hroom
    rcases encodeBin_cases cfg b c u h hr hr' hs hcap with ⟨hw, -⟩ | ⟨k, v, h1, h2⟩ | ⟨v, -, -, -, -, -, -, -, h2⟩
    · rw [widths_legal (hc.1 _) hr] at hw
      simp at hw
    · have hk := h2.turns
      have hsh := h2.shifts
      obtain ⟨w, w1, w2, w3, w4, w5, w6, w7, w8, w9⟩ := ih v h2.track h2.range_lo h2.range_hi h2.stored (by omega)
      refine ⟨w, by simp only [encodeBins, h1, Res.bind_ok, w1], w2, w3, w4, w5, by simp only [List.length_cons]; omega,
        w7.trans h2.coefIn, w8.trans h2.active, w9.trans h2.outDraw⟩
    · omega

/-! Termination (rule R105). -/

/-- The padding loop ends at the shift that emits (rule R105). -/
theorem shiftUntilEmit_sound (cfg : Config) (n : Nat) (u : EncUnit) (hn : u.cnt.toNat < n) (h : u.Track 256)
    (hs : u.Stored cfg.outCap) (hcap : cfg.outCap ≤ 65536) :
    (∃ v, shiftUntilEmit cfg n u = .ok () v ∧ v.Track 256 ∧ u.Went cfg.outCap (u.cnt.toNat + 1) v ∧ v.r = u.r ∧
      v.cnt.toNat = 7 ∧ v.l.toNat < 1024) ∨
    (∃ v, shiftUntilEmit cfg n u = .raised .outOverflow v ∧ v.Loose cfg.outCap ∧ u.SameRest v ∧ cfg.outCap ≤ v.produced ∧
      8 * cfg.outCap + 8 ≤ u.shifts + u.cnt.toNat) := by
  induction n generalizing u with
  | zero => omega
  | succ n ih =>
    have hturn : shiftUntilEmit cfg (n + 1) u =
      (shiftE cfg u).bind fun e v => if e then .ok () v else shiftUntilEmit cfg n v := rfl
    rcases shiftE_sound cfg 256 u h (by omega) hs hcap with ⟨v, h1, h2, h3, h4, h5, h6⟩ | ⟨v, h1, h2, h3, h4, h5⟩
    · by_cases hc : u.cnt = 0
      · have h0 : u.cnt.toNat = 0 := by rw [hc]; rfl
        rw [if_pos hc] at h5
        exact .inl ⟨v, by rw [hturn, h1, Res.bind_ok, decide_eq_true hc]; rfl, h2 256 (by omega) (by omega),
          by rw [h0]; exact h3, h4, h5, h6 hc⟩
      · have hcn : u.cnt.toNat ≠ 0 := fun h => hc (BitVec.eq_of_toNat_eq h)
        rw [if_neg hc] at h5
        have hgo : shiftUntilEmit cfg (n + 1) u = shiftUntilEmit cfg n v := by
          rw [hturn, h1, Res.bind_ok, decide_eq_false hc]
          rfl
        rcases ih v (by omega) (h2 256 (by omega) (by omega)) h3.stored with
          ⟨w, g1, g2, g3, g4, g5, g6⟩ | ⟨w, g1, g2, g3, g4, g5⟩
        · refine .inl ⟨w, by rw [hgo, g1], g2, ?_, g4.trans h4, g5, g6⟩
          have := h3.trans g3
          rwa [h5, show 1 + (u.cnt.toNat - 1 + 1) = u.cnt.toNat + 1 by omega] at this
        · have := h3.shifts
          exact .inr ⟨w, by rw [hgo, g1], g2, EncUnit.SameRest.trans h3.rest g3, g4, by omega⟩
    · exact .inr ⟨v, by rw [hturn, h1, Res.bind_raised], h2, h3, h4, by omega⟩

/-- The flush writes the held bytes: the stream spells the produced number (rule R105). -/
theorem EncUnit.flush_spec (cfg : Config) (u : EncUnit) (h : (if u.pendValid then True else u.ffRun = 0))
    (hs : u.Stored cfg.outCap) (hcap : cfg.outCap ≤ 65536) :
    ∃ v, u.flush cfg = .ok () v ∧ bytesValue v.outByteAt v.outLen.toNat = producedValue u ∧
      v.outLen.toNat = u.produced ∧ v.r = u.r ∧ v.l = u.l ∧ v.cnt = u.cnt ∧ v.pendValid = false ∧ v.pend = 0 ∧
      v.ffRun = 0 ∧ v.Stored cfg.outCap ∧ u.SameRest v := by
  obtain ⟨hp, hwf, hbd⟩ := hs
  have h0 : (0 : BitVec 17).toNat = 0 := rfl
  unfold EncUnit.flush
  rw [if_neg (by omega)]
  by_cases hv : u.pendValid = true
  · simp only [hv, if_true]
    simp only [EncUnit.produced, hv, Bool.toNat_true] at hp
    have hl := EncUnit.outByte_outLen_toNat u u.pend (by omega)
    have hl' := EncUnit.outRun_outLen 0xFF u.ffRun.toNat (u.outByte u.pend) (by omega)
    have hval := bytesValue_outRun_ff (u.outByte u.pend) u.ffRun.toNat (by omega)
    rw [bytesValue_outByte _ _ (by omega)] at hval
    have heq := EncUnit.outRun_eq 0xFF u.ffRun.toNat (u.outByte u.pend)
    refine ⟨_, rfl, ?_, ?_, ?_, ?_, ?_, rfl, rfl, rfl, ⟨?_, ?_, ?_⟩, ?_⟩
    · refine Eq.trans (b := bytesValue ((u.outByte u.pend).outRun 0xFF u.ffRun.toNat).outByteAt
        ((u.outByte u.pend).outRun 0xFF u.ffRun.toNat).outLen.toNat) rfl ?_
      simp only [producedValue, hv, if_true]
      omega
    · simp only [hl', hl, EncUnit.produced, hv, Bool.toNat_true]
    · rw [heq]; rfl
    · rw [heq]; rfl
    · rw [heq]; rfl
    · simp only [EncUnit.produced, h0, Bool.toNat_false]
      omega
    · exact EncUnit.outRun_wf _ _ _ (Memory.write_wf _ _ _ hwf)
    · exact EncUnit.outRun_bound _ _ _ _ (by omega) hcap (Memory.write_bound _ _ _ _ (by omega) hbd)
    · rw [heq]
      exact EncUnit.SameRest.refl u
  · rw [if_neg hv] at h
    simp only [Bool.not_eq_true] at hv
    refine ⟨{ u with pendValid := false, pend := 0, ffRun := 0 }, by rw [hv]; rfl, ?_, ?_, rfl, rfl, rfl, rfl, rfl, rfl,
      ⟨?_, hwf, hbd⟩, EncUnit.SameRest.refl u⟩
    · refine Eq.trans (b := bytesValue u.outByteAt u.outLen.toNat) rfl ?_
      simp [producedValue, hv, h]
    · simp [EncUnit.produced, hv, h]
    · simp only [EncUnit.produced, h0, Bool.toNat_false] at *
      omega

/-- The shifts the termination makes (rule R105): seven range-driven, two forced, and those up to the next emission. -/
def terminateShifts (u : EncUnit) : Nat := if u.cnt.toNat = 0 ∨ u.cnt.toNat = 8 then 17 else 9 + u.cnt.toNat

/-- The termination: it raises OUT_OVERFLOW on a full buffer, or leaves the registers of rule R105 and a stream that spells
the whole low. -/
theorem terminate_cases (cfg : Config) (u : EncUnit) (h : u.Track u.r.toNat) (hr : 256 ≤ u.r.toNat)
    (hs : u.Stored cfg.outCap) (hcap : cfg.outCap ≤ 65536) :
    (∃ v, terminate cfg u = .ok () v ∧ v.r = 256 ∧ v.l = 0 ∧ v.cnt = 7 ∧ v.pendValid = false ∧ v.pend = 0 ∧ v.ffRun = 0 ∧
      v.Stored cfg.outCap ∧ u.SameRest v ∧ 8 * v.outLen.toNat + 1 = u.shifts + terminateShifts u ∧
      bytesValue v.outByteAt v.outLen.toNat * 2 ^ 10 = lowValue u * 2 ^ terminateShifts u) ∨
    (∃ v, terminate cfg u = .raised .outOverflow v ∧ v.Loose cfg.outCap ∧ u.SameRest v ∧ cfg.outCap ≤ v.produced ∧
      8 * cfg.outCap + 9 ≤ u.shifts + terminateShifts u) := by
  have h2 : (Config.termRange).toNat = 2 := rfl
  have hpow : 2 * 2 ^ 7 = 256 := by decide
  have hTrack : ({ u with r := Config.termRange } : EncUnit).Track ({ u with r := Config.termRange } : EncUnit).r.toNat :=
    (h.mono (b' := 2) (by omega) : u.Track 2)
  have hlow : lowValue ({ u with r := Config.termRange } : EncUnit) = lowValue u := rfl
  have hshifts : ({ u with r := Config.termRange } : EncUnit).shifts = u.shifts := rfl
  have hT9 : 10 ≤ terminateShifts u := by
    have := h.cnt_le
    unfold terminateShifts
    split <;> omega
  rcases renormE_sound cfg 7 renormTurns { u with r := Config.termRange } (by decide) hTrack
    (show 1 ≤ (Config.termRange).toNat by decide) (show 256 ≤ (Config.termRange).toNat * 2 ^ 7 by decide)
    (show (Config.termRange).toNat * 2 ^ 7 < 512 by decide) (show (Config.termRange).toNat ≤ 510 by decide) hs hcap with
    ⟨a, a1, a2, a3, a4⟩ | ⟨a, a1, a2, a3, a4, a5⟩
  swap
  · exact .inr ⟨a, by simp only [terminate, a1, Res.bind_raised], a2, a3, a4, by omega⟩
  have a3' : a.r.toNat = 256 := a3
  have as := a4.shifts
  rw [a3'] at a2
  rcases shiftE_sound cfg 256 a a2 (by omega) a4.stored hcap with ⟨b, b1, b2, b3, b4, b5, -⟩ | ⟨b, b1, b2, b3, b4, b5⟩
  swap
  · exact .inr ⟨b, by simp only [terminate, a1, b1, Res.bind_ok, Res.bind_raised], b2, EncUnit.SameRest.trans a4.rest b3, b4,
      by omega⟩
  have b2' := b2 256 (by omega) (by omega)
  have bs := b3.shifts
  rcases shiftE_sound cfg 256 b b2' (by omega) b3.stored hcap with ⟨c, c1, c2, c3, c4, c5, -⟩ | ⟨c, c1, c2, c3, c4, c5⟩
  swap
  · exact .inr ⟨c, by simp only [terminate, a1, b1, c1, Res.bind_ok, Res.bind_raised], c2,
      EncUnit.SameRest.trans (EncUnit.SameRest.trans a4.rest b3.rest) c3, c4, by omega⟩
  have c2' := c2 256 (by omega) (by omega)
  have cs := c3.shifts
  have hb8 := b2'.cnt_le
  have hc7 : c.cnt.toNat ≤ 7 := by
    split at c5 <;> omega
  have hcu := h.cnt_le
  have hT : 7 + 1 + 1 + (c.cnt.toNat + 1) = terminateShifts u := by
    simp only [EncUnit.shifts] at hshifts as bs cs
    unfold terminateShifts
    split <;> omega
  rcases shiftUntilEmit_sound cfg padTurns c (by simp only [padTurns]; omega) c2' c3.stored hcap with
    ⟨d, d1, d2, d3, d4, d5, d6⟩ | ⟨d, d1, d2, d3, d4, d5⟩
  swap
  · exact .inr ⟨d, by simp only [terminate, a1, b1, c1, d1, Res.bind_ok, Res.bind_raised], d2,
      EncUnit.SameRest.trans (EncUnit.SameRest.trans (EncUnit.SameRest.trans a4.rest b3.rest) c3.rest) d3, d4, by omega⟩
  have went9 := (a4.trans b3).trans c3
  have went := went9.trans d3
  rw [hT] at went
  obtain ⟨j, hj⟩ : ∃ j, terminateShifts u = 10 + j := ⟨terminateShifts u - 10, by omega⟩
  have hlowd : producedValue d * 2 ^ 10 + d.l.toNat = lowValue u * 2 ^ terminateShifts u := by
    have := went.low
    rw [hlow] at this
    rw [← this]
    simp only [lowValue, d5, Nat.sub_self, Nat.add_zero]
  have hl0 : d.l.toNat = 0 := by
    rw [hj, Nat.pow_add, show lowValue u * (2 ^ 10 * 2 ^ j) = 2 ^ 10 * (lowValue u * 2 ^ j) by ring] at hlowd
    omega
  have hff : (if d.pendValid then True else d.ffRun = 0) := by
    unfold EncUnit.Track at d2
    split at d2
    · rename_i hv
      rw [if_pos hv]
      trivial
    · rename_i hv
      rw [if_neg hv]
      exact d2.2.1
  obtain ⟨v, v1, v2, v3, v4, v5, v6, v7, v8, v9, v10, v11⟩ := EncUnit.flush_spec cfg d hff d3.stored hcap
  refine .inl ⟨v, by simp only [terminate, a1, b1, c1, d1, v1, Res.bind_ok], ?_, ?_, ?_, v7, v8, v9, v10,
    EncUnit.SameRest.trans went.rest v11, ?_, ?_⟩
  · rw [v4, d4, c4, b4]
    exact BitVec.eq_of_toNat_eq a3'
  · rw [v5]
    exact BitVec.eq_of_toNat_eq hl0
  · rw [v6]
    exact BitVec.eq_of_toNat_eq d5
  · have := went.shifts
    rw [hshifts] at this
    rw [← this, v3]
    simp only [EncUnit.shifts, d5]
    omega
  · rw [v2, ← hlowd, hl0, Nat.add_zero]

end Sys2Proof.Machine
end

