-- ==== Sys2Proof/Laws/Errors.lean ====
section
/-! SUPPORT. The errors each procedure of the two units can raise (rules R93, R102, R105, R133, R151). -/

namespace Sys2Proof.Machine

theorem emit_raised {cfg : Config} {out : BitVec 9} {u v : EncUnit} {e : ErrCode} (h : emit cfg out u = .raised e v) :
    e = .outOverflow := by
  rcases emit_cases cfg out u with ⟨-, h2⟩ | ⟨-, h2⟩ <;> rw [h2] at h <;> simp at h
  exact h.1.symm

theorem shiftE_raised {cfg : Config} {u v : EncUnit} {e : ErrCode} (h : shiftE cfg u = .raised e v) :
    e = .outOverflow := by
  unfold shiftE at h
  simp only at h
  split at h
  · rcases Res.bind_eq_raised.1 h with h | ⟨_, _, _, h⟩
    · exact emit_raised h
    · simp at h
  · simp at h

theorem renormE_raised {cfg : Config} {n : Nat} {u v : EncUnit} {e : ErrCode} (h : renormE cfg n u = .raised e v) :
    e = .outOverflow := by
  induction n generalizing u with
  | zero => simp [renormE] at h
  | succ n ih =>
    unfold renormE at h
    split at h
    · rcases Res.bind_eq_raised.1 h with h | ⟨_, _, _, h⟩
      · exact shiftE_raised h
      · exact ih h
    · simp at h

theorem shiftUntilEmit_raised {cfg : Config} {n : Nat} {u v : EncUnit} {e : ErrCode}
    (h : shiftUntilEmit cfg n u = .raised e v) : e = .outOverflow := by
  induction n generalizing u with
  | zero => simp [shiftUntilEmit] at h
  | succ n ih =>
    unfold shiftUntilEmit at h
    rcases Res.bind_eq_raised.1 h with h | ⟨_, _, _, h⟩
    · exact shiftE_raised h
    · split at h
      · simp at h
      · exact ih h

/-- "ENC_FINISH cannot raise ZERO_WIDTH: Terminate splits no width" (rule R151). -/
theorem terminate_raised {cfg : Config} {u v : EncUnit} {e : ErrCode} (h : terminate cfg u = .raised e v) :
    e = .outOverflow := by
  unfold terminate at h
  rcases Res.bind_eq_raised.1 h with h | ⟨_, _, _, h⟩
  · exact renormE_raised h
  rcases Res.bind_eq_raised.1 h with h | ⟨_, _, _, h⟩
  · exact shiftE_raised h
  rcases Res.bind_eq_raised.1 h with h | ⟨_, _, _, h⟩
  · exact shiftE_raised h
  rcases Res.bind_eq_raised.1 h with h | ⟨_, _, _, h⟩
  · exact shiftUntilEmit_raised h
  unfold EncUnit.flush at h
  split at h <;> simp at h
  exact h.1.symm

theorem encodeBin_raised {cfg : Config} {b : Bool} {c : Fin 32} {u v : EncUnit} {e : ErrCode}
    (h : encodeBin cfg b c u = .raised e v) : e = .outOverflow ∨ e = .zeroWidth := by
  unfold encodeBin at h
  split at h
  · simp only [Res.raised.injEq] at h
    exact .inr h.1.symm
  · exact .inl (renormE_raised h)

theorem encodeBins_raised {cfg : Config} {bins : List (Bool × Fin 32)} {u v : EncUnit} {e : ErrCode}
    (h : encodeBins cfg bins u = .raised e v) : e = .outOverflow ∨ e = .zeroWidth := by
  induction bins generalizing u with
  | nil => simp [encodeBins] at h
  | cons p bins ih =>
    rcases Res.bind_eq_raised.1 h with h | ⟨_, _, _, h⟩
    · exact encodeBin_raised h
    · exact ih h

theorem decodeBin_raised {cfg : Config} {c : Fin 32} {u v : DecUnit} {e : ErrCode}
    (h : decodeBin cfg c u = .raised e v) : e = .zeroWidth ∧ v = u := by
  unfold decodeBin at h
  split at h <;> simp at h
  exact ⟨h.1.symm, h.2.symm⟩

/-- A bin goes through under any postcondition, or raises ZERO_WIDTH. -/
theorem decodeBin_errors (cfg : Config) (c : Fin 32) (u : DecUnit) :
    (decodeBin cfg c u).Sat (fun _ => True) fun e _ => e = .levelRange ∨ e = .zeroWidth := by
  cases h : decodeBin cfg c u with
  | ok b v => trivial
  | raised e v => exact .inr (decodeBin_raised h).1

theorem decodeBlockSyntax_raised {cfg : Config} {u v : DecUnit} {e : ErrCode}
    (h : decodeBlockSyntax cfg u = .raised e v) : e = .levelRange ∨ e = .zeroWidth := by
  have := decodeBlockSyntax_sat (cfg := cfg) (p := fun _ => True) (q := fun e _ => e = .levelRange ∨ e = .zeroWidth)
    (fun c _ u _ => decodeBin_errors cfg c u) (fun _ _ => .inl rfl) u trivial
  rw [h] at this
  exact this

end Sys2Proof.Machine
end

