-- ==== Sys2Proof/Laws/Invariant.lean ====
section
/-! SUPPORT. The invariant's parts through the engines' operations: an open session and the tracked low (rules R119 to R122),
the bins of a session, and the decoder's invariant through priming, one bin and a fault (rules R119, R120, R149). -/

open Sys2Proof Sys2Proof.Machine Sys2Proof.Safety

namespace Sys2Proof.Safety

/-- An open session's invariant is the tracked low with the range in its bounds. -/
theorem encSessionOk_iff (u : EncUnit) :
    (EncSessionOk u ∧ (u.pendValid = true → u.pend ≠ 0xFF)) ↔
      (256 ≤ u.r.toNat ∧ u.r.toNat ≤ 510) ∧ u.Track u.r.toNat := by
  unfold EncUnit.Track EncSessionOk LowOk
  cases u.pendValid <;> simp <;> tauto

theorem EncOk.loose {cfg : Config} {u : EncUnit} (h : EncOk cfg u) : u.Loose cfg.outCap := ⟨h.2.1, h.2.2⟩

theorem EncOk.track {cfg : Config} {u : EncUnit} (h : EncOk cfg u) (ha : u.active = true) :
    (256 ≤ u.r.toNat ∧ u.r.toNat ≤ 510) ∧ u.Track u.r.toNat := (encSessionOk_iff u).1 ⟨h.1 ha, h.2.1⟩

theorem encOk_of_track {cfg : Config} (u : EncUnit)
    (h : u.active = true → (256 ≤ u.r.toNat ∧ u.r.toNat ≤ 510) ∧ u.Track u.r.toNat) (hl : u.Loose cfg.outCap) :
    EncOk cfg u := ⟨fun ha => ((encSessionOk_iff u).2 (h ha)).1, hl.1, hl.2⟩

/-- A session starts with its low tracked (rules R104, R121). -/
theorem started_track (cap : Nat) (u : EncUnit) (h : u.Stored cap) :
    u.started.Track u.started.r.toNat ∧ u.started.r.toNat = 510 ∧ u.started.Stored cap :=
  ⟨by unfold EncUnit.Track EncUnit.started; simp, rfl, by simp [EncUnit.started, EncUnit.produced], h.2.1, h.2.2⟩

/-- The bins of a list keep the low tracked, or raise a fault and leave the byte machine and the buffer sound. -/
theorem encodeBins_sound (cfg : Config) (hcap : cfg.outCap ≤ 65536) (bins : List (Bool × Fin 32)) (u : EncUnit)
    (h : u.Track u.r.toNat) (hr : 256 ≤ u.r.toNat) (hr' : u.r.toNat ≤ 510) (hs : u.Stored cfg.outCap) :
    (∃ v, encodeBins cfg bins u = .ok () v ∧ v.Track v.r.toNat ∧ 256 ≤ v.r.toNat ∧ v.r.toNat ≤ 510 ∧
      v.Stored cfg.outCap) ∨
    (∃ e v, encodeBins cfg bins u = .raised e v ∧ v.Loose cfg.outCap) := by
  induction bins generalizing u with
  | nil => exact .inl ⟨u, rfl, h, hr, hr', hs⟩
  | cons p bins ih =>
    obtain ⟨b, c⟩ := p
    rcases encodeBin_cases cfg b c u h hr hr' hs hcap with ⟨-, h1⟩ | ⟨k, v, h1, h2⟩ | ⟨v, h1, h2, -⟩
    · exact .inr ⟨.zeroWidth, u, by simp [encodeBins, h1], h.pend_ne, hs⟩
    · simp only [encodeBins, h1, Res.bind_ok]
      exact ih v h2.track h2.range_lo h2.range_hi h2.stored
    · exact .inr ⟨.outOverflow, v, by simp [encodeBins, h1], h2⟩

/-- What a decoder that is about to decode a bin keeps: the invariant, the range's bounds, the offset below the range. -/
abbrev DecOpen (cfg : Config) (u : DecUnit) : Prop :=
  DecOk cfg u ∧ (256 ≤ u.r.toNat ∧ u.r.toNat ≤ 510) ∧ u.code.toNat < u.r.toNat

theorem decodeBin_open (cfg : Config) (c : Fin 32) (u : DecUnit) (hu : DecOpen cfg u) :
    (decodeBin cfg c u).Sat (DecOpen cfg) (fun _ v => DecOk cfg v) := by
  obtain ⟨h1, h2⟩ := hu
  rcases decodeBin_cases cfg c u h2.1.2 h2.2 with ⟨-, h⟩ | ⟨b, k, v, h, hb⟩
  · rw [h]; exact h1
  · rw [h]
    have hh : (256 ≤ v.r.toNat ∧ v.r.toNat ≤ 510) ∧ v.code.toNat < v.r.toNat :=
      ⟨⟨hb.range_lo, hb.range_hi⟩, hb.code_lt⟩
    obtain ⟨r1, r2, r3, r4, -⟩ := hb.rest
    obtain ⟨-, d2, d3, d4, d5, d6, d7⟩ := h1
    refine ⟨⟨fun _ => hh, ?_, ?_, ?_, ?_, ?_, ?_⟩, hh⟩
    · rw [r2, r3]; exact d2
    · rw [hb.nres]; have := hb.turns; split <;> omega
    · rw [r1]; exact d4
    · rw [r1, r2]; exact d5
    · rw [r4]; exact d6
    · rw [r4]; exact d7

/-- Dropping the stream and closing the block keeps the decoder's invariant (rule R149). -/
theorem DecOk.failed {cfg : Config} {u : DecUnit} (h : DecOk cfg u) : DecOk cfg u.failed := by
  obtain ⟨-, -, d3, d4, -, d6, d7⟩ := h
  exact ⟨fun h => by simp [DecUnit.failed] at h, fun h => by simp [DecUnit.failed] at h, d3, d4,
    fun h => by simp [DecUnit.failed] at h, d6, d7⟩

/-- A valid priming of an accepted stream opens a block (rules R111, R120). -/
theorem DecOk.primed {cfg : Config} {u : DecUnit} (h : DecOk cfg u) (hr : u.ready = true) (hp : u.primeCode < 510) :
    DecOpen cfg { u.primeRegs with active := true } := by
  obtain ⟨-, -, -, d4, d5, d6, d7⟩ := h
  rw [u.primeRegs_eq]
  have h1 : (510 : BitVec 9).toNat = 510 := rfl
  have h2 : (BitVec.ofNat 9 u.primeCode).toNat = u.primeCode := by
    rw [BitVec.toNat_ofNat]; exact Nat.mod_eq_of_lt u.primeCode_lt
  have : (256 ≤ (510 : BitVec 9).toNat ∧ (510 : BitVec 9).toNat ≤ 510) ∧
      (BitVec.ofNat 9 u.primeCode).toNat < (510 : BitVec 9).toNat := by rw [h1, h2]; omega
  exact ⟨⟨fun _ => this, fun _ => hr, by show (7 : BitVec 4).toNat ≤ 8; decide, d4, d5, d6, d7⟩, this⟩

/-- An invalid priming drops the stream and keeps the invariant (rules R111, R149). -/
theorem DecOk.primeRegs_failed {cfg : Config} {u : DecUnit} (h : DecOk cfg u) : DecOk cfg u.primeRegs.failed := by
  obtain ⟨-, -, -, d4, -, d6, d7⟩ := h
  rw [u.primeRegs_eq]
  exact ⟨fun h => by simp [DecUnit.failed] at h, fun h => by simp [DecUnit.failed] at h,
    by show (7 : BitVec 4).toNat ≤ 8; decide, d4, fun h => by simp [DecUnit.failed] at h, d6, d7⟩

end Sys2Proof.Safety
end

