-- ==== Sys2Proof/Laws/PerInstr.lean ====
section
/-! SUPPORT. The statements made per instruction. `FieldsWellFormed`: every command's fields are well formed (rules R72, R76),
and its word has bits only in the fields it uses. -/

namespace Sys2Proof.Laws.FieldsWellFormed

/-- The fields of the command are well formed and they are the fields of its word (rules R70, R72, R77). -/
def Statement (i : Instr) : Prop := i.wellFormed = true ∧ CmdFields.ofWord (encode i) = i.fields

theorem nop : Statement .nop := by unfold Statement; decide

theorem encCtxReset : Statement .encCtxReset := by unfold Statement; decide

theorem decCtxReset : Statement .decCtxReset := by unfold Statement; decide

theorem encStart : Statement .encStart := by unfold Statement; decide

theorem encBin (c : Fin 32) (b : Bool) : Statement (.encBin c b) := by unfold Statement; revert c b; decide

theorem encFinish : Statement .encFinish := by unfold Statement; decide

theorem encBlock (k : BlkType) (m : Component) : Statement (.encBlock k m) := by unfold Statement; cases k <;> cases m <;> decide

theorem decLoad : Statement .decLoad := by unfold Statement; decide

theorem decStart : Statement .decStart := by unfold Statement; decide

theorem decBin (c : Fin 32) : Statement (.decBin c) := by unfold Statement; revert c; decide

theorem decBlock (k : BlkType) (m : Component) : Statement (.decBlock k m) := by unfold Statement; cases k <;> cases m <;> decide

end Sys2Proof.Laws.FieldsWellFormed
end

