-- ==== Sys2Proof/Laws/RoundTrip.lean ====
section
/-! SUPPORT. The engine's two directions against each other (rules R99 to R113, R118 to R121): a decoder unit in step with an
encoder unit takes each of its bins out of the code value that the encoder's low ends at. -/

namespace Sys2Proof.Machine

open Safety

/-- What a unit in a session has, wherever bins start (rules R119, R121). -/
structure EncUnit.Ready (cfg : Config) (u : EncUnit) : Prop where
  track : u.Track u.r.toNat
  lo : 256 ≤ u.r.toNat
  hi : u.r.toNat ≤ 510
  stored : u.Stored cfg.outCap

theorem EncUnit.Binned.ready {cfg : Config} {b : Bool} {c : Fin 32} {k : Nat} {u v : EncUnit} (h : u.Binned cfg b c k v) :
    v.Ready cfg := ⟨h.track, h.range_lo, h.range_hi, h.stored⟩

/-- The widths of a bin that goes through. -/
theorem encodeBin_ok_widths {cfg : Config} {b : Bool} {c : Fin 32} {u v : EncUnit} (h : encodeBin cfg b c u = .ok () v) :
    widths cfg u.r (u.ctx.get c).state = some (lpsWidth cfg u.r (u.ctx.get c), mpsWidth cfg u.r (u.ctx.get c)) ∧
    lpsWidth cfg u.r (u.ctx.get c) + mpsWidth cfg u.r (u.ctx.get c) = u.r.toNat ∧
    1 ≤ lpsWidth cfg u.r (u.ctx.get c) ∧ 1 ≤ mpsWidth cfg u.r (u.ctx.get c) := by
  cases hw : widths cfg u.r (u.ctx.get c).state with
  | none => simp [encodeBin, hw] at h
  | some p =>
    obtain ⟨lps, mps⟩ := p
    obtain ⟨e1, e2, e3, e4⟩ := widths_some hw
    have hl : lps = lpsWidth cfg u.r (u.ctx.get c) := e1
    have hm : mps = mpsWidth cfg u.r (u.ctx.get c) := by
      unfold mpsWidth
      omega
    rw [← hl, ← hm]
    exact ⟨rfl, e2, e3, e4⟩

/-- One bin that goes through. -/
theorem encodeBin_ok {cfg : Config} {b : Bool} {c : Fin 32} {u v : EncUnit} (hu : u.Ready cfg) (hcap : cfg.outCap ≤ 65536)
    (h : encodeBin cfg b c u = .ok () v) : ∃ k, u.Binned cfg b c k v := by
  rcases encodeBin_cases cfg b c u hu.track hu.lo hu.hi hu.stored hcap with ⟨-, h1⟩ | ⟨k, w, h1, h2⟩ | ⟨w, h1, -⟩
  · rw [h1] at h
    cases h
  · rw [h1] at h
    cases h
    exact ⟨k, h2⟩
  · rw [h1] at h
    cases h

/-- Bins that go through (rules R99, R121): the low only grows inside the interval it started from. -/
theorem encodeBins_bounds (cfg : Config) (hcap : cfg.outCap ≤ 65536) (bins : List (Bool × Fin 32)) (u v : EncUnit)
    (hu : u.Ready cfg) (h : encodeBins cfg bins u = .ok () v) :
    ∃ k, v.shifts = u.shifts + k ∧ lowValue u * 2 ^ k ≤ lowValue v ∧ lowValue v < (lowValue u + u.r.toNat) * 2 ^ k ∧
      v.Ready cfg := by
  induction bins generalizing u with
  | nil =>
    cases h
    have := hu.lo
    exact ⟨0, rfl, by omega, by omega, hu⟩
  | cons p bins ih =>
    obtain ⟨b, c⟩ := p
    obtain ⟨_, w, h1, h2⟩ := Res.bind_eq_ok.1 h
    obtain ⟨-, hs, hl, hm⟩ := encodeBin_ok_widths h1
    obtain ⟨k, hb⟩ := encodeBin_ok hu hcap h1
    obtain ⟨j, i1, i2, i3, i4⟩ := ih w hb.ready h2
    have hadd : lowAdd u b c (mpsWidth cfg u.r (u.ctx.get c)) +
        partOf u b c (lpsWidth cfg u.r (u.ctx.get c)) (mpsWidth cfg u.r (u.ctx.get c)) ≤ u.r.toNat := by
      unfold lowAdd partOf
      split <;> omega
    have hlow := hb.low
    have hran := hb.range
    generalize lowAdd u b c (mpsWidth cfg u.r (u.ctx.get c)) = add at *
    generalize partOf u b c (lpsWidth cfg u.r (u.ctx.get c)) (mpsWidth cfg u.r (u.ctx.get c)) = part at *
    refine ⟨k + j, by rw [i1, hb.shifts, Nat.add_assoc], ?_, ?_, i4⟩
    · refine Nat.le_trans ?_ i2
      rw [hlow, Nat.pow_add, ← Nat.mul_assoc]
      exact Nat.mul_le_mul_right _ (Nat.mul_le_mul_right _ (by omega))
    · refine Nat.lt_of_lt_of_le i3 ?_
      rw [hlow, hran, ← Nat.add_mul, Nat.pow_add, ← Nat.mul_assoc]
      exact Nat.mul_le_mul_right _ (Nat.mul_le_mul_right _ (by omega))

/-- The decoder unit `d` is in step with the encoder unit `u` that goes to `v` by the bins: same range, same contexts, and
the offset and the bits to come are what the final low leaves above the low of `u`. -/
structure Synced (cfg : Config) (bins : List (Bool × Fin 32)) (u v : EncUnit) (d : DecUnit) : Prop where
  ready : u.Ready cfg
  runs : encodeBins cfg bins u = .ok () v
  r : d.r = u.r
  ctx : d.ctx = u.ctx
  code : d.code.toNat + lowValue u = lowValue v / 2 ^ (v.shifts - u.shifts)
  bits : ∀ j, j < v.shifts - u.shifts → upcomingBit d j = (lowValue v).testBit (v.shifts - u.shifts - 1 - j)

/-- The next bits as a field of the number they come from. -/
theorem upcomingValue_of_bits (d : DecUnit) (n K k : Nat) (hk : k ≤ K)
    (h : ∀ j, j < K → upcomingBit d j = n.testBit (K - 1 - j)) : upcomingValue d k = n / 2 ^ (K - k) % 2 ^ k := by
  induction k with
  | zero => simp [upcomingValue, Nat.mod_one]
  | succ k ih =>
    have hb : (upcomingBit d k).toNat = n / 2 ^ (K - 1 - k) % 2 := by
      rw [h k (by omega), Nat.toNat_testBit]
    have hm : K - k = (K - (k + 1)) + 1 := by omega
    have hdiv : n / 2 ^ (K - k) = n / 2 ^ (K - (k + 1)) / 2 := by
      rw [hm, Nat.pow_succ, Nat.div_div_eq_div_mul]
    rw [upcomingValue, ih (by omega), hb, show K - 1 - k = K - (k + 1) by omega, hdiv]
    generalize n / 2 ^ (K - (k + 1)) = y
    have hp : 2 ^ (k + 1) = 2 * 2 ^ k := by rw [Nat.pow_succ, Nat.mul_comm]
    rw [hp, Nat.mod_mul]
    omega

/-- A decoder in step decodes the encoder's next bin and stays in step (rules R99, R112, R123). -/
theorem Synced.bin {cfg : Config} (hcap : cfg.outCap ≤ 65536) {b : Bool} {c : Fin 32} {bins : List (Bool × Fin 32)}
    {u v : EncUnit} {d : DecUnit} (h : Synced cfg ((b, c) :: bins) u v d) :
    ∃ w e k, encodeBin cfg b c u = .ok () w ∧ decodeBin cfg c d = .ok b e ∧ Synced cfg bins w v e ∧
      DecUnit.Binned cfg c b k d e ∧ w.shifts = u.shifts + k := by
  obtain ⟨_, w, h1, h2⟩ := Res.bind_eq_ok.1 h.runs
  obtain ⟨hw, hs, hl, hm⟩ := encodeBin_ok_widths h1
  obtain ⟨k, hb⟩ := encodeBin_ok h.ready hcap h1
  obtain ⟨j, i1, i2, i3, i4⟩ := encodeBins_bounds cfg hcap bins w v hb.ready h2
  obtain ⟨J, j1, j2, j3, -⟩ := encodeBins_bounds cfg hcap _ u v h.ready h.runs
  have hJ : J = k + j := by
    have := hb.shifts
    omega
  subst hJ
  have hcode := h.code
  rw [j1, Nat.add_sub_cancel_left] at hcode
  have hbits := h.bits
  rw [j1, Nat.add_sub_cancel_left] at hbits
  have hpj : 0 < 2 ^ j := Nat.two_pow_pos j
  have hpk : 0 < 2 ^ k := Nat.two_pow_pos k
  have hhi := h.ready.hi
  have hltr : d.code.toNat < u.r.toNat := by
    have : lowValue v / 2 ^ (k + j) < lowValue u + u.r.toNat := (Nat.div_lt_iff_lt_mul (Nat.two_pow_pos _)).2 j3
    omega
  rcases decodeBin_cases cfg c d (by rw [h.r]; exact hhi) (by rw [h.r]; exact hltr) with ⟨hn, -⟩ | ⟨b', k', e, e1, e2⟩
  · rw [h.r, h.ctx, hw] at hn
    cases hn
  have hlow := hb.low
  have hran := hb.range
  -- the branch the decoder takes is the encoder's
  have hdiv : lowValue v / 2 ^ (k + j) = lowValue v / 2 ^ j / 2 ^ k := by
    rw [Nat.add_comm k j, Nat.pow_add, Nat.div_div_eq_div_mul]
  have hge : lowValue w / 2 ^ k ≤ lowValue v / 2 ^ (k + j) := by
    rw [hdiv]
    exact Nat.div_le_div_right ((Nat.le_div_iff_mul_le hpj).2 i2)
  have hlt : lowValue v / 2 ^ (k + j) < (lowValue w + w.r.toNat) / 2 ^ k := by
    rw [hlow, hran, ← Nat.add_mul, Nat.mul_div_cancel _ hpk, hdiv]
    refine (Nat.div_lt_iff_lt_mul hpk).2 ((Nat.div_lt_iff_lt_mul hpj).2 ?_)
    rw [hlow, hran, ← Nat.add_mul] at i3
    exact i3
  rw [hlow, Nat.mul_div_cancel _ hpk] at hge
  rw [hlow, hran, ← Nat.add_mul, Nat.mul_div_cancel _ hpk] at hlt
  have hcases : (b = (u.ctx.get c).mps ∧ d.code.toNat < mpsWidth cfg u.r (u.ctx.get c)) ∨
      (b = (!(u.ctx.get c).mps) ∧ mpsWidth cfg u.r (u.ctx.get c) ≤ d.code.toNat) := by
    unfold lowAdd at hge hlt
    unfold partOf at hlt
    by_cases hbm : b = (u.ctx.get c).mps
    · rw [if_pos hbm] at hge hlt
      exact .inl ⟨hbm, by rw [if_pos hbm] at hlt; omega⟩
    · rw [if_neg hbm] at hge hlt
      exact .inr ⟨by cases b <;> cases hx : (u.ctx.get c).mps <;> simp_all, by omega⟩
  have hbb : b' = b := by
    rw [e2.bin, h.r, h.ctx]
    rcases hcases with ⟨g1, g2⟩ | ⟨g1, g2⟩
    · rw [if_neg (by omega), g1]
    · rw [if_pos g2, g1]
  subst hbb
  have hpart : (if mpsWidth cfg d.r (d.ctx.get c) ≤ d.code.toNat then lpsWidth cfg d.r (d.ctx.get c)
      else mpsWidth cfg d.r (d.ctx.get c)) =
      partOf u b' c (lpsWidth cfg u.r (u.ctx.get c)) (mpsWidth cfg u.r (u.ctx.get c)) := by
    rw [h.r, h.ctx]
    unfold partOf
    rcases hcases with ⟨g1, g2⟩ | ⟨g1, g2⟩
    · rw [if_neg (by omega), if_pos g1]
    · rw [if_pos g2, if_neg (by rw [g1]; cases (u.ctx.get c).mps <;> simp)]
  have hsub : (if mpsWidth cfg d.r (d.ctx.get c) ≤ d.code.toNat then d.code.toNat - mpsWidth cfg d.r (d.ctx.get c)
      else d.code.toNat) + lowAdd u b' c (mpsWidth cfg u.r (u.ctx.get c)) = d.code.toNat := by
    rw [h.r, h.ctx]
    unfold lowAdd
    rcases hcases with ⟨g1, g2⟩ | ⟨g1, g2⟩
    · rw [if_neg (by omega), if_pos g1]
      omega
    · rw [if_pos g2, if_neg (by rw [g1]; cases (u.ctx.get c).mps <;> simp)]
      omega
  have hpos : 1 ≤ partOf u b' c (lpsWidth cfg u.r (u.ctx.get c)) (mpsWidth cfg u.r (u.ctx.get c)) := by
    unfold partOf
    split <;> omega
  have hrange := e2.range
  rw [hpart] at hrange
  -- both double the same number of times
  have hkk : k' = k := by
    have a1 := hb.range_lo
    have a2 := hb.range_hi
    have a3 := e2.range_lo
    have a4 := e2.range_hi
    rw [hran] at a1 a2
    rw [hrange] at a3 a4
    exact doublings_unique a3 (by omega) a1 (by omega)
  subst hkk
  have hup := upcomingValue_of_bits d (lowValue v) (k' + j) k' (by omega) hbits
  rw [Nat.add_sub_cancel_left] at hup
  refine ⟨w, e, k', h1, e1, ⟨hb.ready, h2, ?_, ?_, ?_, ?_⟩, e2, hb.shifts⟩
  · exact BitVec.eq_of_toNat_eq (hrange.trans hran.symm)
  · rw [e2.ctx, hb.ctx, h.ctx, h.r]
    congr 1
    unfold Ctx.afterBin
    rcases hcases with ⟨g1, g2⟩ | ⟨g1, g2⟩
    · rw [if_neg (by omega), if_pos g1]
    · rw [if_pos g2, if_neg (by rw [g1]; cases (u.ctx.get c).mps <;> simp)]
  · rw [i1, Nat.add_sub_cancel_left, e2.code, hlow, hup]
    have hmod := Nat.div_add_mod (lowValue v / 2 ^ j) (2 ^ k')
    have hx : ((if mpsWidth cfg d.r (d.ctx.get c) ≤ d.code.toNat then
        d.code.toNat - mpsWidth cfg d.r (d.ctx.get c) else d.code.toNat) +
        (lowValue u + lowAdd u b' c (mpsWidth cfg u.r (u.ctx.get c)))) * 2 ^ k' =
        2 ^ k' * (lowValue v / 2 ^ j / 2 ^ k') := by
      rw [← hdiv, ← hcode, Nat.mul_comm]
      congr 1
      omega
    rw [Nat.add_mul] at hx
    omega
  · intro i hi
    rw [i1, Nat.add_sub_cancel_left] at hi
    rw [e2.bits, hbits _ (by omega), i1, Nat.add_sub_cancel_left]
    congr 1
    omega

/-! The start: what priming takes from a stream (rules R59, R111). -/

/-- The first `m` bytes of `m + k`. -/
theorem bytesValue_div (f : Nat → Byte) (m k : Nat) : bytesValue f (m + k) / 256 ^ k = bytesValue f m := by
  induction k with
  | zero => simp
  | succ k ih =>
    rw [← Nat.add_assoc, bytesValue, Nat.pow_succ, Nat.mul_comm (256 ^ k) 256, ← Nat.div_div_eq_div_mul]
    have := (f (m + k)).isLt
    rw [show (256 * bytesValue f (m + k) + (f (m + k)).toNat) / 256 = bytesValue f (m + k) by omega, ih]

/-- Bit `i` of a stream, most significant bit of byte 0 first (rule R59). -/
theorem bytesValue_bit (f : Nat → Byte) (n i : Nat) (h : i < 8 * n) :
    (bytesValue f n).testBit (8 * n - 1 - i) = (f (i / 8)).getLsbD (7 - i % 8) := by
  induction n with
  | zero => omega
  | succ n ih =>
    have hf := (f n).isLt
    have hsum : 256 * bytesValue f n + (f n).toNat = 2 ^ 8 * bytesValue f n + (f n).toNat := rfl
    rw [bytesValue, hsum, Nat.testBit_two_pow_mul_add _ hf]
    by_cases hi : i < 8 * n
    · rw [if_neg (by omega), show 8 * (n + 1) - 1 - i - 8 = 8 * n - 1 - i by omega, ih hi]
    · rw [if_pos (by omega), show i / 8 = n by omega, BitVec.getLsbD]
      congr 1
      omega

/-- The decoder's bits to come right after priming: those of the bytes from the primed position on, past the first nine
(rule R111). -/
theorem DecUnit.primed_bit (u : DecUnit) (h : u.primeAt + 2 < 2 ^ 32 - 1) (a : Bool) (j : Nat) :
    upcomingBit { u.primeRegs with active := a } j =
      (inputByte u (u.primeAt + (9 + j) / 8)).getLsbD (7 - (9 + j) % 8) := by
  have h7 : (7 : BitVec 4).toNat = 7 := rfl
  have hn : u.primeRegs.nres = 7 := by rw [u.primeRegs_eq]
  have hr : u.primeRegs.res = BitVec.ofNat 8 ((inputByte u (u.primeAt + 1)).toNat % 128) := by rw [u.primeRegs_eq]
  have hc : u.primeRegs.cur.toNat = u.primeAt + 2 := by
    rw [u.primeRegs_eq]
    simp only [BitVec.toNat_ofNat]
    omega
  unfold upcomingBit
  simp only [hn, h7, hr, hc]
  by_cases hj : j < 7
  · rw [if_pos hj, show (9 + j) / 8 = 1 by omega, show (9 + j) % 8 = j + 1 by omega, show 7 - 1 - j = 7 - (j + 1) by omega,
      BitVec.getLsbD_ofNat, BitVec.getLsbD]
    have hm : (inputByte u (u.primeAt + 1)).toNat % 128 = (inputByte u (u.primeAt + 1)).toNat % 2 ^ 7 := rfl
    rw [hm, Nat.testBit_mod_two_pow]
    rw [decide_eq_true (show 7 - (j + 1) < 8 by omega), decide_eq_true (show 7 - (j + 1) < 7 by omega)]
    rfl
  · rw [if_neg hj, show u.primeAt + 2 + (j - 7) / 8 = u.primeAt + (9 + j) / 8 by omega,
      show (j - 7) % 8 = (9 + j) % 8 by omega]
    refine (congrArg (fun x : Byte => x.getLsbD (7 - (9 + j) % 8)) ?_ : _)
    rw [u.primeRegs_eq]
    exact inputByte_congr rfl rfl rfl _

/-- A unit at the start of a session. -/
theorem EncUnit.started_ready (cfg : Config) (u : EncUnit) (h : u.Stored cfg.outCap) :
    u.started.Ready cfg ∧ lowValue u.started = 0 ∧ u.started.shifts = 0 ∧ u.started.r.toNat = 510 := by
  have h1 : u.started.r.toNat = 510 := rfl
  refine ⟨⟨?_, by omega, by omega, ?_, h.2.1, h.2.2⟩, ?_, rfl, h1⟩
  · unfold EncUnit.Track
    rw [if_neg (by simp [EncUnit.started])]
    exact ⟨by simp [EncUnit.started], rfl, rfl, by simp [EncUnit.started]⟩
  · exact Nat.zero_le _
  · simp [lowValue, producedValue, EncUnit.started, bytesValue]

/-- A decoder primed at a stream that a session ended with is in step with that session's start (rules R105, R111, R123):
`v` is the encoder unit before its termination and `w` after it. -/
theorem Synced.start {cfg : Config} (hcap : cfg.outCap ≤ 65536) {bins : List (Bool × Fin 32)} {u v w : EncUnit}
    {d : DecUnit} (hu : u.Stored cfg.outCap) (hv : encodeBins cfg bins u.started = .ok () v)
    (hlen : 8 * w.outLen.toNat + 1 = v.shifts + terminateShifts v) (hcnt : v.cnt.toNat ≤ 8)
    (hval : bytesValue w.outByteAt w.outLen.toNat * 2 ^ 10 = lowValue v * 2 ^ terminateShifts v)
    (hctx : d.ctx = u.ctx) (hin : d.cur.toNat + w.outLen.toNat ≤ d.len.toNat)
    (hbytes : ∀ i < w.outLen.toNat, d.inByteAt (d.cur.toNat + i) = w.outByteAt i) :
    Synced cfg bins u.started v { d.primeRegs with active := true } ∧ d.primeCode < 510 ∧
      d.primeAt = d.cur.toNat ∧ 2 ≤ w.outLen.toNat := by
  obtain ⟨hr, hl0, hs0, h510⟩ := u.started_ready cfg hu
  obtain ⟨S, b1, b2, b3, -⟩ := encodeBins_bounds cfg hcap bins u.started v hr hv
  rw [hs0, Nat.zero_add] at b1
  rw [hl0, h510, Nat.zero_add] at b3
  obtain ⟨T, hT, hT7⟩ : ∃ T, terminateShifts v = T + 10 ∧ T ≤ 7 := by
    unfold terminateShifts
    split
    · exact ⟨7, rfl, by omega⟩
    · exact ⟨v.cnt.toNat - 1, by omega, by omega⟩
  rw [hT, b1] at hlen
  rw [hT, Nat.pow_add, ← Nat.mul_assoc] at hval
  have hval := Nat.eq_of_mul_eq_mul_right (by decide) hval
  have hn : 8 * w.outLen.toNat = 9 + S + T := by omega
  have hlt := d.len.isLt
  have hbyte : ∀ i < w.outLen.toNat, inputByte d (d.cur.toNat + i) = w.outByteAt i := by
    intro i hi
    rw [← hbytes i hi]
    exact if_pos (by omega)
  -- the first nine bits
  obtain ⟨m, hm⟩ : ∃ m, w.outLen.toNat = 2 + m := ⟨w.outLen.toNat - 2, by omega⟩
  have hnine : (w.outByteAt 0).toNat * 2 + (w.outByteAt 1).toNat / 128 = lowValue v / 2 ^ S := by
    have h1 := bytesValue_div w.outByteAt 2 m
    rw [← hm, hval] at h1
    have h2 : bytesValue w.outByteAt 2 = 256 * (w.outByteAt 0).toNat + (w.outByteAt 1).toNat := by
      simp [bytesValue]
    have h3 : lowValue v * 2 ^ T / 256 ^ m / 128 = lowValue v / 2 ^ S := by
      have hp : 256 ^ m * 128 = 2 ^ S * 2 ^ T := by
        have h256 : 256 ^ m = 2 ^ (8 * m) := by rw [Nat.pow_mul]
        have h128 : 128 = 2 ^ 7 := rfl
        rw [h256, h128, ← Nat.pow_add, ← Nat.pow_add, show 8 * m + 7 = S + T by omega]
      rw [Nat.div_div_eq_div_mul, hp]
      exact Nat.mul_div_mul_right _ _ (Nat.two_pow_pos _)
    rw [← h3, h1, h2]
    clear h1 h2 h3
    generalize (w.outByteAt 0).toNat = x
    generalize (w.outByteAt 1).toNat = y
    omega
  have hq : lowValue v / 2 ^ S < 510 := (Nat.div_lt_iff_lt_mul (Nat.two_pow_pos _)).2 b3
  have hskip : d.primeAt = d.cur.toNat := by
    have hne : ¬(d.cur.toNat < d.len.toNat ∧ d.inByteAt d.cur.toNat = 0xFF) := by
      rintro ⟨-, h⟩
      have h0 := hbytes 0 (by omega)
      rw [Nat.add_zero, h] at h0
      have : (0xFF : Byte).toNat = 255 := rfl
      rw [← h0] at hnine
      omega
    unfold DecUnit.primeAt
    rw [if_neg hne, Nat.add_zero]
  have hcode : d.primeCode = lowValue v / 2 ^ S := by
    unfold DecUnit.primeCode
    rw [hskip, hbyte 1 (by omega), ← hnine]
    have := hbyte 0 (by omega)
    rw [Nat.add_zero] at this
    rw [this]
  refine ⟨⟨hr, hv, ?_, ?_, ?_, fun j hj => ?_⟩, by omega, hskip, by omega⟩
  · rw [d.primeRegs_eq]
    rfl
  · rw [d.primeRegs_eq]
    exact hctx
  · rw [hl0, b1, hs0, Nat.sub_zero, ← hcode, d.primeRegs_eq]
    simp only [BitVec.toNat_ofNat, Nat.add_zero]
    exact Nat.mod_eq_of_lt d.primeCode_lt
  · rw [b1, hs0, Nat.sub_zero] at hj ⊢
    rw [d.primed_bit (by omega), hskip, hbyte _ (by omega), ← bytesValue_bit w.outByteAt w.outLen.toNat (9 + j) (by omega),
      hval, show 8 * w.outLen.toNat - 1 - (9 + j) = (S - 1 - j) + T by omega, Nat.testBit_mul_two_pow]
    simp

/-! How far the decoder has read (rules R110, R118). -/

/-- The decoder stands where the encoder's shifts take it, in a block that starts at byte `p`: nine bits from priming and one
for each shift used, less those in the reservoir. -/
def ReadTo (p : Nat) (u : EncUnit) (d : DecUnit) : Prop :=
  d.nres.toNat ≤ 7 ∧ 8 * d.cur.toNat = 8 * p + 9 + u.shifts + d.nres.toNat

theorem ReadTo.bin {cfg : Config} {c : Fin 32} {b : Bool} {k : Nat} {u w : EncUnit} {d e : DecUnit} {p : Nat}
    (h : ReadTo p u d) (hb : DecUnit.Binned cfg c b k d e) (hs : w.shifts = u.shifts + k)
    (hlim : p + u.shifts < 2 ^ 30) : ReadTo p w e := by
  obtain ⟨h1, h2⟩ := h
  have hk := hb.turns
  have hn := hb.nres
  have hc := hb.cur
  have hcl := d.cur.isLt
  unfold ReadTo
  by_cases hle : k ≤ d.nres.toNat
  · rw [if_pos hle] at hn hc
    rw [hn, hc, hs]
    omega
  · rw [if_neg hle] at hn hc
    rw [hn, hc, hs, advanceCursor_toNat, if_neg (by omega)]
    omega

/-- Right after priming. -/
theorem ReadTo.start (u : EncUnit) (hu : u.shifts = 0) (d : DecUnit) (h : d.primeAt + 2 < 2 ^ 32 - 1) (a : Bool) :
    ReadTo d.primeAt u { d.primeRegs with active := a } := by
  have h7 : (7 : BitVec 4).toNat = 7 := rfl
  have hm : (BitVec.ofNat 32 (min (d.primeAt + 2) (2 ^ 32 - 1))).toNat = d.primeAt + 2 := by
    rw [BitVec.toNat_ofNat, Nat.min_eq_left (by omega), Nat.mod_eq_of_lt (by omega)]
  unfold ReadTo
  rw [hu, d.primeRegs_eq]
  simp only [h7, hm]
  exact ⟨Nat.le_refl _, by omega⟩

end Sys2Proof.Machine
end

