-- ==== Sys2Proof/Laws/Syntax.lean ====
section
/-! SUPPORT. The decoder's syntax procedures as the bins they read (rules R130 to R134): each goes through exactly where the
decoder's bins are those of what it returns, and the parts of a level raise LEVEL_RANGE where theirs are. -/

namespace Sys2Proof.Machine

open Safety

theorem reads_nil {cfg : Config} {u v : DecUnit} : Reads cfg [] u v ↔ u = v := by simp [Reads, readBins]

theorem reads_cons {cfg : Config} {b : Bool} {c : Fin 32} {bins : List (Bool × Fin 32)} {u w : DecUnit} :
    Reads cfg ((b, c) :: bins) u w ↔ ∃ v, decodeBin cfg c u = .ok b v ∧ Reads cfg bins v w := by
  simp only [Reads, List.map_cons, readBins, Res.bind_eq_ok, Res.ok.injEq, List.cons.injEq]
  constructor
  · rintro ⟨b', v, h, bs, w', h', ⟨rfl, rfl⟩, rfl⟩
    exact ⟨v, h, h'⟩
  · rintro ⟨v, h, h'⟩
    exact ⟨b, v, h, _, w, h', ⟨rfl, rfl⟩, rfl⟩

theorem reads_one {cfg : Config} {b : Bool} {c : Fin 32} {u v : DecUnit} :
    Reads cfg [(b, c)] u v ↔ decodeBin cfg c u = .ok b v := by simp [reads_cons, reads_nil]

theorem reads_append {cfg : Config} {xs ys : List (Bool × Fin 32)} {u w : DecUnit} :
    Reads cfg (xs ++ ys) u w ↔ ∃ v, Reads cfg xs u v ∧ Reads cfg ys v w := by
  induction xs generalizing u with
  | nil => simp [reads_nil]
  | cons p xs ih =>
    obtain ⟨b, c⟩ := p
    simp only [List.cons_append, reads_cons, ih]
    exact ⟨fun ⟨v, h, x, hx, hy⟩ => ⟨x, ⟨v, h, hx⟩, hy⟩, fun ⟨x, ⟨v, h, hx⟩, hy⟩ => ⟨v, h, x, hx, hy⟩⟩

/-- A bin raises no LEVEL_RANGE (rule R151). -/
theorem decodeBin_ne_levelRange {cfg : Config} {c : Fin 32} {u v : DecUnit} :
    decodeBin cfg c u ≠ .raised .levelRange v := fun h => by simpa using (decodeBin_raised h).1

/-- Phase 1 (rule R130): the flags of the listed indices, ascending, are the bins read, each in the context that the flags
give it. -/
theorem decodeSig_iff {cfg : Config} {is : List (Fin 16)} (his : is.Pairwise (· < ·)) {sig sig' : Vector Bool 16}
    {u v : DecUnit} :
    decodeSig cfg is sig u = .ok sig' v ↔
      (∀ k, k ∉ is → sig'.get k = sig.get k) ∧ Reads cfg (is.map fun i => (sig'.get i, sigCtx i sig'.get)) u v := by
  induction is generalizing sig u with
  | nil =>
    simp only [decodeSig, Res.ok.injEq, List.map_nil, reads_nil, List.not_mem_nil, not_false_eq_true, true_implies]
    refine and_congr_left fun _ => ⟨fun h => by simp [h], fun h => ?_⟩
    exact Vector.ext fun i hi => (h ⟨i, hi⟩).symm
  | cons i is ih =>
    obtain ⟨hi, his⟩ := List.pairwise_cons.1 his
    have hni : i ∉ is := fun h => absurd (hi i h) (lt_irrefl i)
    have hctx : (∀ k, k ∉ is → k ≠ i → sig'.get k = sig.get k) → sigCtx i sig.get = sigCtx i sig'.get := by
      intro h
      have key : ∀ k : Fin 16, k < i → sig.get k = sig'.get k := fun k hk =>
        (h k (fun hm => absurd (hi k hm) (not_lt_of_gt hk)) (ne_of_lt hk)).symm
      unfold sigCtx
      have h1 : i.val % 4 ≠ 0 → sig.get (i - 1) = sig'.get (i - 1) := fun h => key _ (by
        rw [Fin.lt_def, Fin.sub_def]; simp only; have := i.isLt; omega)
      have h4 : 4 ≤ i.val → sig.get (i - 4) = sig'.get (i - 4) := fun h => key _ (by
        rw [Fin.lt_def, Fin.sub_def]; simp only; have := i.isLt; omega)
      by_cases a : i.val % 4 ≠ 0 <;> by_cases b : 4 ≤ i.val <;> simp [a, b, h1, h4]
    simp only [decodeSig, Res.bind_eq_ok, ih his, List.map_cons, reads_cons]
    constructor
    · rintro ⟨b, w, hb, h, hr⟩
      have hoff : ∀ k, k ∉ is → k ≠ i → sig'.get k = sig.get k := fun k hk hki => by
        rw [h k hk, get_set_ne _ _ _ _ hki]
      have hbi : sig'.get i = b := by rw [h i hni, get_set_self]
      exact ⟨fun k hk => hoff k (fun hm => hk (List.mem_cons_of_mem _ hm)) (fun e => hk (e ▸ List.mem_cons_self)),
        w, by rw [← hctx hoff, hbi]; exact hb, hr⟩
    · rintro ⟨h, w, hb, hr⟩
      have hoff : ∀ k, k ∉ is → k ≠ i → sig'.get k = sig.get k := fun k hk hki => h k (by simp [hki, hk])
      refine ⟨sig'.get i, w, by rw [hctx hoff]; exact hb, fun k hk => ?_, hr⟩
      by_cases hki : k = i
      · subst hki; rw [get_set_self]
      · rw [get_set_ne _ _ _ _ hki, hoff k hk hki]

theorem codedOf_subset (last : Fin 16 → Bool) (is : List (Fin 16)) : codedOf last is ⊆ is := by
  induction is with
  | nil => exact fun _ h => h
  | cons i is ih =>
    intro k hk
    rcases List.mem_cons.1 hk with rfl | hk
    · exact List.mem_cons_self
    · split at hk
      · simp at hk
      · exact List.mem_cons_of_mem _ (ih hk)

theorem codedOf_congr {f g : Fin 16 → Bool} {is : List (Fin 16)} (h : ∀ k ∈ is, f k = g k) :
    codedOf f is = codedOf g is := by
  induction is with
  | nil => rfl
  | cons i is ih =>
    rw [codedOf, codedOf, h i List.mem_cons_self, ih fun k hk => h k (List.mem_cons_of_mem _ hk)]

theorem codedOf_sublist (last : Fin 16 → Bool) (is : List (Fin 16)) : (codedOf last is).Sublist is := by
  induction is with
  | nil => exact .slnil
  | cons i is ih =>
    rw [codedOf]
    split
    · exact .cons_cons _ (List.nil_sublist _)
    · exact .cons_cons _ ih

/-- Phase 2 (rules R130, R131): the flags read are those of the coded positions. -/
theorem decodeLast_iff {cfg : Config} {is coded : List (Fin 16)} (his : is.Nodup) {u v : DecUnit} :
    decodeLast cfg is u = .ok coded v ↔
      ∃ last : Fin 16 → Bool, coded = codedOf last is ∧ Reads cfg (coded.map fun i => (last i, lastCtx i)) u v := by
  induction is generalizing coded u with
  | nil =>
    simp only [decodeLast, Res.ok.injEq, codedOf]
    exact ⟨fun ⟨h, h'⟩ => ⟨fun _ => false, h.symm, by subst h; exact reads_nil.2 h'⟩,
      fun ⟨_, h, h'⟩ => ⟨h.symm, by subst h; exact reads_nil.1 h'⟩⟩
  | cons i is ih =>
    obtain ⟨hi, his⟩ := List.nodup_cons.1 his
    simp only [decodeLast, Res.bind_eq_ok]
    constructor
    · rintro ⟨b, w, hb, h⟩
      cases b with
      | true =>
        simp only [if_true, Res.ok.injEq] at h
        obtain ⟨rfl, rfl⟩ := h
        exact ⟨fun _ => true, by simp [codedOf], reads_one.2 hb⟩
      | false =>
        simp only [Bool.false_eq_true, if_false, Res.bind_eq_ok, Res.ok.injEq] at h
        obtain ⟨rest, x, hrest, rfl, rfl⟩ := h
        obtain ⟨last, rfl, hr⟩ := (ih his).1 hrest
        have hc : codedOf (fun k => if k = i then false else last k) is = codedOf last is :=
          codedOf_congr fun k hk => if_neg fun (e : k = i) => hi (e ▸ hk)
        have hm : ∀ k ∈ codedOf last is, k ≠ i := fun k hk e => hi (e ▸ codedOf_subset last is hk)
        refine ⟨fun k => if k = i then false else last k, by simp only [codedOf, if_true, Bool.false_eq_true, if_false, hc], ?_⟩
        rw [List.map_cons, reads_cons]
        refine ⟨w, by simpa using hb, ?_⟩
        rwa [List.map_congr_left (g := fun i => (last i, lastCtx i)) fun k hk => by simp [hm k hk]]
    · rintro ⟨last, rfl, hr⟩
      simp only [codedOf, List.map_cons, reads_cons] at hr
      obtain ⟨w, hb, hr⟩ := hr
      refine ⟨last i, w, hb, ?_⟩
      cases hl : last i with
      | true =>
        simp only [hl, if_true, List.map_nil, reads_nil] at hr
        simp [codedOf, hl, hr]
      | false =>
        simp only [hl, Bool.false_eq_true, if_false] at hr
        simp only [Bool.false_eq_true, if_false, Res.bind_eq_ok, Res.ok.injEq]
        exact ⟨_, v, (ih his).2 ⟨last, rfl, hr⟩, by simp [codedOf, hl], rfl⟩

/-- The unary prefix (rules R133, R134): `m - n` ones and a 0, with fewer ones than the limit. -/
theorem decodePrefix_ok_iff {cfg : Config} {i : Fin 16} {fuel n m : Nat} {u v : DecUnit} :
    decodePrefix cfg i fuel n u = .ok m v ↔
      ∃ k < fuel, m = n + k ∧ Reads cfg (List.replicate k (true, prefixCtx i) ++ [(false, prefixCtx i)]) u v := by
  induction fuel generalizing n u with
  | zero => simp [decodePrefix]
  | succ fuel ih =>
    simp only [decodePrefix, Res.bind_eq_ok]
    constructor
    · rintro ⟨b, w, hb, h⟩
      cases b with
      | false =>
        simp only [Bool.false_eq_true, if_false, Res.ok.injEq] at h
        exact ⟨0, by omega, h.1.symm, by rw [← h.2]; exact reads_one.2 hb⟩
      | true =>
        simp only [if_true] at h
        split at h
        · simp at h
        · obtain ⟨k, hk, rfl, hr⟩ := ih.1 h
          exact ⟨k + 1, by omega, by omega, by
            rw [List.replicate_succ, List.cons_append, reads_cons]; exact ⟨w, hb, hr⟩⟩
    · rintro ⟨k, hk, rfl, hr⟩
      cases k with
      | zero => exact ⟨false, v, reads_one.1 hr, by simp⟩
      | succ k =>
        rw [List.replicate_succ, List.cons_append, reads_cons] at hr
        obtain ⟨w, hb, hr⟩ := hr
        refine ⟨true, w, hb, ?_⟩
        rw [if_pos rfl, if_neg (by omega)]
        exact ih.2 ⟨k, by omega, by omega, hr⟩

/-- The unary prefix raises LEVEL_RANGE exactly at the one that meets the limit (rules R133, R134). -/
theorem decodePrefix_raised_iff {cfg : Config} {i : Fin 16} {fuel n : Nat} {u v : DecUnit} :
    decodePrefix cfg i fuel n u = .raised .levelRange v ↔ Reads cfg (List.replicate fuel (true, prefixCtx i)) u v := by
  induction fuel generalizing n u with
  | zero => simp [decodePrefix, reads_nil]
  | succ fuel ih =>
    simp only [decodePrefix, Res.bind_eq_raised, List.replicate_succ, reads_cons, decodeBin_ne_levelRange, false_or]
    constructor
    · rintro ⟨b, w, hb, h⟩
      cases b with
      | false => simp at h
      | true =>
        refine ⟨w, hb, ?_⟩
        by_cases hf : fuel = 0
        · subst hf
          simpa [reads_nil] using h
        · simpa [hf, ih] using h
    · rintro ⟨w, hb, h⟩
      refine ⟨true, w, hb, ?_⟩
      by_cases hf : fuel = 0
      · subst hf
        simpa [reads_nil] using h
      · simpa [hf, ih] using h

/-- The suffix (rule R133): four bins, most significant first, that spell it. -/
theorem decodeSuffix_iff {cfg : Config} {x : Nat} {u v : DecUnit} :
    decodeSuffix cfg [0, 1, 2, 3] 0 u = .ok x v ↔
      x < 16 ∧ Reads cfg [(x.testBit 3, 21), (x.testBit 2, 22), (x.testBit 1, 23), (x.testBit 0, 24)] u v := by
  have c : suffixCtx 0 = 21 ∧ suffixCtx 1 = 22 ∧ suffixCtx 2 = 23 ∧ suffixCtx 3 = 24 := by decide
  simp only [decodeSuffix, Res.bind_eq_ok, Res.ok.injEq, reads_cons, reads_nil, c]
  constructor
  · rintro ⟨a, p, ha, b, q, hb, d, r, hd, e, s, he, rfl, rfl⟩
    refine ⟨by clear ha hb hd he; revert a b d e; decide, p, ?_, q, ?_, r, ?_, s, ?_, rfl⟩
    · rw [ha]; congr 1; clear ha hb hd he; revert a b d e; decide
    · rw [hb]; congr 1; clear ha hb hd he; revert a b d e; decide
    · rw [hd]; congr 1; clear ha hb hd he; revert a b d e; decide
    · rw [he]; congr 1; clear ha hb hd he; revert a b d e; decide
  · rintro ⟨hx, p, ha, q, hb, r, hd, s, he, rfl⟩
    refine ⟨_, p, ha, _, q, hb, _, r, hd, _, s, he, ?_, rfl⟩
    clear ha hb hd he
    revert x
    decide

theorem decodeSuffix_ne_levelRange {cfg : Config} {js : List (Fin 4)} {x : Nat} {u v : DecUnit} :
    decodeSuffix cfg js x u ≠ .raised .levelRange v := by
  induction js generalizing x u with
  | nil => simp [decodeSuffix]
  | cons j js ih =>
    intro h
    rcases Res.bind_eq_raised.1 h with h | ⟨_, _, _, h⟩
    · exact decodeBin_ne_levelRange h
    · exact ih h

/-! Zero input (rules R109, R117). -/

/-- The offset is 0 and so is every bit to come, as past the end of a stream primed from zero bytes (rules R109, R115). -/
structure DecUnit.ZeroInput (u : DecUnit) : Prop where
  range_lo : 256 ≤ u.r.toNat
  range_hi : u.r.toNat ≤ 510
  code : u.code.toNat = 0
  bits : ∀ j, upcomingBit u j = false

/-- On zero input every bin is its context's most probable symbol, and the input stays zero (rules R112, R117). -/
theorem DecUnit.ZeroInput.bin {cfg : Config} (hcfg : cfg.Legal) {u : DecUnit} (h : u.ZeroInput) (c : Fin 32) :
    ∃ v, decodeBin cfg c u = .ok (u.ctx.get c).mps v ∧ v.ZeroInput ∧
      v.ctx = u.ctx.put c ((u.ctx.get c).mpsUpdate cfg) := by
  have hw := widths_eq_lpsWidth (e := u.ctx.get c) (hcfg.1 _) h.range_lo
  rcases decodeBin_cases cfg c u h.range_hi (by have := h.code; have := h.range_lo; omega) with ⟨h', -⟩ | ⟨b, k, v, hb, hv⟩
  · rw [h'] at hw; cases hw
  · have hpos : ¬ mpsWidth cfg u.r (u.ctx.get c) ≤ u.code.toNat := by
      have := (widths_some hw).2.2.2
      have := h.code
      omega
    have hup : ∀ n, upcomingValue u n = 0 := fun n => by
      induction n with
      | zero => rfl
      | succ n ih => simp [upcomingValue, ih, h.bits]
    refine ⟨v, by rw [hb, hv.bin, if_neg hpos], ⟨hv.range_lo, hv.range_hi, ?_, fun j => ?_⟩, by rw [hv.ctx, if_neg hpos]⟩
    · rw [hv.code, if_neg hpos, h.code, hup]; simp
    · rw [hv.bits, h.bits]

/-- On zero input a context whose most probable symbol is 1 decodes ones without end (rule R134). -/
theorem DecUnit.ZeroInput.reads_ones {cfg : Config} (hcfg : cfg.Legal) {c : Fin 32} (n : Nat) {u : DecUnit}
    (h : u.ZeroInput) (hc : (u.ctx.get c).mps = true) : ∃ v, Reads cfg (List.replicate n (true, c)) u v := by
  induction n generalizing u with
  | zero => exact ⟨u, reads_nil.2 rfl⟩
  | succ n ih =>
    obtain ⟨v, hb, hv, hx⟩ := h.bin hcfg c
    obtain ⟨w, hw⟩ := ih hv (by rw [hx, CtxTable.get_put_self]; exact hc)
    exact ⟨w, by rw [List.replicate_succ, reads_cons]; exact ⟨v, hc ▸ hb, hw⟩⟩

/-! Runs of DEC_BIN (rules R116, R150). -/

/-- A bin leaves an open block open (rule R116). -/
theorem decodeBin_active {cfg : Config} {b : Bool} {c : Fin 32} {u v : DecUnit} (h : decodeBin cfg c u = .ok b v) :
    v.active = u.active := by
  have := decodeBin_frame cfg c [c] List.mem_cons_self u
  rw [h] at this
  rw [this.1]

/-- A DEC_BIN on an open block that decodes its bin. -/
theorem after_decBin_ok {s : State} {b : Bool} {c : Fin 32} {v : DecUnit} (ha : s.dec.active = true)
    (h : decodeBin s.cfg c s.dec = .ok b v) :
    after (.decBin c) s =
      { s with dec := v, status := { s.status with err := .ok, bin := b, busy := false } } := by
  rw [after_decBin, if_pos ha, h]
  rfl

/-- DEC_BINs that read the listed bins return them and complete. -/
theorem decBins_of_reads {bins : List (Bool × Fin 32)} {s : State} {v : DecUnit} (ha : s.dec.active = true)
    (he : s.status.err = .ok) (h : Reads s.cfg bins s.dec v) :
    ∃ t, decBins (bins.map Prod.snd) s = (bins.map Prod.fst, t) ∧ t.status.err = .ok ∧ t.dec = v := by
  induction bins generalizing s with
  | nil => exact ⟨s, rfl, he, reads_nil.1 h⟩
  | cons p bins ih =>
    obtain ⟨b, c⟩ := p
    obtain ⟨w, hb, hr⟩ := reads_cons.1 h
    obtain ⟨t, h1, h2⟩ := ih (s := after (.decBin c) s) (by rw [after_decBin_ok ha hb]; exact decodeBin_active hb ▸ ha)
      (by rw [after_decBin_ok ha hb]) (by rw [after_decBin_ok ha hb]; exact hr)
    refine ⟨t, ?_, h2⟩
    simp only [List.map_cons, decBins, h1]
    rw [after_decBin_ok ha hb]

/-- Without an open block no DEC_BIN completes (rule R116). -/
theorem decBins_closed {cs : List (Fin 32)} {s : State} (ha : s.dec.active = false) (he : cs = [] → s.status.err ≠ .ok) :
    (decBins cs s).2.status.err ≠ .ok := by
  induction cs generalizing s with
  | nil => exact he rfl
  | cons c cs ih =>
    have h : after (.decBin c) s = raiseFault .notReady s := by rw [after_decBin, ha]; rfl
    show (decBins cs (after (.decBin c) s)).2.status.err ≠ .ok
    rw [h]
    exact ih ha fun _ => by simp [raiseFault, Status.raised]

/-- DEC_BINs of which the last completes have read the bins they return (rules R116, R149). -/
theorem reads_of_decBins {bins : List (Bool × Fin 32)} {s t : State} (hne : bins ≠ [])
    (h : decBins (bins.map Prod.snd) s = (bins.map Prod.fst, t)) (he : t.status.err = .ok) :
    s.dec.active = true ∧ Reads s.cfg bins s.dec t.dec := by
  induction bins generalizing s with
  | nil => exact absurd rfl hne
  | cons p bins ih =>
    obtain ⟨b, c⟩ := p
    cases ha : s.dec.active with
    | false =>
      have := decBins_closed (cs := ((b, c) :: bins).map Prod.snd) ha (by simp)
      rw [h] at this
      exact absurd he this
    | true =>
      refine ⟨rfl, ?_⟩
      cases hb : decodeBin s.cfg c s.dec with
      | raised e v =>
        have hn : (decBins (bins.map Prod.snd) (after (.decBin c) s)).2.status.err ≠ .ok := by
          have e1 := decodeBin_raised hb
          have h1 : after (.decBin c) s = raiseFault .zeroWidth { s with dec := v.failed } := by
            rw [after_decBin, if_pos ha, hb, e1.1]
            rfl
          rw [h1]
          exact decBins_closed rfl fun _ => by simp [raiseFault, Status.raised]
        have h2 : (decBins (bins.map Prod.snd) (after (.decBin c) s)).2 = t := congrArg Prod.snd h
        rw [h2] at hn
        exact absurd he hn
      | ok b' v =>
        have hs := after_decBin_ok ha hb
        have h1 := congrArg Prod.fst h
        have h2 := congrArg Prod.snd h
        simp only [List.map_cons, decBins, List.cons.injEq] at h1 h2
        rw [hs] at h1 h2
        obtain ⟨rfl, h1⟩ := h1
        refine reads_cons.2 ⟨v, hb, ?_⟩
        by_cases hbins : bins = []
        · subst hbins
          rw [reads_nil, ← h2]
          rfl
        · exact (ih hbins (Prod.ext h1 h2)).2

/-- DEC_START and DEC_BINs complete exactly where the unit primes and reads the bins. -/
theorem startReads_iff {bins : List (Bool × Fin 32)} (hne : bins ≠ []) {s : State} (hr : s.dec.ready = true) {v : DecUnit} :
    (∃ t, StartReads bins s t ∧ t.dec = v) ↔ ∃ u, prime s.dec = .ok () u ∧ Reads s.cfg bins u v := by
  have hp : ∀ u, prime s.dec = .ok () u → after .decStart s = complete { s with dec := u } ∧ u.active = true := by
    intro u hu
    refine ⟨by rw [after_decStart, if_pos hr, hu]; rfl, ?_⟩
    unfold prime at hu
    simp only at hu
    split at hu <;> simp only [Res.ok.injEq, reduceCtorEq] at hu
    rw [← hu.2]
  constructor
  · rintro ⟨t, ⟨h, he⟩, rfl⟩
    obtain ⟨ha, h⟩ := reads_of_decBins hne h he
    cases hu : prime s.dec with
    | ok a u =>
      rw [(hp u hu).1] at h
      exact ⟨u, rfl, h⟩
    | raised e u =>
      rw [after_decStart, if_pos hr, hu] at ha
      exact absurd ha (by simp [endDec, raiseFault, DecUnit.failed])
  · rintro ⟨u, hu, h⟩
    obtain ⟨e1, e2⟩ := hp u hu
    obtain ⟨t, h1, h2, h3⟩ := decBins_of_reads (s := after .decStart s) (bins := bins) (v := v)
      (by rw [e1]; exact e2) (by rw [e1]; rfl) (by rw [e1]; exact h)
    exact ⟨t, ⟨h1, h2⟩, h3⟩

end Sys2Proof.Machine
end

