-- ==== Sys2Proof/Tests/Slice0.lean ====
section
/-! SUPPORT. Tests: the smoke test of WellFormed, words written out from the spec's encoding, one step per test with the values
of the spec's vectors (95_test_vectors.md), and, for every statement with hypotheses, states and operands that meet them. -/

namespace Sys2Proof.Tests

open Sys2Proof.Machine Sys2Proof.Safety

/-! The states the tests run on. -/

/-- The illustrative configuration of 95_test_vectors.md, section 0 (93_implementation_defined.md G3). -/
def illus : Config where
  lpsScale := #v[32768, 26214, 20971, 16777, 13421, 10737, 8589, 6871, 5497, 4398, 3518, 2814, 2251, 1801, 1441, 1152]
  transMps := #v[1, 2, 3, 4, 5, 6, 7, 8, 9, 10, 11, 12, 13, 14, 15, 15]
  transLps := #v[0, 0, 0, 1, 2, 3, 4, 5, 6, 7, 8, 9, 10, 11, 12, 13]
  scanInter := #v[0, 1, 4, 8, 5, 2, 3, 6, 9, 12, 13, 10, 7, 11, 14, 15]
  scanField := #v[0, 4, 1, 8, 12, 5, 9, 13, 2, 6, 10, 14, 3, 7, 11, 15]
  outCap := 65536
  inCap := 65536
  coreBase := 0

/-- The illustrative configuration with small buffers. -/
def small : Config := { illus with outCap := 2, inCap := 1024 }

/-- A configuration that breaks rule R10: every width split gives an LPS width of 0. -/
def zeroWidths : Config := { illus with lpsScale := Vector.replicate 16 0 }

/-- Right after reset, with a configuration and the host's accesses. -/
def fresh (c : Config) (h : List HostEvent) : State := State.afterReset c 0 h

/-- After reset, with an accepted stream. -/
def loaded (bytes : List Byte) : State :=
  { fresh illus [] with dec := { DecUnit.reset 0 with
      inBuf := bytes.zipIdx.map fun p => (p.2, p.1), inLen := BitVec.ofNat 17 bytes.length,
      len := BitVec.ofNat 17 bytes.length, ready := true } }

/-- After reset, with a block to encode: the coefficients in raster order. -/
def withGrid (c : Config) (g : Coefs) : State :=
  { fresh c [] with enc := { EncUnit.reset 0 with coefIn := g } }

/-- The block of vector V-B2: 3, -1 and 2 in the rows' first places. -/
def knownGrid : Coefs := #v[3, 0xFFFF, 0, 0, 2, 0, 0, 0, 0, 0, 0, 0, 0, 0, 0, 0]

/-- An open session at the last row of vector V-E1's trace. -/
def openSession : State :=
  { fresh illus [] with enc := { EncUnit.reset 0 with r := 312, l := 17768, cnt := 1, active := true } }

/-- An open session whose produced bytes fill a capacity of 2, one shift before a byte. -/
def fullSession : State :=
  { fresh small [] with enc := { EncUnit.reset 0 with
      r := 256, l := 0, cnt := 0, pendValid := true, pend := 0x4F, outLen := 1, outBuf := [(0, 0x12)], active := true } }

/-- The answer of a procedure that went through. -/
def answer {σ α : Type} : Res σ α → Option α
  | .ok a _ => some a
  | .raised _ _ => none

/-- The bytes of the encoder's output. -/
def outBytes (s : State) : List Byte := (List.range s.enc.outLen.toNat).map s.enc.outByteAt

/-! WellFormed: one ill-formed set of fields per check, each refused. -/

theorem test_wf_accepts : (CmdFields.mk 0x4 0 0 0 31 1 0).wellFormed = true := by decide
theorem test_wf_opcodeDefined : (CmdFields.mk 0xB 0 0 0 0 0 0).wellFormed = false := by decide
theorem test_wf_reserved7 : (CmdFields.mk 0x4 0 0 1 0 0 0).wellFormed = false := by decide
theorem test_wf_reservedHigh : (CmdFields.mk 0x4 0 0 0 0 0 0x20000).wellFormed = false := by decide
theorem test_wf_blk : (CmdFields.mk 0x4 1 0 0 0 0 0).wellFormed = false := by decide
theorem test_wf_comp : (CmdFields.mk 0x9 0 2 0 0 0 0).wellFormed = false := by decide
theorem test_wf_ctx : (CmdFields.mk 0x6 0 0 0 1 0 0).wellFormed = false := by decide
theorem test_wf_bin : (CmdFields.mk 0x9 0 0 0 0 1 0).wellFormed = false := by decide

/-! Decoding: words written out bit by bit, `BIN CTX 0 COMP BLK OP` from bit 13 down (rule R70). -/

theorem test_decode_nop : decode 0b0_00000_0_00_0_0000 = .command .nop := by decide
theorem test_decode_encCtxReset : decode 0b0_00000_0_00_0_0001 = .command .encCtxReset := by decide
theorem test_decode_decCtxReset : decode 0b0_00000_0_00_0_0010 = .command .decCtxReset := by decide
theorem test_decode_encStart : decode 0b0_00000_0_00_0_0011 = .command .encStart := by decide
theorem test_decode_encBin : decode 0b1_10010_0_00_0_0100 = .command (.encBin 18 true) := by decide
theorem test_decode_encFinish : decode 0b0_00000_0_00_0_0101 = .command .encFinish := by decide
theorem test_decode_encBlock : decode 0b0_00000_0_10_1_0110 = .command (.encBlock .field .chroma2) := by decide
theorem test_decode_decLoad : decode 0b0_00000_0_00_0_0111 = .command .decLoad := by decide
theorem test_decode_decStart : decode 0b0_00000_0_00_0_1000 = .command .decStart := by decide
theorem test_decode_decBin : decode 0b0_01101_0_00_0_1001 = .command (.decBin 13) := by decide
theorem test_decode_decBlock : decode 0b0_00000_0_01_0_1010 = .command (.decBlock .inter .chroma1) := by decide
theorem test_decode_reserved_opcode : decode 0x0000000B = .illegal (.reservedOpcode 0xB) := by decide
theorem test_decode_reserved_bit : decode 0x00000084 = .illegal .reservedBits := by decide
theorem test_decode_unused_field : decode 0x00002009 = .illegal .unusedField := by decide

/-- V-E1's word for bin 1 in context 1. -/
theorem test_encode_encBin : encode (.encBin 1 true) = 0x00002104 := by decide

theorem test_decodeTableWord : decodeTableWord 32 0x00001009 = some (.decBin 16) := by decide

/-- The step after `withFetchWord` runs that command: ENC_START opens a session at reset. -/
theorem test_withFetchWord : step (State.reset.withFetchWord 32 0x00000003) = execEncStart State.reset := by rfl

/-! Single commands. -/

/-- NOP sets ERR to OK and keeps FAULT (vector V-S2: a NOP after a fault reads 0x00000020). -/
theorem test_nop :
    (after .nop { fresh illus [] with status := ⟨false, false, true, .shortStream⟩ }).statusWord = 0x00000020 := by decide

theorem test_encCtxReset :
    (after .encCtxReset { fresh illus [] with enc := { EncUnit.reset 0 with ctx := Vector.replicate 32 ⟨true, 9⟩ } }).enc.ctx
      = Vector.replicate 32 ⟨false, 0⟩ := by decide

theorem test_decCtxReset :
    (after .decCtxReset { fresh illus [] with dec := { DecUnit.reset 0 with ctx := Vector.replicate 32 ⟨true, 9⟩ } }).dec.ctx
      = Vector.replicate 32 ⟨false, 0⟩ := by decide

/-- ENC_START from an open session: V-E1's start row, and ENC_ACTIVE in STATUS. -/
theorem test_encStart :
    let t := after .encStart openSession
    (t.enc.r, t.enc.l, t.enc.cnt, t.enc.outLen, t.statusWord) = (510, 0, 8, 0, 0x00000002) := by decide

/-- V-E1, row 3: the LPS path in context entry (0, 2), two shifts, and the entry's new state. -/
theorem test_encBin_lps :
    let t := after (.encBin 0 true) { fresh illus [] with enc := { EncUnit.reset 0 with
      r := 307, l := 0, cnt := 7, active := true, ctx := CtxTable.init.put 0 ⟨false, 2⟩ } }
    (t.enc.r, t.enc.l, t.enc.cnt, t.enc.ctx.get 0) = (392, 836, 5, ⟨false, 0⟩) := by decide +kernel

/-- ENC_BIN on a closed session raises NOT_STARTED (rule R107). -/
theorem test_encBin_notStarted : (after (.encBin 0 true) (fresh illus [])).statusWord = 0x00000920 := by decide

/-- V-E1: ENC_FINISH gives 45 68, R = 256, L = 0, CNT = 7. -/
theorem test_encFinish :
    let t := after .encFinish openSession
    outBytes t = [0x45, 0x68] ∧ (t.enc.r, t.enc.l, t.enc.cnt, t.enc.pendValid, t.enc.active) = (256, 0, 7, false, false) := by
  decide +kernel

/-- V-B2: the stream of the known block. -/
theorem test_encBlock : outBytes (after (.encBlock .inter .luma) (withGrid illus knownGrid)) = [0xD9, 0xC0, 0x27, 0x00] := by
  decide +kernel

/-- V-S4: OUT_OVERFLOW with a capacity of 2. -/
theorem test_encBlock_overflow :
    (after (.encBlock .inter .luma) (withGrid small knownGrid)).statusWord = 0x00000720 := by decide +kernel

/-- V-D4: IN_LEN = 2000 with IN_CAP = 1024. -/
theorem test_decLoad_badLen :
    (after .decLoad { fresh small [] with dec := { DecUnit.reset 0 with inLen := 2000 } }).statusWord = 0x00000420 := by decide

/-- V-D1: ff 12 34, the leading 0xFF skipped. -/
theorem test_decStart :
    let t := after .decStart (loaded [0xFF, 0x12, 0x34])
    (t.dec.code, t.dec.res, t.dec.nres, t.dec.cur, t.statusWord) = (36, 0x34, 7, 3, 0x0000000C) := by decide +kernel

/-- V-D1: ff ff 00 raises STREAM_INVALID. -/
theorem test_decStart_invalid :
    let t := after .decStart (loaded [0xFF, 0xFF, 0x00])
    (t.dec.cur, t.dec.ready, t.dec.active, t.statusWord) = (3, false, false, 0x00000520) := by decide +kernel

/-- V-D2, row 3: the LPS, two bits taken in, BIN set. -/
theorem test_decBin :
    let s := loaded [0x45, 0x68]
    let t := after (.decBin 0) { s with dec := { s.dec with
      r := 307, code := 277, res := 0x68, nres := 6, cur := 2, active := true, ctx := CtxTable.init.put 0 ⟨false, 2⟩ } }
    (t.dec.r, t.dec.code, t.dec.nres, t.statusWord, t.dec.ctx.get 0) = (392, 274, 4, 0x0000001C, ⟨false, 0⟩) := by
  decide +kernel

/-- V-B2: the known block's stream decodes to its signs, 1, -1 and 1, with the cursor at 4. -/
theorem test_decBlock :
    let t := after (.decBlock .inter .luma) (loaded [0xD9, 0xC0, 0x27, 0x00])
    t.dec.coefOut = #v[1, 0xFFFF, 0, 0, 1, 0, 0, 0, 0, 0, 0, 0, 0, 0, 0, 0] ∧ t.dec.cur = 4 := by decide +kernel

/-- V-E3: a carry with one deferred 0xFF writes PEND + 1 and a zero. -/
theorem test_emit_carry :
    let u := EncUnit.resolve 0x101 { EncUnit.reset 0 with
      pendValid := true, pend := 0x34, ffRun := 1, outLen := 1, outBuf := [(0, 0x4F)] }
    u.outBuf = [(0, 0x4F), (1, 0x35), (2, 0x00)] ∧ u.pend = 0x01 ∧ u.ffRun = 0 := by decide +kernel

/-- A read of ENC_PENDING (rule R50): PEND_VALID in bit 8. -/
theorem test_read_encPending : fullSession.readReg .encPending = 0x0000014F := by decide

/-! Witnesses: states and operands that meet the hypotheses of each statement that has some. -/

/-- Words that decode, with each operand at its largest value. -/
theorem witness_EncodeDecodeRoundTrip : decode 0x00003F04 = .command (.encBin 31 true) := by decide

theorem witness_DecodeMatchesMaskTable :
    ("DEC_BIN", (0x00000009 : Word), (0xFFFFE0FF : Word)) ∈ opcodeTable ∧ (0x00001F09 : Word) &&& 0xFFFFE0FF = 0x00000009 := by
  decide

theorem witness_OperandAssembly :
    decode 0x00003F04 = .command (.encBin 31 true) ∧ decode 0x00001F09 = .command (.decBin 31) ∧
    decode 0x00000076 = .command (.encBlock .field .unnamed) ∧ decode 0x0000007A = .command (.decBlock .field .unnamed) := by
  decide

theorem witness_StepRunsDecodedCommand :
    (fresh illus [.write 32 0x00000 0x00000003]).pending = .write 32 0x00000 0x00000003 :: [] ∧
    (fresh illus [.write 32 0x00000 0x00000003]).status.busy = false ∧ decode 0x00000003 = .command .encStart := by decide

theorem witness_IllegalWordStep :
    (fresh illus [.write 32 0x00000 0x0000000F]).pending = .write 32 0x00000 0x0000000F :: [] ∧
    (fresh illus [.write 32 0x00000 0x0000000F]).status.busy = false ∧
    (∀ row ∈ opcodeTable, (0x0000000F : Word) &&& row.2.2 ≠ row.2.1) ∧
    0xB ≤ ((0x0000000B : Word).extractLsb' 0 4).toNat ∧ 0xB ≤ ((0x0000000F : Word).extractLsb' 0 4).toNat := by decide

theorem witness_IdleAndResetSteps :
    (fresh illus []).pending = [] ∧ (fresh illus [.reset]).pending = .reset :: [] := by decide

theorem witness_IssueShowsTheOutcome :
    (fresh illus (issue (encode .decStart))).pending = issue (encode .decStart) ++ [] ∧
    (fresh illus (issue (encode .decStart))).status.busy = false := by decide

theorem witness_BusMapRoundTrip :
    CapsOk illus ∧ mapped illus (.inBuf 65535) = true ∧ busDecode illus 32 0x8FFFC = .ok (.inBuf 65535) := by decide

/-- A refused access of each kind: the width, the alignment, a hole of the map, the first and the last index past OUT_CAP
and past IN_CAP. -/
theorem witness_BusRefusals :
    ((16 : Nat) ≠ 32) ∧ (0x00002 : Addr).toNat % 4 ≠ 0 ∧
    ((0x00018 : Addr).toNat % 4 = 0 ∧ Reg.atAddr small (0x00018 : Addr).toNat = none) ∧
    (small.outCap ≤ 2 ∧ (0x10008 : Addr).toNat = 0x10000 + 4 * 2) ∧
    (small.outCap ≤ 65535 ∧ (0x4FFFC : Addr).toNat = 0x10000 + 4 * 65535) ∧
    (small.inCap ≤ 1024 ∧ (0x51000 : Addr).toNat = 0x50000 + 4 * 1024) ∧
    (small.inCap ≤ 65535 ∧ (0x8FFFC : Addr).toNat = 0x50000 + 4 * 65535) := by decide

theorem witness_BusRefusals_pending :
    (fresh small [.read 16 0]).pending = .read 16 0 :: [] ∧ (fresh small [.write 32 0x00002 0]).pending = .write 32 0x00002 0 :: [] ∧
    (fresh small [.read 32 0x00018]).pending = .read 32 0x00018 :: [] := by decide

theorem witness_BusRefusals_unlisted : ∀ r, mapped small r = true → r.addr ≠ (0x00018 : Addr).toNat := by
  intro r h
  cases r <;> simp [Reg.addr, mapped] at h ⊢ <;> omega

theorem witness_ReadsAndReadOnlyWrites :
    CapsOk illus ∧ (fresh illus []).status.busy = false ∧ mapped illus .status = true ∧ readOnly .status = true ∧
    (fresh illus [.read 32 0x00004]).pending = .read 32 (BitVec.ofNat 20 Reg.status.addr) :: [] ∧
    (fresh illus [.write 32 0x00004 7]).pending = .write 32 (BitVec.ofNat 20 Reg.status.addr) 7 :: [] := by decide

/-- The last coefficient, and the first. -/
theorem witness_CoefficientRegisterAccess :
    (fresh illus [.write 32 0x0013C 0x8000]).pending =
      .write 32 (BitVec.ofNat 20 (0x00100 + 4 * (15 : Fin 16).val)) 0x8000 :: [] ∧
    (fresh illus [.write 32 0x00100 0x8000]).pending =
      .write 32 (BitVec.ofNat 20 (0x00100 + 4 * (0 : Fin 16).val)) 0x8000 :: [] := by decide

/-- The last context of each unit. -/
theorem witness_ContextRegisterAccess :
    (fresh illus [.write 32 0x0027C 0x1F]).pending =
      .write 32 (BitVec.ofNat 20 (0x00200 + 4 * (31 : Fin 32).val)) 0x1F :: [] ∧
    (fresh illus [.write 32 0x002FC 0x1F]).pending =
      .write 32 (BitVec.ofNat 20 (0x00280 + 4 * (31 : Fin 32).val)) 0x1F :: [] := by decide

theorem witness_InputRegisterAccess :
    CapsOk illus ∧ 65535 < illus.inCap ∧
    (fresh illus [.write 32 0x8FFFC 0xFF]).pending = .write 32 (BitVec.ofNat 20 (0x50000 + 4 * 65535)) 0xFF :: [] ∧
    (fresh illus [.write 32 0x0000C 2]).pending = .write 32 0x0000C 2 :: [] := by decide

theorem witness_FaultIsSticky :
    (let s := { fresh illus [.write 32 0x00000 0] with status := ⟨false, false, true, .shortStream⟩ };
      s.status.fault = true ∧ ∃ t, step s = .next t ∧ t.status.err = .ok) ∧
    ∃ t, step { fresh illus [.reset] with status := ⟨false, false, true, .shortStream⟩ } = .next t := by
  exact ⟨⟨rfl, _, rfl, rfl⟩, _, rfl⟩

/-- Each error of each command is met by a state. -/
theorem witness_ErrorsOfEachCommand :
    (after (.encBin 0 false) (fresh illus [])).status.err = .notStarted ∧
    (after (.encBin 0 false) { openSession with cfg := zeroWidths }).status.err = .zeroWidth ∧
    (after (.encBin 0 true) fullSession).status.err = .outOverflow ∧
    (after .encFinish (fresh illus [])).status.err = .notStarted ∧
    (after .encFinish fullSession).status.err = .outOverflow ∧
    (after (.encBlock .inter .luma) (withGrid zeroWidths knownGrid)).status.err = .zeroWidth ∧
    (after .decLoad (fresh illus [])).status.err = .shortStream ∧
    (after .decStart (fresh illus [])).status.err = .notReady ∧
    (after (.decBin 0) { loaded [0, 0] with cfg := zeroWidths }).status.err = .notReady ∧
    (after (.decBlock .inter .luma) (loaded [0xFF, 0xFF, 0xFF])).status.err = .streamInvalid ∧
    (after (.decBlock .inter .luma) { loaded [0, 0] with cfg := zeroWidths }).status.err = .zeroWidth := by decide +kernel

theorem witness_LegalTablesNeverZeroWidth :
    openSession.cfg.Legal ∧ Inv openSession ∧ (after (.encBin 0 true) openSession).status.err = .ok := by decide +kernel

/-- Two sets of flags that agree at `i - 1` and `i - 4` and differ elsewhere. -/
theorem witness_SignificanceContextReadsTwoFlags :
    (∀ k : Fin 16, k.val + 1 = (5 : Fin 16).val ∨ k.val + 4 = (5 : Fin 16).val →
      decide (k.val = 4) = decide (k.val = 4 ∨ k.val = 7)) ∧
    decide ((7 : Fin 16).val = 4) ≠ decide ((7 : Fin 16).val = 4 ∨ (7 : Fin 16).val = 7) := by decide

theorem witness_BlockSyntaxContexts :
    (true, (8 : Fin 32)) ∈ blockBins illus .inter (#v[1, 0, 0, 0, 0, 0, 0, 0, 0, 0, 0, 0, 0, 0, 0, 0] : Coefs) ∧
    (3 : Fin 32) ∉ syntaxContexts ∧
    ∃ t, exec (.decBlock .inter .luma) (loaded [0xD9, 0xC0, 0x27, 0x00]) = .next t := by
  exact ⟨by decide +kernel, by decide, _, rfl⟩

theorem witness_WidthSplit :
    illus.Legal ∧ 256 ≤ (256 : BitVec 9).toNat ∧ (256 : BitVec 9).toNat ≤ 510 ∧ 256 ≤ (510 : BitVec 9).toNat ∧
    (510 : BitVec 9).toNat ≤ 510 ∧ widths zeroWidths 510 0 = none := by decide

/-- A step that changes a context entry of each unit. -/
theorem witness_ContextsChangeOnlyByListedMeans :
    (∃ t, step (fresh illus [.write 32 0x0027C 0x1F]) = .next t ∧
      t.enc.ctx.get (31 : Fin 32) ≠ (fresh illus []).enc.ctx.get (31 : Fin 32)) ∧
    ∃ t, step (fresh illus [.write 32 0x00280 0x1F]) = .next t ∧
      t.dec.ctx.get (0 : Fin 32) ≠ (fresh illus []).dec.ctx.get (0 : Fin 32) := by
  exact ⟨⟨_, rfl, by decide⟩, _, rfl, by decide⟩

theorem witness_ControlCommandResults : (fresh illus []).status.busy = false := by decide

theorem witness_EncStartResult : openSession.status.busy = false := by decide

/-- Without an emission (a first bin), and with one for which there is room. -/
theorem witness_EncBinResult :
    (illus.Legal ∧ openSession.enc.active = true ∧ 256 ≤ openSession.enc.r.toNat ∧ 0 ≤ openSession.enc.cnt.toNat) ∧
    (let s := { openSession with enc := { openSession.enc with cnt := 0 } };
      s.enc.active = true ∧ 256 ≤ s.enc.r.toNat ∧ s.enc.produced < s.cfg.outCap ∧
      (after (.encBin 0 true) s).enc.pendValid = true) := by decide +kernel

/-- The closed session, the zero width, and the emission without room: a shift of 1 from a counter of 0. -/
theorem witness_EncBinFaults :
    (fresh illus []).enc.active = false ∧
    (openSession.enc.active = true ∧ lpsWidth zeroWidths 312 (openSession.enc.ctx.get 0) = 0) ∧
    (small.Legal ∧ fullSession.enc.active = true ∧ 256 ≤ fullSession.enc.r.toNat ∧
      256 ≤ partWidth small fullSession.enc.r (fullSession.enc.ctx.get 0) true * 2 ^ 1 ∧
      partWidth small fullSession.enc.r (fullSession.enc.ctx.get 0) true * 2 ^ 1 < 512 ∧
      fullSession.enc.cnt.toNat < 1 ∧ small.outCap ≤ fullSession.enc.produced) := by decide +kernel

/-- No room; and with room each kind of output, with and without a held byte. -/
theorem witness_EmitResolvesHeldBytes :
    small.outCap ≤ fullSession.enc.produced ∧ fullSession.enc.produced < illus.outCap ∧ 256 ≤ (256 : BitVec 9).toNat ∧
    (0x0FE : BitVec 9).toNat < 0xFF ∧ fullSession.enc.pendValid = true ∧ openSession.enc.pendValid = false ∧
    openSession.enc.produced < illus.outCap ∧ illus.outCap ≤ 65536 := by decide

/-- With room, from a counter of 1 and of 0; and without room. -/
theorem witness_EncFinishResult :
    (Inv openSession ∧ openSession.enc.active = true ∧ openSession.enc.produced + 2 ≤ openSession.cfg.outCap) ∧
    (let s := { openSession with enc := { openSession.enc with cnt := 0, l := 35536 } };
      Inv s ∧ s.enc.cnt = 0 ∧ s.enc.produced + 3 ≤ s.cfg.outCap) ∧
    (Inv fullSession ∧ fullSession.enc.active = true ∧ fullSession.cfg.outCap < fullSession.enc.produced + 3) := by
  exact ⟨⟨by decide +kernel, by decide +kernel, by decide +kernel⟩, ⟨by decide +kernel, by decide +kernel,
    by decide +kernel⟩, ⟨by decide +kernel, by decide +kernel, by decide +kernel⟩⟩

/-- With room, and without. -/
theorem witness_EncBlockResult :
    (let s := withGrid illus knownGrid;
      s.cfg.Legal ∧ Inv s ∧ (9 + sessionShifts s.cfg (blockBins s.cfg .inter s.enc.coefIn) 510 s.enc.ctx + 7) / 8 = 4 ∧
      4 ≤ s.cfg.outCap) ∧
    (let s := withGrid small knownGrid;
      s.cfg.Legal ∧ Inv s ∧ s.cfg.outCap <
        (9 + sessionShifts s.cfg (blockBins s.cfg .inter s.enc.coefIn) 510 s.enc.ctx + 7) / 8) := by
  exact ⟨⟨by decide +kernel, by decide +kernel, by decide +kernel, by decide +kernel⟩, ⟨by decide +kernel,
    by decide +kernel, by decide +kernel⟩⟩

theorem witness_EncBlockEqualsItsBins :
    exec (.encBlock .inter .luma) (withGrid illus knownGrid) =
      .next (after (.encBlock .inter .luma) (withGrid illus knownGrid)) ∧
    (after (.encBlock .inter .luma) (withGrid illus knownGrid)).status.err = .ok := by
  exact ⟨rfl, by decide +kernel⟩

theorem witness_BlockBinCount : ∀ p : Fin 16, Coefs.zero.get p = 0 := by decide

theorem witness_SimpleBlocksBins :
    (∀ p : Fin 16, Coefs.zero.get p = 0) ∧
    ∀ i, scanned illus .inter (Coefs.zero.set 0 0x8000) i ≠ 0 ↔ i = 0 := by decide +kernel

/-- V-B6: the bins of -17 at scan index 0: a one, a 0, the suffix 0001, the sign. -/
theorem test_level_bins :
    levelBins (-17) 0 = [(true, 16), (false, 16), (false, 21), (false, 22), (false, 23), (true, 24), (true, 25)] := by decide

theorem witness_BlockStreamShape :
    illus.Legal ∧ Inv (fresh illus []) ∧
    (9 + sessionShifts illus [(true, 0), (false, 31)] 510 (fresh illus []).enc.ctx + 7) / 8 ≤ illus.outCap := by
  decide +kernel

/-- IN_LEN at 1, 2, IN_CAP and IN_CAP + 1. -/
theorem witness_DecLoadResult :
    (fresh small []).status.busy = false ∧ (1 : BitVec 17).toNat < 2 ∧
    (2 ≤ (2 : BitVec 17).toNat ∧ (2 : BitVec 17).toNat ≤ small.inCap) ∧
    (2 ≤ (1024 : BitVec 17).toNat ∧ (1024 : BitVec 17).toNat ≤ small.inCap) ∧
    (2 ≤ (1025 : BitVec 17).toNat ∧ small.inCap < (1025 : BitVec 17).toNat) := by decide

theorem witness_InputBytesAndBits : (DecUnit.reset 0).nres = 0 ∧ { DecUnit.reset 0 with nres := 1 }.nres ≠ 0 := by decide

/-- No stream; an offset of 509 and one of 510, the latter after a skipped marker. -/
theorem witness_DecStartResult :
    (fresh illus []).dec.ready = false ∧
    (let s := loaded [0xFE, 0xFF];
      s.dec.ready = true ∧ s.dec.inByteAt s.dec.cur.toNat ≠ 0xFF ∧
      (inputByte s.dec 0).toNat * 2 + (inputByte s.dec 1).toNat / 128 = 509) ∧
    (let s := loaded [0xFF, 0xFF, 0x00];
      s.dec.ready = true ∧ s.dec.cur.toNat < s.dec.len.toNat ∧ s.dec.inByteAt s.dec.cur.toNat = 0xFF ∧
      (inputByte s.dec 1).toNat * 2 + (inputByte s.dec 2).toNat / 128 = 510) := by decide +kernel

/-- A decoder with an open block, below and at the MPS width. -/
theorem witness_DecBinResult :
    let u := (after .decStart (loaded [0x45, 0x68])).dec
    illus.Legal ∧ u.active = true ∧ 256 ≤ u.r.toNat ∧ u.code.toNat < mpsWidth illus u.r (u.ctx.get 0) ∧
    mpsWidth illus 510 (u.ctx.get 0) ≤ (509 : BitVec 9).toNat ∧ (509 : BitVec 9).toNat < (510 : BitVec 9).toNat := by
  decide +kernel

theorem witness_DecBinFaults :
    (fresh illus []).dec.active = false ∧ (fresh illus []).dec.ready = false ∧
    (let s := { after .decStart (loaded [0x45, 0x68]) with cfg := zeroWidths };
      s.dec.active = true ∧ lpsWidth s.cfg s.dec.r (s.dec.ctx.get 0) = 0) := by decide +kernel

theorem witness_DecBlockResult :
    (let s := loaded [0xD9, 0xC0, 0x27, 0x00];
      s.cfg.Legal ∧ Inv s ∧ s.dec.ready = true) ∧
    (after (.decBlock .inter .luma) (loaded [0xFF, 0xFF, 0xFF])).status.err = .streamInvalid := by decide +kernel

theorem witness_DecBlockPastEndIsZero :
    let s := { loaded [0, 0] with dec := { (loaded [0, 0]).dec with cur := 2 } }
    s.cfg.Legal ∧ s.dec.ready = true ∧ s.dec.len.toNat ≤ s.dec.cur.toNat ∧ (s.dec.ctx.get 0).mps = false := by decide

/-- What the bins of vector V-B2's block say: three significant positions, the last of them terminal, levels 1, -1 and 1. -/
def knownSyntax : BlockSyntax where
  sig i := decide (i.val < 3)
  last i := decide (i.val = 2)
  ones _ := 0
  suffix _ := 0
  negative i := decide (i.val = 1)

theorem witness_DecBlockEqualsItsBins :
    (loaded [0xD9, 0xC0, 0x27, 0x00]).dec.ready = true ∧ (∀ i ∈ knownSyntax.coded, knownSyntax.LevelOk i) ∧
    (decBins (knownSyntax.bins.map Prod.snd) (after .decStart (loaded [0xD9, 0xC0, 0x27, 0x00]))).1 =
      knownSyntax.bins.map Prod.fst ∧
    (decBins (knownSyntax.bins.map Prod.snd) (after .decStart (loaded [0xD9, 0xC0, 0x27, 0x00]))).2.status.err = .ok ∧
    (after (.decBlock .inter .luma) (loaded [0xD9, 0xC0, 0x27, 0x00])).status.err = .ok := by
  exact ⟨by decide, by decide +kernel, by decide +kernel, by decide +kernel, by decide +kernel⟩

/-- A significant position after the terminal one has no level bins and level 0 (rule R132). -/
theorem test_uncoded_position :
    let g := { knownSyntax with last := fun i => decide (i.val = 1) }
    g.coded = [0, 1] ∧ g.bins.length = 16 + 2 + 2 * 2 ∧ g.levels = (#v[1, 0xFFFF, 0, 0, 0, 0, 0, 0, 0, 0, 0, 0, 0, 0, 0, 0] : Coefs) := by
  decide +kernel

/-- A decoder past the end of a stream of zeros, with every most probable symbol 1: its bins are ones without end. -/
def endlessOnes : DecUnit := { (loaded [0, 0]).dec with cur := 2, ctx := Vector.replicate 32 ⟨true, 0⟩ }

/-- A prefix that meets the limit raises LEVEL_RANGE (rules R133, R134). -/
theorem witness_DecodedLevels_limit :
    ∃ v, Reads illus (List.replicate 2185 (true, prefixCtx 0)) endlessOnes v ∧
      decodePrefix illus 0 Config.prefixLimit 0 endlessOnes = .raised .levelRange v := by
  have hz : endlessOnes.ZeroInput := ⟨by decide, by decide, by decide, fun j => by
    have hb : ∀ i, 2 ≤ i → inputByte endlessOnes i = 0 := fun i hi => if_neg (by show ¬ i < 2; omega)
    show (if j < 0 then _ else (inputByte endlessOnes (2 + (j - 0) / 8)).getLsbD _) = false
    rw [if_neg (Nat.not_lt_zero j), hb _ (by omega)]
    simp⟩
  obtain ⟨v, hv⟩ := hz.reads_ones (cfg := illus) (by decide) (c := prefixCtx 0) 2185 (by decide)
  exact ⟨v, hv, decodePrefix_raised_iff.2 hv⟩

/-- The greatest and the least level that fit, and the first on either side that does not. -/
theorem witness_DecodedLevels_range :
    LevelFields 2184 7 ∧ levelValue 2184 6 false = 32767 ∧ levelValue 2184 7 true = -32768 ∧
    FitsCoef (levelValue 2184 6 false) ∧ FitsCoef (levelValue 2184 7 true) ∧
    ¬ FitsCoef (levelValue 2184 7 false) ∧ ¬ FitsCoef (levelValue 2184 8 true) := by decide

/-- A unit whose next bins are a level of 1. -/
theorem witness_DecodedLevels :
    answer (decodeLevel illus 0 (after .decStart (loaded [0, 0])).dec) = some 1 ∧
    illus.Legal ∧ (after (.decBlock .inter .luma) (loaded [0xD9, 0xC0, 0x27, 0x00])).status.err = .ok := by decide +kernel

/-- A last-position flag of 0 and, with the offset at the top of the range, of 1. -/
theorem witness_CodedPositions :
    answer (decodeBin illus (lastCtx 0) (after .decStart (loaded [0, 0])).dec) = some false ∧
    answer (decodeLast illus [1, 2] (after .decStart (loaded [0, 0])).dec) = some [1, 2] ∧
    answer (decodeBin illus (lastCtx 0) { (after .decStart (loaded [0, 0])).dec with code := 509 }) = some true := by
  decide +kernel

theorem witness_ReconstructionInvertsScan : illus.Legal := by decide

theorem witness_ConsumedInputIsNotReRead :
    0 < (after .decStart (loaded [0x45, 0x68])).dec.cur.toNat ∧ 1 < (after .decStart (loaded [0x45, 0x68])).dec.cur.toNat := by
  decide +kernel

/-- Two states with the same unit and parameters that differ in the other unit. -/
theorem witness_UnitIndependence :
    isEncCommand .encFinish = true ∧ isDecCommand .decStart = true ∧
    openSession.cfg = { openSession with dec := (loaded [0, 0]).dec }.cfg ∧
    openSession.enc = { openSession with dec := (loaded [0, 0]).dec }.enc ∧
    openSession.dec ≠ { openSession with dec := (loaded [0, 0]).dec }.dec ∧
    (loaded [0, 0]).dec = { loaded [0, 0] with enc := openSession.enc }.dec := by decide

/-- An ENC_FINISH that stores two bytes, and the first address below and above them. -/
theorem witness_BufferFrame :
    Inv openSession ∧ exec .encFinish openSession = .next (after .encFinish openSession) ∧
    (after .encFinish openSession).enc.outLen.toNat ≤ 2 ∧
    Inv fullSession ∧ 0 < fullSession.enc.outLen.toNat := by
  exact ⟨by decide, rfl, by decide +kernel, by decide, by decide⟩

theorem witness_StepKeepsInvariant :
    (let s := { openSession with pending := [.write 32 0x00000 0x00000005] };
      Inv s ∧ step s = .next (after .encFinish openSession)) := by
  exact ⟨by decide, rfl⟩

/-- The bins and contexts of vector V-E1. -/
def sampleBins : List (Bool × Fin 32) := [(false, 0), (false, 0), (true, 0), (true, 0), (false, 1), (true, 1), (false, 0)]

/-- The encoder after V-E1's session, and a decoder that holds its stream. -/
def sampleEncoded : State := afterAll (encSession sampleBins) (fresh illus [])

theorem witness_BinLevelRoundTrip :
    (fresh illus []).cfg.Legal ∧ Inv (fresh illus []) ∧ Inv (loaded [0x45, 0x68]) ∧
    (loaded [0x45, 0x68]).cfg = (fresh illus []).cfg ∧ sampleEncoded.status.err = .ok ∧
    (loaded [0x45, 0x68]).dec.ready = true ∧ (loaded [0x45, 0x68]).dec.ctx = (fresh illus []).enc.ctx ∧
    (loaded [0x45, 0x68]).dec.cur.toNat + sampleEncoded.enc.outLen.toNat ≤ (loaded [0x45, 0x68]).dec.len.toNat ∧
    ∀ i < sampleEncoded.enc.outLen.toNat,
      (loaded [0x45, 0x68]).dec.inByteAt ((loaded [0x45, 0x68]).dec.cur.toNat + i) = sampleEncoded.enc.outByteAt i := by
  exact ⟨by decide +kernel, by decide +kernel, by decide +kernel, by decide +kernel, by decide +kernel,
    by decide +kernel, by decide +kernel, by decide +kernel, by decide +kernel⟩

/-- The encoder after V-B2's block, and a decoder that holds its stream. -/
def knownEncoded : State := after (.encBlock .inter .luma) (withGrid illus knownGrid)

def knownLoaded : State := loaded [0xD9, 0xC0, 0x27, 0x00]

theorem witness_BlockRoundTrip :
    (withGrid illus knownGrid).cfg.Legal ∧ Inv (withGrid illus knownGrid) ∧ Inv knownLoaded ∧
    knownLoaded.cfg = (withGrid illus knownGrid).cfg ∧ knownEncoded.status.err = .ok ∧ knownLoaded.dec.ready = true ∧
    knownLoaded.dec.ctx = (withGrid illus knownGrid).enc.ctx ∧
    knownLoaded.dec.cur.toNat + knownEncoded.enc.outLen.toNat ≤ knownLoaded.dec.len.toNat ∧
    ∀ i < knownEncoded.enc.outLen.toNat,
      knownLoaded.dec.inByteAt (knownLoaded.dec.cur.toNat + i) = knownEncoded.enc.outByteAt i := by
  exact ⟨by decide +kernel, by decide +kernel, by decide +kernel, by decide +kernel, by decide +kernel,
    by decide +kernel, by decide +kernel, by decide +kernel, by decide +kernel⟩

end Sys2Proof.Tests
end

section
/-! The reset values of rule R45: one lemma for the parts that need an argument (the buffers, which hold nothing yet, and
STATUS), and from them the table for every state whose units and STATUS are reset, whatever the reset's number. -/

namespace Sys2Proof.Machine

open Safety

/-- With nothing written since reset, every byte of OUT_BUF is the draw (rules R45, R46). -/
@[simp] theorem EncUnit.outByteAt_reset (n i : Nat) : (EncUnit.reset n).outByteAt i = Config.outBufDraw n i := rfl

/-- With nothing written since reset, every byte of IN_BUF is the draw (rules R45, R46). -/
@[simp] theorem DecUnit.inByteAt_reset (n i : Nat) : (DecUnit.reset n).inByteAt i = Config.inBufDraw n i := rfl

/-- The copies in bits 1 to 3 are 0 because the flags of the reset units are (rules R41, R45). -/
theorem State.statusWord_of_reset {s : State} {n m : Nat} (henc : s.enc = EncUnit.reset n)
    (hdec : s.dec = DecUnit.reset m) (hstatus : s.status = Status.reset) : s.statusWord = 0 := by
  have hactive : s.enc.active = false := by rw [henc]; rfl
  have hready : s.dec.ready = false := by rw [hdec]; rfl
  have hopen : s.dec.active = false := by rw [hdec]; rfl
  simp [State.statusWord, hactive, hready, hopen, hstatus, Status.reset, ErrCode.code]

/-- The two units may be at different draws: the reset event advances each unit's own number (log entry 3). -/
theorem resetValues_of_reset {s : State} {n m : Nat} (henc : s.enc = EncUnit.reset n)
    (hdec : s.dec = DecUnit.reset m) (hstatus : s.status = Status.reset) : ResetValues s := by
  have hword : s.statusWord = 0 := State.statusWord_of_reset henc hdec hstatus
  refine ⟨?encRegisters, ?outBuf, ?contexts, ?coefficients, ?decRegisters, ?inBuf, hword, hstatus⟩
  case encRegisters => simp [henc, EncUnit.reset]
  case outBuf => rw [henc]; exact EncUnit.outByteAt_reset n
  case contexts => simp [henc, hdec, EncUnit.reset, DecUnit.reset, Ctx.init]
  case coefficients => simp [henc, hdec, EncUnit.reset, DecUnit.reset]
  case decRegisters => simp [hdec, DecUnit.reset]
  case inBuf => rw [hdec]; exact DecUnit.inByteAt_reset m

/-- Settles O10: the units and STATUS of `State.reset` are those of reset number 0. -/
theorem resetValuesHold : Obligations.ResetValuesHold :=
  resetValues_of_reset (n := 0) (m := 0) rfl rfl rfl

end Sys2Proof.Machine
end

section
/-! The bus (rules R47 to R51): the address of every mapped register decodes to that register, and so the step an accepted
access takes is a read or a write of the register named. -/

namespace Sys2Proof.Machine

open Safety

/-- A buffer entry's index is inside the buffer's window of 65536 words, past which addresses are another window's or leave
the space (rule R50). It asks nothing of the other registers, which are mapped whatever the capacities. -/
def Reg.InWindow : Reg → Prop
  | .outBuf i | .inBuf i => i < 65536
  | _ => True

/-- The capacities of rule R9 end inside the windows of rule R50. -/
theorem Reg.inWindow_of_mapped {c : Config} {r : Reg} (hc : CapsOk c) (hm : mapped c r = true) : r.InWindow := by
  obtain ⟨⟨_, hout⟩, ⟨_, hin⟩⟩ := hc
  cases r with
  | outBuf i => exact Nat.lt_of_lt_of_le (of_decide_eq_true hm) hout
  | inBuf i => exact Nat.lt_of_lt_of_le (of_decide_eq_true hm) hin
  | _ => trivial

/-- Every register's address is aligned and lies inside the 20-bit space (rules R47, R49). -/
theorem Reg.addr_aligned (r : Reg) : r.addr % 4 = 0 := by
  cases r <;> simp only [Reg.addr] <;> omega

theorem Reg.addr_lt {r : Reg} (hw : r.InWindow) : r.addr < 2 ^ 20 := by
  cases r <;> simp only [Reg.addr, Reg.InWindow] at hw ⊢ <;> omega

/-- The OUT_BUF window of rule R50. -/
theorem Reg.atAddr_outWindow {c : Config} {a : Nat} (hlo : 0x10000 ≤ a) (hhi : a < 0x50000) :
    Reg.atAddr c a = if (a - 0x10000) / 4 < c.outCap then some (.outBuf ((a - 0x10000) / 4)) else none := by
  simp (disch := omega) only [Reg.atAddr, if_neg, if_pos hhi]

/-- The IN_BUF window of rule R50. -/
theorem Reg.atAddr_inWindow {c : Config} {a : Nat} (hlo : 0x50000 ≤ a) (hhi : a < 0x90000) :
    Reg.atAddr c a = if (a - 0x50000) / 4 < c.inCap then some (.inBuf ((a - 0x50000) / 4)) else none := by
  simp (disch := omega) only [Reg.atAddr, if_neg, if_pos hhi]

/-- The map of rule R50 finds each mapped register at its own address. -/
theorem Reg.atAddr_addr {c : Config} {r : Reg} (hw : r.InWindow) (hm : mapped c r = true) :
    Reg.atAddr c r.addr = some r := by
  cases r with
  | coefIn p => fin_cases p <;> rfl
  | coefOut p => fin_cases p <;> rfl
  | ctxE k => fin_cases k <;> rfl
  | ctxD k => fin_cases k <;> rfl
  | outBuf i =>
    have hw : i < 65536 := hw
    have hm : i < c.outCap := of_decide_eq_true hm
    have hindex : (0x10000 + 4 * i - 0x10000) / 4 = i := by omega
    rw [Reg.addr, Reg.atAddr_outWindow (by omega) (by omega), hindex, if_pos hm]
  | inBuf i =>
    have hw : i < 65536 := hw
    have hm : i < c.inCap := of_decide_eq_true hm
    have hindex : (0x50000 + 4 * i - 0x50000) / 4 = i := by omega
    rw [Reg.addr, Reg.atAddr_inWindow (by omega) (by omega), hindex, if_pos hm]
  | _ => rfl

/-- A 32-bit access at a mapped register's address reaches that register (rules R48 to R50). -/
theorem busDecode_addr {c : Config} {r : Reg} (hw : r.InWindow) (hm : mapped c r = true) :
    busDecode c 32 (BitVec.ofNat 20 r.addr) = .ok r := by
  have haddr : (BitVec.ofNat 20 r.addr).toNat = r.addr := by
    rw [BitVec.toNat_ofNat, Nat.mod_eq_of_lt (Reg.addr_lt hw)]
  simp [busDecode, haddr, Reg.addr_aligned, Reg.atAddr_addr hw hm]

/-- With BUSY at 0 no access is refused for it (rule R167). -/
theorem State.busyRefuses_of_idle {s : State} (hb : s.status.busy = false) (isRead : Bool) (r : Reg) :
    s.busyRefuses isRead r = false := by
  simp [State.busyRefuses, hb]

/-- The step of a read (rule R51). -/
theorem step_read {s : State} {r : Reg} {rest : List HostEvent} (hb : s.status.busy = false) (hw : r.InWindow)
    (hm : mapped s.cfg r = true) (hp : s.pending = .read 32 (BitVec.ofNat 20 r.addr) :: rest) :
    step s = .next ((s.taken rest).busRead r) := by
  simp [step, hp, busDecode_addr hw hm, State.busyRefuses_of_idle hb]

/-- The step of a write to a register other than CMD. -/
theorem step_write {s : State} {r : Reg} {rest : List HostEvent} {w : Word} (hb : s.status.busy = false)
    (hw : r.InWindow) (hm : mapped s.cfg r = true) (hr : r ≠ .cmd)
    (hp : s.pending = .write 32 (BitVec.ofNat 20 r.addr) w :: rest) :
    step s = .next ((s.taken rest).writeReg w r) := by
  simp [step, hp, busDecode_addr hw hm, State.busyRefuses_of_idle hb, hr]

/-- A read leaves the word the register held before the access was taken: no register shows the host's own list. -/
theorem State.readReg_taken (s : State) (rest : List HostEvent) (r : Reg) :
    (s.taken rest).readReg r = s.readReg r := by
  cases r <;> rfl

/-- Rule R51: a read-only register takes no write. -/
theorem State.writeReg_of_readOnly {r : Reg} (hr : readOnly r = true) (w : Word) (s : State) : s.writeReg w r = s := by
  cases r with
  | cmd | inLen | coefIn _ | ctxE _ | ctxD _ | inBuf _ => cases hr
  | _ => rfl

theorem ne_cmd_of_readOnly {r : Reg} (hr : readOnly r = true) : r ≠ .cmd := by
  rintro rfl
  cases hr

/-- Settles O14: every mapped register is reached at its address, a read only puts its word on the bus, and `writeReg` is
the identity on the read-only registers. -/
theorem readsAndReadOnlyWrites : Obligations.ReadsAndReadOnlyWrites := by
  refine ⟨fun s r rest hc hb hm => ⟨fun hp => ?read, fun w hr hp => ?write⟩, fun s => rfl⟩
  all_goals have hw : r.InWindow := Reg.inWindow_of_mapped hc hm
  case read =>
    rw [step_read hb hw hm hp, State.busRead, State.readReg_taken]
    rfl
  case write =>
    rw [step_write hb hw hm (ne_cmd_of_readOnly hr) hp, State.writeReg_of_readOnly hr]
    rfl

end Sys2Proof.Machine
end

section
/-! The registers the host writes and reads (rules R50, R52 to R54, R56): what each write leaves and what each read gives,
as numbers. -/

namespace Sys2Proof.Machine

open Safety

/-- Settles O17: the write's step is `step_write` at COEF_IN[p], and sign extension keeps the value. -/
theorem coefficientRegisterAccess : Obligations.CoefficientRegisterAccess := by
  refine ⟨fun s p w rest hb hp => ?write, fun s p => ⟨?coefIn, ?coefOut⟩⟩
  case write => exact step_write (r := .coefIn p) hb trivial rfl Reg.noConfusion hp
  case coefIn => exact BitVec.toInt_signExtend_of_le (by decide)
  case coefOut => exact BitVec.toInt_signExtend_of_le (by decide)

/-- Bit 0 is `mps` and bits 4:1 are the state (rule R54). -/
theorem Ctx.toNat_toWord (e : Ctx) : e.toWord.toNat = e.mps.toNat + 2 * e.state.toNat := by
  have hfields : (e.state ++ BitVec.ofBool e.mps).toNat = 2 * e.state.toNat + e.mps.toNat := by
    rw [BitVec.toNat_append, ← Nat.shiftLeft_add_eq_or_of_lt (BitVec.isLt _), BitVec.toNat_ofBool, Nat.shiftLeft_eq]
    omega
  rw [Ctx.toWord, BitVec.toNat_setWidth_of_le (by decide), hfields, Nat.add_comm]

/-- Settles O18: the write's step is `step_write` at each unit's entry, and the read is `Ctx.toNat_toWord`. -/
theorem contextRegisterAccess : Obligations.ContextRegisterAccess := by
  refine ⟨fun s c w rest hb => ⟨fun hp => ?ctxE, fun hp => ?ctxD⟩, fun s c => ⟨?readE, ?readD⟩⟩
  case ctxE => exact step_write (r := .ctxE c) hb trivial rfl Reg.noConfusion hp
  case ctxD => exact step_write (r := .ctxD c) hb trivial rfl Reg.noConfusion hp
  case readE => exact Ctx.toNat_toWord _
  case readD => exact Ctx.toNat_toWord _

/-- A byte of IN_BUF after a write of it (rule R56). -/
theorem DecUnit.inByteAt_write_self (u : DecUnit) (i : Nat) (v : Byte) :
    { u with inBuf := u.inBuf.write i v }.inByteAt i = v := by
  simp [DecUnit.inByteAt, Memory.read?_write_self]

/-- A write of one byte of IN_BUF keeps the others, the unwritten ones among them (rule R56). -/
theorem DecUnit.inByteAt_write_ne (u : DecUnit) {i j : Nat} (v : Byte) (h : j ≠ i) :
    { u with inBuf := u.inBuf.write i v }.inByteAt j = u.inByteAt j := by
  simp [DecUnit.inByteAt, Memory.read?_write_ne _ _ _ _ h]

/-- Settles O19: the write's step is `step_write` at IN_BUF[i] or IN_LEN, and a buffer's read after a write says what the
byte and the others are. -/
theorem inputRegisterAccess : Obligations.InputRegisterAccess := by
  refine ⟨fun s w rest hc hb => ⟨fun i hi hp => ?inBuf, fun hp => ?inLen⟩, fun s i => ?read⟩
  case inBuf =>
    have hm : mapped s.cfg (.inBuf i) = true := decide_eq_true hi
    have hstep := step_write hb (Reg.inWindow_of_mapped hc hm) hm Reg.noConfusion hp
    exact ⟨_, hstep, DecUnit.inByteAt_write_self _ _ _, fun j hj => DecUnit.inByteAt_write_ne _ _ hj, rfl⟩
  case inLen => exact step_write (r := .inLen) hb trivial rfl Reg.noConfusion hp
  case read => exact BitVec.toNat_setWidth_of_le (by decide)

end Sys2Proof.Machine
end

section
/-! The encoding (rules R69 to R79): the operand fields, legality field by field, and the rows of the match and mask table
as the fields their commands do not use. -/

namespace Sys2Proof

/-! Operands (rule R71). -/

/-- A one-bit field is the bit it stands at. -/
theorem Word.getLsbD_of_field {w : Word} {n : Nat} {b : Bool} (h : w.extractLsb' n 1 = BitVec.ofBool b) :
    w.getLsbD n = b := by
  rw [BitVec.getLsbD_eq_extractLsb', h]
  cases b <;> rfl

theorem BlkType.eq_of_field {w : Word} {n : Nat} {k : BlkType} (h : w.extractLsb' n 1 = k.bits) :
    k = if w.getLsbD n then .field else .inter := by
  cases k with
  | inter => rw [Word.getLsbD_of_field (b := false) h]; rfl
  | field => rw [Word.getLsbD_of_field (b := true) h]; rfl

theorem val_eq_of_ctxField {w : Word} {c : Fin 32} (h : w.extractLsb' 8 5 = BitVec.ofFin c) :
    c.val = (w.extractLsb' 8 5).toNat := by
  rw [h]; rfl

/-- Settles O5: a decoded word's fields are its command's, and `exec` of a block command drops the component. -/
theorem operandAssembly : Obligations.OperandAssembly := by
  refine ⟨fun w i h => ?_, fun k m m' s => ⟨rfl, rfl⟩⟩
  have hfields : CmdFields.ofWord w = i.fields := ofWord_of_decode w i h
  have hctx : w.extractLsb' 8 5 = i.ctxField := congrArg CmdFields.ctx hfields
  have hbin : w.extractLsb' 13 1 = i.binField := congrArg CmdFields.bin hfields
  have hblk : w.extractLsb' 4 1 = i.blkField := congrArg CmdFields.blk hfields
  have hcomp : w.extractLsb' 5 2 = i.compField := congrArg CmdFields.comp hfields
  cases i with
  | encBin c b => exact ⟨val_eq_of_ctxField hctx, (Word.getLsbD_of_field hbin).symm⟩
  | decBin c => exact val_eq_of_ctxField hctx
  | encBlock k m => exact ⟨BlkType.eq_of_field hblk, hcomp.symm⟩
  | decBlock k m => exact ⟨BlkType.eq_of_field hblk, hcomp.symm⟩
  | _ => trivial

/-! Legality (rules R72, R75). -/

/-- Legality as what each field must hold (rule R72). -/
theorem CmdFields.wellFormed_iff (f : CmdFields) :
    f.wellFormed = true ↔ f.op.toNat ≤ 0xA ∧ (f.reserved7 = 0 ∧ f.reservedHigh = 0) ∧
      ((f.op = 0x6 ∨ f.op = 0xA) ∨ f.blk = 0 ∧ f.comp = 0) ∧ ((f.op = 0x4 ∨ f.op = 0x9) ∨ f.ctx = 0) ∧
      (f.op = 0x4 ∨ f.bin = 0) := by
  simp only [CmdFields.wellFormed, CmdFields.opcodeDefined, CmdFields.reservedZero, CmdFields.usesBlock,
    CmdFields.blockFieldsZero, CmdFields.usesCtx, CmdFields.ctxZero, CmdFields.usesBin, CmdFields.binZero,
    Bool.and_eq_true, Bool.or_eq_true, beq_iff_eq, decide_eq_true_eq, and_assoc]

theorem append_eq_zero_iff {m n : Nat} (a : BitVec m) (b : BitVec n) : a ++ b = 0 ↔ a = 0 ∧ b = 0 := by
  constructor
  · intro h
    constructor
    · rw [← BitVec.extractLsb'_append_eq_left (a := a) (b := b), h]; exact BitVec.extractLsb'_zero
    · rw [← BitVec.extractLsb'_append_eq_right (a := a) (b := b), h]; exact BitVec.extractLsb'_zero
  · rintro ⟨rfl, rfl⟩
    exact BitVec.zero_append_zero

/-- A range of bits is 0 exactly if both parts of a cut are. -/
theorem Word.extractLsb'_add_eq_zero_iff (w : Word) (start low high : Nat) :
    w.extractLsb' start (high + low) = 0 ↔ w.extractLsb' start low = 0 ∧ w.extractLsb' (start + low) high = 0 := by
  rw [← BitVec.extractLsb'_append_extractLsb'_eq_extractLsb' rfl, append_eq_zero_iff, and_comm]

section
variable (w : Word)

theorem Word.bits31to13_eq_zero_iff : w.extractLsb' 13 19 = 0 ↔
    (CmdFields.ofWord w).bin = 0 ∧ (CmdFields.ofWord w).reservedHigh = 0 :=
  w.extractLsb'_add_eq_zero_iff 13 1 18

theorem Word.bits31to7_eq_zero_iff : w.extractLsb' 7 25 = 0 ↔
    (CmdFields.ofWord w).reserved7 = 0 ∧ (CmdFields.ofWord w).ctx = 0 ∧ (CmdFields.ofWord w).bin = 0 ∧
      (CmdFields.ofWord w).reservedHigh = 0 := by
  rw [← Word.bits31to13_eq_zero_iff]
  exact (w.extractLsb'_add_eq_zero_iff 7 1 24).trans (and_congr_right' (w.extractLsb'_add_eq_zero_iff 8 5 19))

theorem Word.bits31to4_eq_zero_iff : w.extractLsb' 4 28 = 0 ↔
    (CmdFields.ofWord w).blk = 0 ∧ (CmdFields.ofWord w).comp = 0 ∧ (CmdFields.ofWord w).reserved7 = 0 ∧
      (CmdFields.ofWord w).ctx = 0 ∧ (CmdFields.ofWord w).bin = 0 ∧ (CmdFields.ofWord w).reservedHigh = 0 := by
  rw [← Word.bits31to7_eq_zero_iff]
  exact (w.extractLsb'_add_eq_zero_iff 4 1 27).trans (and_congr_right' (w.extractLsb'_add_eq_zero_iff 5 2 25))

theorem Word.bits7to4_eq_zero_iff : w.extractLsb' 4 4 = 0 ↔
    (CmdFields.ofWord w).blk = 0 ∧ (CmdFields.ofWord w).comp = 0 ∧ (CmdFields.ofWord w).reserved7 = 0 :=
  (w.extractLsb'_add_eq_zero_iff 4 1 3).trans (and_congr_right' (w.extractLsb'_add_eq_zero_iff 5 2 1))

end

/-- The kinds of opcode of rule R75's cases; the last are the reserved opcodes. -/
theorem opcode_cases (op : BitVec 4) :
    op ∈ [(0x0 : BitVec 4), 0x1, 0x2, 0x3, 0x5, 0x7, 0x8] ∨ op = 0x4 ∨ op ∈ [(0x6 : BitVec 4), 0xA] ∨ op = 0x9 ∨
      0xA < op.toNat := by
  revert op; decide

/-- Legality per opcode: the fields that each kind of opcode leaves unused, and the reserved bits, are 0 (rule R75). -/
theorem CmdFields.wellFormed_iff_perOpcode (f : CmdFields) :
    f.wellFormed = true ↔
      (f.op ∈ [(0x0 : BitVec 4), 0x1, 0x2, 0x3, 0x5, 0x7, 0x8] ∧
        f.blk = 0 ∧ f.comp = 0 ∧ f.reserved7 = 0 ∧ f.ctx = 0 ∧ f.bin = 0 ∧ f.reservedHigh = 0) ∨
      (f.op = 0x4 ∧ f.reservedHigh = 0 ∧ f.blk = 0 ∧ f.comp = 0 ∧ f.reserved7 = 0) ∨
      (f.op ∈ [(0x6 : BitVec 4), 0xA] ∧ f.reserved7 = 0 ∧ f.ctx = 0 ∧ f.bin = 0 ∧ f.reservedHigh = 0) ∨
      (f.op = 0x9 ∧ (f.bin = 0 ∧ f.reservedHigh = 0) ∧ f.blk = 0 ∧ f.comp = 0 ∧ f.reserved7 = 0) := by
  rw [CmdFields.wellFormed_iff]
  generalize f.op = op
  rcases opcode_cases op with hnone | rfl | hblock | rfl | hreserved
  · fin_cases hnone <;> simp [and_assoc, and_comm, and_left_comm]
  · simp [and_assoc, and_comm, and_left_comm]
  · fin_cases hblock <;> simp [and_assoc, and_comm, and_left_comm]
  · simp [and_assoc, and_comm, and_left_comm]
  · have hne : op ∉ [(0x0 : BitVec 4), 0x1, 0x2, 0x3, 0x5, 0x7, 0x8] ∧ op ≠ 0x4 ∧ op ∉ [(0x6 : BitVec 4), 0xA] ∧
        op ≠ 0x9 := by
      revert op; decide
    obtain ⟨hnone, hencBin, hblock, hdecBin⟩ := hne
    simp only [hnone, hencBin, hblock, hdecBin, Nat.not_le.mpr hreserved, false_and, or_self]

/-- Settles O4: a word decodes exactly if its fields are well formed, and each range of rule R75 is 0 exactly if its fields
are. -/
theorem decodeLegality : Obligations.DecodeLegality := by
  intro w
  rw [decode_legal_iff, CmdFields.wellFormed_iff_perOpcode, ← Word.bits31to4_eq_zero_iff, ← Word.bits31to7_eq_zero_iff,
    ← Word.bits31to13_eq_zero_iff, ← Word.bits7to4_eq_zero_iff]
  rfl

/-! The examples of rule R79. -/

theorem decode_ne_command_of_illegal {w : Word} {why : Illegal} (h : decode w = .illegal why) (i : Instr) :
    decode w ≠ .command i := by
  rw [h]; exact Decoded.noConfusion

/-- Settles O6: each word is evaluated; the two illegal ones are refused for bit 7 and for the reserved opcode 0xB. -/
theorem sampleCommandWords : Obligations.SampleCommandWords := by
  have hbit7 : decode 0x00000084 = .illegal .reservedBits := by decide
  have hopcode : decode 0x0000000B = .illegal (.reservedOpcode 0xB) := by decide
  exact ⟨by decide, by decide, by decide, by decide, by decide, decode_ne_command_of_illegal hbit7,
    decode_ne_command_of_illegal hopcode⟩

/-! The match and mask table (rule R73). -/

/-- Two sets of fields and-ed field by field. -/
def CmdFields.and (f g : CmdFields) : CmdFields where
  op := f.op &&& g.op
  blk := f.blk &&& g.blk
  comp := f.comp &&& g.comp
  reserved7 := f.reserved7 &&& g.reserved7
  ctx := f.ctx &&& g.ctx
  bin := f.bin &&& g.bin
  reservedHigh := f.reservedHigh &&& g.reservedHigh

theorem CmdFields.ofWord_and (v w : Word) :
    CmdFields.ofWord (v &&& w) = (CmdFields.ofWord v).and (CmdFields.ofWord w) := by
  simp only [CmdFields.ofWord, CmdFields.and, BitVec.extractLsb'_and]

/-- A word is its fields (rule R70). -/
theorem CmdFields.ofWord_injective : Function.Injective CmdFields.ofWord := by
  intro v w h
  simp only [CmdFields.ofWord, CmdFields.mk.injEq] at h
  obtain ⟨hop, hblk, hcomp, hr7, hctx, hbin, hhigh⟩ := h
  apply BitVec.eq_of_toNat_eq
  rw [Word.toNat_fields v, Word.toNat_fields w, hop, hblk, hcomp, hr7, hctx, hbin, hhigh]

/-- The fields of a command of opcode `op` whose operands are 0: the fields of its row's match. -/
def CmdFields.ofOpcode (op : BitVec 4) : CmdFields := ⟨op, 0, 0, 0, 0, 0, 0⟩

/-- All bits of a field that a row's mask compares, none of one that the row's command uses. -/
def comparedBits (used : Bool) (n : Nat) : BitVec n := if used then 0 else BitVec.allOnes n

/-- The fields of the mask of opcode `op`'s row: a command's operand fields are free, the others are compared. -/
def CmdFields.mask (op : BitVec 4) : CmdFields where
  op := comparedBits false 4
  blk := comparedBits (CmdFields.ofOpcode op).usesBlock 1
  comp := comparedBits (CmdFields.ofOpcode op).usesBlock 2
  reserved7 := comparedBits false 1
  ctx := comparedBits (CmdFields.ofOpcode op).usesCtx 5
  bin := comparedBits (CmdFields.ofOpcode op).usesBin 1
  reservedHigh := comparedBits false 18

/-- Under its mask, a field holds the value of the match: any where the command uses it. -/
theorem and_comparedBits_eq_zero_iff {n : Nat} (x : BitVec n) (used : Bool) :
    x &&& comparedBits used n = 0 ↔ used = true ∨ x = 0 := by
  cases used <;> simp [comparedBits]

/-- A set of fields agrees with opcode `op`'s match under its mask exactly if it is a legal command of that opcode. -/
theorem CmdFields.and_mask_eq_iff {op : BitVec 4} (hop : op.toNat ≤ 0xA) (f : CmdFields) :
    f.and (CmdFields.mask op) = CmdFields.ofOpcode op ↔ f.wellFormed = true ∧ f.op = op := by
  have hcompared (x : BitVec 4) : x &&& comparedBits false 4 = x := BitVec.and_allOnes
  simp only [CmdFields.and, CmdFields.mask, CmdFields.ofOpcode, CmdFields.mk.injEq, hcompared,
    and_comparedBits_eq_zero_iff, CmdFields.usesBlock, CmdFields.usesCtx, CmdFields.usesBin, Bool.or_eq_true,
    beq_iff_eq, Bool.false_eq_true, false_or]
  rw [CmdFields.wellFormed_iff]
  constructor
  · rintro ⟨rfl, hblk, hcomp, hr7, hctx, hbin, hhigh⟩
    exact ⟨⟨hop, ⟨hr7, hhigh⟩, or_and_left.mpr ⟨hblk, hcomp⟩, hctx, hbin⟩, rfl⟩
  · rintro ⟨⟨-, ⟨hr7, hhigh⟩, hblock, hctx, hbin⟩, rfl⟩
    exact ⟨rfl, (or_and_left.mp hblock).1, (or_and_left.mp hblock).2, hr7, hctx, hbin, hhigh⟩

/-- Each row of the table is of a defined opcode, and that opcode says its match and its mask (rules R72, R73). -/
theorem opcodeTable_row : ∀ row ∈ opcodeTable,
    (CmdFields.ofWord row.2.1).op.toNat ≤ 0xA ∧
    CmdFields.ofWord row.2.1 = CmdFields.ofOpcode (CmdFields.ofWord row.2.1).op ∧
    CmdFields.ofWord row.2.2 = CmdFields.mask (CmdFields.ofWord row.2.1).op := by
  decide

/-- A command's opcode is a row's exactly if its mnemonic is. -/
theorem opcode_eq_iff_mnemonic_eq (i : Instr) : ∀ row ∈ opcodeTable,
    (i.opcode = (CmdFields.ofWord row.2.1).op ↔ i.mnemonic = row.1) := by
  cases i <;> simp [opcodeTable, Instr.mnemonic, Instr.opcode, CmdFields.ofWord]

/-- A word agrees with a row of the table exactly if it is a legal word of the row's opcode. -/
theorem agrees_row_iff (w : Word) {row : String × Word × Word} (hrow : row ∈ opcodeTable) :
    w &&& row.2.2 = row.2.1 ↔
      (CmdFields.ofWord w).wellFormed = true ∧ (CmdFields.ofWord w).op = (CmdFields.ofWord row.2.1).op := by
  obtain ⟨hop, hmatch, hmask⟩ := opcodeTable_row row hrow
  rw [← CmdFields.and_mask_eq_iff hop, ← hmask, ← hmatch, ← CmdFields.ofWord_and, CmdFields.ofWord_injective.eq_iff]

/-- A word agrees with a row of the table exactly if it decodes to a command of the row's mnemonic. -/
theorem agrees_row_iff_decode (w : Word) {row : String × Word × Word} (hrow : row ∈ opcodeTable) :
    w &&& row.2.2 = row.2.1 ↔ ∃ i, decode w = .command i ∧ i.mnemonic = row.1 := by
  have hname (i : Instr) (hi : decode w = .command i) :
      (CmdFields.ofWord w).op = (CmdFields.ofWord row.2.1).op ↔ i.mnemonic = row.1 := by
    rw [ofWord_of_decode w i hi]
    exact opcode_eq_iff_mnemonic_eq i row hrow
  rw [agrees_row_iff w hrow, ← decode_legal_iff, ← exists_and_right]
  exact exists_congr fun i => and_congr_right (hname i)

/-- No two rows have one mnemonic. -/
theorem opcodeTable_mnemonic_inj : ∀ a ∈ opcodeTable, ∀ b ∈ opcodeTable, a.1 = b.1 → a = b := by
  decide

/-- Settles O3: a row's match and mask say that the word is a legal one of the row's opcode; two rows that one word selects
have the mnemonic of the one command it decodes to. -/
theorem decodeMatchesMaskTable : Obligations.DecodeMatchesMaskTable := by
  refine ⟨fun w row hrow => agrees_row_iff_decode w hrow, fun w a ha b hb hwa hwb => ?_⟩
  obtain ⟨i, hi, hia⟩ := (agrees_row_iff_decode w ha).mp hwa
  obtain ⟨j, hj, hjb⟩ := (agrees_row_iff_decode w hb).mp hwb
  obtain rfl : i = j := Decoded.command.inj (hi.symm.trans hj)
  exact opcodeTable_mnemonic_inj a ha b hb (hia.symm.trans hjb)

end Sys2Proof
end

section
/-! Contexts (rules R86 to R95): the context-index formulas, the updates of an entry, the fifteen contexts of a block's bins,
and that DEC_BLOCK keeps every other entry. -/

namespace Sys2Proof.Machine

open Safety

/-! Formulas (rules R86 to R91). -/

/-- The formula's value is at most 5, so as an index into the 32 entries it does not wrap. -/
theorem val_sigCtx (i : Fin 16) (sig : Fin 16 → Bool) : (sigCtx i sig).val =
    min 5 ((if i.val % 4 ≠ 0 ∧ sig (i - 1) = true then 1 else 0) + (if 4 ≤ i.val ∧ sig (i - 4) = true then 1 else 0)) :=
  Nat.mod_eq_of_lt (Nat.lt_of_le_of_lt (Nat.min_le_left 5 _) (by decide))

/-- The flag at `i - 1` is looked at only off the left column, the flag at `i - 4` only below the top row. -/
theorem sigCtx_congr {i : Fin 16} {f g : Fin 16 → Bool} (hleft : i.val % 4 ≠ 0 → f (i - 1) = g (i - 1))
    (htop : 4 ≤ i.val → f (i - 4) = g (i - 4)) : sigCtx i f = sigCtx i g := by
  have hleft' : (i.val % 4 ≠ 0 ∧ f (i - 1) = true) ↔ (i.val % 4 ≠ 0 ∧ g (i - 1) = true) :=
    and_congr_right fun h => by rw [hleft h]
  have htop' : (4 ≤ i.val ∧ f (i - 4) = true) ↔ (4 ≤ i.val ∧ g (i - 4) = true) :=
    and_congr_right fun h => by rw [htop h]
  apply Fin.ext
  simp only [val_sigCtx, hleft', htop']

/-- Settles O25: where `sigCtx` reads a flag, the index does not wrap, so the flag is one of the two. -/
theorem significanceContextReadsTwoFlags : Obligations.SignificanceContextReadsTwoFlags := by
  intro i f g h
  refine sigCtx_congr (fun hi => h _ (.inl ?_)) (fun hi => h _ (.inr ?_))
  · have hle : (1 : Fin 16) ≤ i := Fin.le_def.mpr (by omega)
    rw [Fin.sub_val_of_le hle]
    omega
  · have hle : (4 : Fin 16) ≤ i := Fin.le_def.mpr hi
    rw [Fin.sub_val_of_le hle]
    omega

/-- Settles O24: the significance context by its formula, the others at each of their indices. -/
theorem contextIndexFormulas : Obligations.ContextIndexFormulas :=
  ⟨val_sigCtx, by decide, by decide, by decide, by decide, rfl⟩

/-- Settles O28: the two updates field by field. -/
theorem contextUpdates : Obligations.ContextUpdates :=
  fun _ _ => ⟨rfl, rfl, rfl, rfl⟩

/-! The contexts of a block to encode (rules R92, R125 to R128). -/

/-- Every bin of the list is in a context of the block syntax. -/
def InSyntaxContexts (bins : List (Bool × Fin 32)) : Prop := ∀ p ∈ bins, p.2 ∈ syntaxContexts

theorem inSyntaxContexts_append {xs ys : List (Bool × Fin 32)} :
    InSyntaxContexts (xs ++ ys) ↔ InSyntaxContexts xs ∧ InSyntaxContexts ys := List.forall_mem_append

theorem inSyntaxContexts_cons {b : Bool} {c : Fin 32} {bins : List (Bool × Fin 32)} :
    InSyntaxContexts ((b, c) :: bins) ↔ c ∈ syntaxContexts ∧ InSyntaxContexts bins := List.forall_mem_cons

theorem inSyntaxContexts_nil : InSyntaxContexts [] := List.forall_mem_nil _

theorem sigBins_inSyntaxContexts (lev : Fin 16 → Int) : InSyntaxContexts (sigBins lev) :=
  List.forall_mem_map.mpr fun i _ => sigCtx_mem i fun k => decide (lev k ≠ 0)

theorem lastBins_inSyntaxContexts (is : List (Fin 16)) : InSyntaxContexts (lastBins is) := by
  induction is with
  | nil => exact inSyntaxContexts_nil
  | cons i is ih =>
    cases is with
    | nil => exact inSyntaxContexts_cons.mpr ⟨lastCtx_mem i, inSyntaxContexts_nil⟩
    | cons j is => exact inSyntaxContexts_cons.mpr ⟨lastCtx_mem i, ih⟩

theorem suffixBins_inSyntaxContexts (suffix : Nat) : InSyntaxContexts (suffixBins suffix) := by
  simp only [suffixBins, inSyntaxContexts_cons, suffixCtx_mem, inSyntaxContexts_nil, and_self]

theorem levelBins_inSyntaxContexts (x : Int) (i : Fin 16) : InSyntaxContexts (levelBins x i) := by
  have hprefix (n : Nat) : InSyntaxContexts (List.replicate n (true, prefixCtx i)) := fun p hp => by
    rw [List.eq_of_mem_replicate hp]
    exact prefixCtx_mem i
  have hsuffix (n m : Nat) : InSyntaxContexts (if 0 < n then suffixBins m else []) := by
    split
    · exact suffixBins_inSyntaxContexts m
    · exact inSyntaxContexts_nil
  simp only [levelBins, inSyntaxContexts_append, inSyntaxContexts_cons, inSyntaxContexts_nil, hprefix, hsuffix,
    prefixCtx_mem, signCtx_mem, and_self]

theorem blockBins_inSyntaxContexts (cfg : Config) (blk : BlkType) (coefs : Coefs) :
    InSyntaxContexts (blockBins cfg blk coefs) := by
  have hlevels (is : List (Fin 16)) (lev : Fin 16 → Int) : InSyntaxContexts (is.flatMap fun i => levelBins (lev i) i) :=
    List.forall_mem_flatMap.mpr fun i _ => levelBins_inSyntaxContexts (lev i) i
  simp only [blockBins, inSyntaxContexts_append, sigBins_inSyntaxContexts, lastBins_inSyntaxContexts, hlevels, and_self]

/-- A grid of one value scans to that value under every table. -/
theorem scanned_replicate (cfg : Config) (blk : BlkType) (x : BitVec 16) :
    scanned cfg blk (Vector.replicate 16 x) = fun _ => x.toInt := by
  funext i
  simp [scanned, Vector.get_eq_getElem]

/-- The block of sixteen coefficients 16 is significant everywhere, and each of its levels has a prefix of one 1 and a
suffix, so it uses every context (rule R92). -/
theorem blockBins_sixteens_reach (cfg : Config) (blk : BlkType) :
    ∀ c ∈ syntaxContexts, ∃ b, (b, c) ∈ blockBins cfg blk (Vector.replicate 16 16) := by
  simp only [blockBins, scanned_replicate]
  decide

/-! The contexts that DEC_BLOCK changes (rules R92, R98). -/

theorem Res.Sat.imp {σ α : Type} {p p' : σ → Prop} {q q' : ErrCode → σ → Prop} {x : Res σ α} (hx : x.Sat p q)
    (hp : ∀ u, p u → p' u) (hq : ∀ e u, q e u → q' e u) : x.Sat p' q' := by
  cases x with
  | ok a u => exact hp u hx
  | raised e u => exact hq e u hx

/-- Entry `k` of the decoder's table holds `entry`. -/
def DecUnit.HoldsEntry (k : Fin 32) (entry : Ctx) (u : DecUnit) : Prop := u.ctx.get k = entry

/-- However the procedure ended, entry `k` of the decoder's table holds `entry`. -/
abbrev LeavesEntry {α : Type} (k : Fin 32) (entry : Ctx) (x : Res DecUnit α) : Prop :=
  x.Sat (DecUnit.HoldsEntry k entry) fun _ => DecUnit.HoldsEntry k entry

theorem decodeBin_leavesEntry (cfg : Config) {c k : Fin 32} (hck : k ≠ c) {entry : Ctx} {u : DecUnit}
    (hu : u.HoldsEntry k entry) : LeavesEntry k entry (decodeBin cfg c u) := by
  have hk : k ∉ [c] := by simpa using hck
  exact (decodeBin_frame cfg c [c] (List.mem_singleton_self c) u).imp (fun v hv => (hv.2 k hk).trans hu)
    fun e v hv => hv ▸ hu

theorem prime_leavesEntry {k : Fin 32} {entry : Ctx} {u : DecUnit} (hu : u.HoldsEntry k entry) :
    LeavesEntry k entry (prime u) := by
  have hregs : u.primeRegs.HoldsEntry k entry := by rw [u.primeRegs_eq]; exact hu
  rcases prime_cases u with ⟨-, hvalid⟩ | ⟨-, hinvalid⟩
  · rw [hvalid]; exact hregs
  · rw [hinvalid]; exact hregs

theorem decodeBlock_leavesEntry (cfg : Config) (blk : BlkType) {k : Fin 32} (hk : k ∉ syntaxContexts) {entry : Ctx}
    {u : DecUnit} (hu : u.HoldsEntry k entry) : LeavesEntry k entry (decodeBlock cfg blk u) := by
  have hbin (c : Fin 32) (hc : c ∈ syntaxContexts) (v : DecUnit) (hv : v.HoldsEntry k entry) :
      LeavesEntry k entry (decodeBin cfg c v) :=
    decodeBin_leavesEntry cfg (ne_of_mem_of_not_mem hc hk).symm hv
  exact (prime_leavesEntry hu).bind fun _ v hv => (decodeBlockSyntax_sat hbin (fun _ hw => hw) v hv).bind fun _ _ hw => hw

theorem endDec_holdsEntry (s : State) {k : Fin 32} {entry : Ctx} {x : Res DecUnit Unit} (hx : LeavesEntry k entry x) :
    (endDec s x).dec.HoldsEntry k entry := by
  cases x with
  | ok _ u => exact hx
  | raised e u => exact hx

/-- DEC_BLOCK keeps every entry outside the block syntax, whatever its outcome (rule R92). -/
theorem after_decBlock_ctx_get (blk : BlkType) (comp : Component) (s : State) {k : Fin 32} (hk : k ∉ syntaxContexts) :
    (after (.decBlock blk comp) s).dec.ctx.get k = s.dec.ctx.get k := by
  rw [after_decBlock]
  split
  · exact endDec_holdsEntry s (decodeBlock_leavesEntry s.cfg blk hk rfl)
  · rfl

/-- Settles O26: the bins of each phase of a block, the block of sixteen 16s, and DEC_BLOCK's frame. -/
theorem blockSyntaxContexts : Obligations.BlockSyntaxContexts := by
  refine ⟨blockBins_inSyntaxContexts, fun cfg blk => ⟨_, blockBins_sixteens_reach cfg blk⟩, ?_⟩
  intro s t blk comp c ht hc
  obtain rfl : after (.decBlock blk comp) s = t := Host.Outcome.next.inj ((exec_next _ s).symm.trans ht)
  exact after_decBlock_ctx_get blk comp s hc

end Sys2Proof.Machine
end

section
/-! The arithmetic engines' inputs (rules R104, R109, R110): the state ENC_START opens a session with, the cursor's
saturating increment, and the reservoir's bit. -/

namespace Sys2Proof.Machine

open Safety

/-- BUSY is 0 already where a command issues, so completing sets ERR alone (rules R80, R153). -/
theorem Status.completed_of_not_busy {t : Status} (h : t.busy = false) : t.completed = { t with err := .ok } := by
  rw [Status.completed, ← h]

/-- Settles O31: the session's registers are those of `EncUnit.started`, and STATUS is as a completed command leaves it. -/
theorem encStartResult : Obligations.EncStartResult := by
  refine ⟨by decide, fun s hidle => ?_⟩
  have hstatus : s.status.completed = { s.status with err := .ok } := Status.completed_of_not_busy hidle
  rw [exec_next, after_encStart, complete, hstatus]
  rfl

/-- The cursor moves below its greatest value `2^32 - 1` and stays there (rule R109). -/
theorem advanceCursor_eq (c : BitVec 32) : advanceCursor c = if c.toNat < 2 ^ 32 - 1 then c + 1 else c := by
  have hend : c = BitVec.allOnes 32 ↔ ¬ c.toNat < 2 ^ 32 - 1 := by
    rw [← BitVec.toNat_inj, BitVec.toNat_allOnes]
    omega
  simp only [advanceCursor, hend, ite_not]

theorem DecUnit.refill_of_empty {u : DecUnit} (h : u.nres = 0) :
    u.refill = { u.inByte.2 with res := u.inByte.1, nres := 8 } := if_pos h

theorem DecUnit.refill_of_nonempty {u : DecUnit} (h : u.nres ≠ 0) : u.refill = u := if_neg h

/-- A counter of the bits left loses one without wrapping where some are left. -/
theorem toNat_sub_one_of_ne_zero {n : BitVec 4} (h : n ≠ 0) : (n - 1).toNat = n.toNat - 1 :=
  BitVec.toNat_sub_of_le (Nat.one_le_iff_ne_zero.mpr ((BitVec.toNat_ne_iff_ne (y := 0)).mpr h))

/-- An empty reservoir gives bit 7 of the byte fetched and keeps the seven below it (rule R110). -/
theorem DecUnit.nextBit_of_empty {u : DecUnit} (h : u.nres = 0) :
    u.nextBit = (u.inByte.1.getLsbD 7, { u.inByte.2 with res := u.inByte.1, nres := 7 }) := by
  have hleft : (8 - 1 : BitVec 4) = 7 := rfl
  simp only [DecUnit.nextBit, DecUnit.refill_of_empty h, hleft]
  rfl

/-- A reservoir that holds bits gives the most significant of them and no byte is fetched (rule R110). -/
theorem DecUnit.nextBit_of_nonempty {u : DecUnit} (h : u.nres ≠ 0) :
    u.nextBit = (u.res.getLsbD (u.nres.toNat - 1), { u with nres := u.nres - 1 }) := by
  rw [DecUnit.nextBit, DecUnit.refill_of_nonempty h]
  simp only [toNat_sub_one_of_ne_zero h]

/-- Settles O42: a fetch moves the cursor as `advanceCursor_eq` says; a bit comes from the byte fetched into an empty
reservoir, else from the reservoir. -/
theorem inputBytesAndBits : Obligations.InputBytesAndBits := by
  refine fun u => ⟨?fetch, DecUnit.nextBit_of_empty, DecUnit.nextBit_of_nonempty⟩
  rw [DecUnit.inByte, advanceCursor_eq]

end Sys2Proof.Machine
end

section
/-! The number of bins of a block (rule R129): the lengths of its three phases added up, and the two extremes, no
significant level and sixteen levels of magnitude 32768. -/

namespace Sys2Proof.Machine

/-- The levels are coded in reverse scan order, which does not change how many bins they have (rules R125, R129). -/
theorem blockBins_length (cfg : Config) (blk : BlkType) (coefs : Coefs) :
    (blockBins cfg blk coefs).length = 16 + (significant (scanned cfg blk coefs)).length +
      ((significant (scanned cfg blk coefs)).map fun i => (levelBins (scanned cfg blk coefs i) i).length).sum := by
  simp only [blockBins, List.length_append, sigBins_length, lastBins_length, List.length_flatMap, List.map_reverse,
    List.sum_reverse]

/-- The longest unary prefix is that of magnitude 32768, 2184 ones (rule R129). -/
theorem prefixLength_le {x : Int} (hx : x.natAbs ≤ 32768) : (x.natAbs - 1) / 15 ≤ 2184 := by omega

/-- The value of any coefficient word has magnitude at most 32768 (rule R30). -/
theorem natAbs_toInt_le_32768 (x : BitVec 16) : x.toInt.natAbs ≤ 32768 := by
  have hlt := BitVec.toInt_lt (x := x)
  have hle := BitVec.le_toInt (x := x)
  omega

/-- The longest prefix, its closing 0, the suffix and the sign: 2184 + 1 + 4 + 1 bins. -/
theorem levelBins_length_le {x : Int} (hx : x.natAbs ≤ 32768) (i : Fin 16) : (levelBins x i).length ≤ 2190 := by
  have hprefix := prefixLength_le hx
  rw [levelBins_length]
  split <;> omega

/-- Sixteen levels of 2190 bins each, after 16 significance and at most 16 last-position flags (rule R144). -/
theorem blockBins_length_le (cfg : Config) (blk : BlkType) (coefs : Coefs) :
    (blockBins cfg blk coefs).length ≤ 35072 := by
  have hcount := significant_length (scanned cfg blk coefs)
  have hlevels := List.sum_le_card_nsmul
    ((significant (scanned cfg blk coefs)).map fun i => (levelBins (scanned cfg blk coefs i) i).length) 2190
    (List.forall_mem_map.mpr fun i _ => levelBins_length_le (scanned_natAbs_le cfg blk coefs i) i)
  rw [List.length_map, smul_eq_mul] at hlevels
  rw [blockBins_length]
  omega

theorem scanned_eq_zero {coefs : Coefs} (hzero : ∀ p, coefs.get p = 0) (cfg : Config) (blk : BlkType) (i : Fin 16) :
    scanned cfg blk coefs i = 0 := by
  rw [scanned, hzero]
  rfl

theorem significant_eq_nil {lev : Fin 16 → Int} (hzero : ∀ i, lev i = 0) : significant lev = [] :=
  List.filter_eq_nil_iff.mpr fun i _ => by simp [hzero i]

/-- An all-zero block has its significance flags alone (rule R139). -/
theorem blockBins_length_of_zero {coefs : Coefs} (hzero : ∀ p, coefs.get p = 0) (cfg : Config) (blk : BlkType) :
    (blockBins cfg blk coefs).length = 16 := by
  rw [blockBins_length, significant_eq_nil (scanned_eq_zero hzero cfg blk)]
  rfl

/-- Settles O38: the three phases' lengths added up, and the two extremes of the sum. -/
theorem blockBinCount : Obligations.BlockBinCount := by
  refine ⟨fun cfg blk coefs => ⟨?count, blockBins_length_le cfg blk coefs,
    fun hzero => blockBins_length_of_zero hzero cfg blk⟩, fun x => prefixLength_le (natAbs_toInt_le_32768 x), by decide⟩
  simp only [blockBins_length, levelBins_length]

end Sys2Proof.Machine
end

section
/-! The control commands and DEC_LOAD (rules R141 to R143, R146): how a command that issues with BUSY 0 leaves STATUS, and
what DEC_LOAD does to its unit in each of its three cases. -/

namespace Sys2Proof.Machine

/-- Where a command issues, BUSY is 0 already, so raising sets ERR and FAULT alone (rules R80, R152). -/
theorem Status.raised_of_not_busy {t : Status} (h : t.busy = false) (e : ErrCode) :
    t.raised e = { t with err := e, fault := true } := by
  rw [Status.raised, ← h]

/-- Settles O30: each command completes, on the state with its unit's context table at the initial one. -/
theorem controlCommandResults : Obligations.ControlCommandResults := by
  refine ⟨by decide, fun s hidle => ?_⟩
  have hstatus : s.status.completed = { s.status with err := .ok } := Status.completed_of_not_busy hidle
  refine ⟨?nop, ?encCtxReset, ?decCtxReset⟩
  case nop => rw [exec_next, after_nop, complete, hstatus]
  case encCtxReset =>
    rw [exec_next, after_encCtxReset, complete, hstatus]
    rfl
  case decCtxReset =>
    rw [exec_next, after_decCtxReset, complete, hstatus]
    rfl

/-! DEC_LOAD on its unit (rules R146, R155). -/

theorem loadStream_of_short {u : DecUnit} (h : u.inLen.toNat < 2) (cfg : Config) :
    loadStream cfg u = .raised .shortStream u := if_pos h

theorem loadStream_of_long {cfg : Config} {u : DecUnit} (hmin : 2 ≤ u.inLen.toNat) (hlong : cfg.inCap < u.inLen.toNat) :
    loadStream cfg u = .raised .badLen u := by
  rw [loadStream, if_neg (Nat.not_lt.mpr hmin), if_pos hlong]

theorem loadStream_of_fits {cfg : Config} {u : DecUnit} (hmin : 2 ≤ u.inLen.toNat) (hfits : u.inLen.toNat ≤ cfg.inCap) :
    loadStream cfg u = .ok () { u with
      len := u.inLen, cur := 0, r := 510, code := 0, res := 0, nres := 0, ready := true, active := false } := by
  rw [loadStream, if_neg (Nat.not_lt.mpr hmin), if_neg (Nat.not_lt.mpr hfits)]

/-- Settles O41: the two errors leave the unit of `DecUnit.failed`; a length in bounds completes with the stream loaded. -/
theorem decLoadResult : Obligations.DecLoadResult := by
  refine ⟨by decide, fun s hidle => ?_⟩
  rw [exec_next, after_decLoad]
  refine ⟨fun hshort => ?short, fun hmin hlong => ?long, fun hmin hfits => ?fits⟩
  case short =>
    rw [loadStream_of_short hshort, endDec_raised, raiseFault, Status.raised_of_not_busy hidle]
    rfl
  case long =>
    rw [loadStream_of_long hmin hlong, endDec_raised, raiseFault, Status.raised_of_not_busy hidle]
    rfl
  case fits => rw [loadStream_of_fits hmin hfits, endDec_ok, complete, Status.completed_of_not_busy hidle]

end Sys2Proof.Machine
end

section
/-! FAULT (rules R152 to R154, R163): what a step that answers can have done, that no command clears FAULT, and so that the
reset event alone does. -/

namespace Sys2Proof.Machine

open Safety

/-- A write of a word to CMD is its command, or raises ILLEGAL_CMD (rules R74, R80). -/
theorem runCommand_cases {w : Word} {s t : State} (h : runCommand w s = .next t) :
    (∃ i, decode w = .command i ∧ t = after i s) ∨
    ((∃ e, decode w = .illegal e) ∧ t = raiseFault .illegalCmd s) := by
  unfold runCommand at h
  split at h
  case h_1 i hw =>
    rw [exec_next] at h
    cases h
    exact .inl ⟨i, hw, rfl⟩
  case h_2 e hw =>
    cases h
    exact .inr ⟨⟨e, hw⟩, rfl⟩

/-- What a step that the bus does not refuse does: nothing (rule R165), the reset event (rule R163), a read (rule R51), a
write to a register other than CMD, or a write of CMD (rule R80). An access is decoded and is not refused for BUSY. -/
theorem step_cases {s t : State} (h : step s = .next t) :
    (s.pending = [] ∧ t = s) ∨
    (∃ rest, s.pending = .reset :: rest ∧ t = s.resetEvent rest) ∨
    (∃ bits a rest r, s.pending = .read bits a :: rest ∧ busDecode s.cfg bits a = .ok r ∧
      s.busyRefuses true r = false ∧ t = (s.taken rest).busRead r) ∨
    (∃ bits a w rest r, s.pending = .write bits a w :: rest ∧ busDecode s.cfg bits a = .ok r ∧
      s.busyRefuses false r = false ∧ r ≠ .cmd ∧ t = (s.taken rest).writeReg w r) ∨
    (∃ bits a w rest, s.pending = .write bits a w :: rest ∧ busDecode s.cfg bits a = .ok .cmd ∧
      s.busyRefuses false .cmd = false ∧ runCommand w (s.taken rest) = .next t) := by
  unfold step at h
  split at h
  case h_1 hp =>
    cases h
    exact .inl ⟨hp, rfl⟩
  case h_2 rest hp =>
    cases h
    exact .inr (.inl ⟨rest, hp, rfl⟩)
  case h_3 bits a rest hp =>
    split at h
    case h_1 => cases h
    case h_2 r hr =>
      split at h
      case isTrue => cases h
      case isFalse hb =>
        cases h
        exact .inr (.inr (.inl ⟨bits, a, rest, r, hp, hr, Bool.eq_false_of_not_eq_true hb, rfl⟩))
  case h_4 bits a w rest hp =>
    split at h
    case h_1 => cases h
    case h_2 r hr =>
      split at h
      case isTrue => cases h
      case isFalse hb =>
        have hb := Bool.eq_false_of_not_eq_true hb
        split at h
        case isTrue hc =>
          subst hc
          exact .inr (.inr (.inr (.inr ⟨bits, a, w, rest, hp, hr, hb, h⟩)))
        case isFalse hc =>
          cases h
          exact .inr (.inr (.inr (.inl ⟨bits, a, w, rest, r, hp, hr, hb, hc, rfl⟩)))

/-- STATUS is read-only, and a write to any other register leaves it (rules R50, R51). -/
@[simp] theorem State.writeReg_status (w : Word) (s : State) (r : Reg) : (s.writeReg w r).status = s.status := by
  cases r <;> rfl

/-- A decoded bin is noted in BIN alone (rule R41). -/
@[simp] theorem noteBin_fault (x : Res DecUnit Bool) (s : State) :
    (noteBin x s).status.fault = s.status.fault := by
  cases x <;> rfl

/-- The end of an encoder command keeps FAULT or sets it (rules R152, R153). -/
theorem endEnc_keeps_fault {s : State} (h : s.status.fault = true) (x : Res EncUnit Unit) :
    (endEnc s x).status.fault = true := by
  obtain ⟨u, -, hend⟩ | ⟨e, u, -, hend⟩ := endEnc_cases s x
  · rw [hend, Status.completed_fault, h]
  · rw [hend, Status.raised_fault]

/-- The end of a decoder command keeps FAULT or sets it (rules R152, R153). -/
theorem endDec_keeps_fault {s : State} (h : s.status.fault = true) (x : Res DecUnit Unit) :
    (endDec s x).status.fault = true := by
  obtain ⟨u, -, hend⟩ | ⟨e, u, -, hend⟩ := endDec_cases s x
  · rw [hend, Status.completed_fault, h]
  · rw [hend, Status.raised_fault]

/-- A command whose guard fails raises, which sets FAULT, so only the guarded part has to keep it (rules R107, R116). -/
theorem guarded_keeps_fault {c : Bool} {e : ErrCode} {s t : State} (h : t.status.fault = true) :
    (if c then t else raiseFault e s).status.fault = true := by
  split
  · exact h
  · rfl

/-- No command clears FAULT (rules R152 to R154): it completes, ends its unit's procedure, or raises an error before it. -/
theorem after_keeps_fault {s : State} (h : s.status.fault = true) (i : Instr) :
    (after i s).status.fault = true := by
  cases i with
  | nop | encCtxReset | decCtxReset | encStart => exact h
  | encBin c b =>
    rw [after_encBin]
    exact guarded_keeps_fault (endEnc_keeps_fault h _)
  | encFinish =>
    rw [after_encFinish]
    exact guarded_keeps_fault (endEnc_keeps_fault h _)
  | encBlock blk comp =>
    rw [after_encBlock]
    exact endEnc_keeps_fault h _
  | decLoad =>
    rw [after_decLoad]
    exact endDec_keeps_fault h _
  | decStart =>
    rw [after_decStart]
    exact guarded_keeps_fault (endDec_keeps_fault h _)
  | decBin c =>
    rw [after_decBin]
    exact guarded_keeps_fault (endDec_keeps_fault ((noteBin_fault _ s).trans h) _)
  | decBlock blk comp =>
    rw [after_decBlock]
    exact guarded_keeps_fault (endDec_keeps_fault h _)

/-- No word written to CMD clears FAULT, an illegal one included (rule R74). -/
theorem runCommand_keeps_fault {w : Word} {s t : State} (hs : s.status.fault = true) (h : runCommand w s = .next t) :
    t.status.fault = true := by
  obtain ⟨i, -, rfl⟩ | ⟨-, rfl⟩ := runCommand_cases h
  · exact after_keeps_fault hs i
  · rfl

/-- The step at a reset event (rule R163). -/
theorem step_reset {s : State} {rest : List HostEvent} (hp : s.pending = .reset :: rest) :
    step s = .next (s.resetEvent rest) := by
  rw [step, hp]

/-- Settles O21: of what a step can do, idling, reads and register writes leave STATUS, a CMD write keeps FAULT, and the
reset event sets STATUS to its reset value. -/
theorem faultIsSticky : Obligations.FaultIsSticky := by
  refine ⟨fun s t hstep hreset hs => ?sticky, fun s t rest hp hstep => ?cleared⟩
  case sticky =>
    obtain ⟨-, rfl⟩ | ⟨rest, hp, -⟩ | ⟨_, _, rest, r, -, -, -, rfl⟩ | ⟨_, _, w, rest, r, -, -, -, -, rfl⟩ |
      ⟨_, _, w, rest, -, -, -, hrun⟩ := step_cases hstep
    · exact hs
    · exact absurd hp (hreset rest)
    · exact hs
    · rw [State.writeReg_status, State.taken_status, hs]
    · exact runCommand_keeps_fault (s := s.taken rest) hs hrun
  case cleared =>
    cases (step_reset hp).symm.trans hstep
    rfl

end Sys2Proof.Machine
end

section
/-! The independence of the two units (rule R172): a command of a unit is a procedure of the parameters and that unit alone,
laid into the rest of the state; the encoder's procedures leave COEF_IN, the decoder's IN_BUF and IN_LEN. -/

namespace Sys2Proof.Machine

open Safety

/-! The encoder's procedures only read COEF_IN (rules R30, R172). -/

/-- However the procedure ended, COEF_IN holds `coefs`. -/
abbrev LeavesCoefIn {α : Type} (coefs : Coefs) (x : Res EncUnit α) : Prop := x.All fun v => v.coefIn = coefs

theorem LeavesCoefIn.bind {α β : Type} {coefs : Coefs} {x : Res EncUnit α} {f : α → EncUnit → Res EncUnit β}
    (hx : LeavesCoefIn coefs x) (hf : ∀ a v, v.coefIn = coefs → LeavesCoefIn coefs (f a v)) :
    LeavesCoefIn coefs (x.bind f) :=
  Res.All.bind hx hf fun _ hv => hv

section

variable (cfg : Config) {coefs : Coefs} {u : EncUnit} (hu : u.coefIn = coefs)

include hu

theorem emit_leavesCoefIn (out : BitVec 9) : LeavesCoefIn coefs (emit cfg out u) := by
  rcases emit_cases cfg out u with ⟨-, hfull⟩ | ⟨-, hroom⟩
  · rw [hfull]; exact hu
  · rw [hroom]; exact (u.resolve_coefIn out).trans hu

theorem shiftE_leavesCoefIn : LeavesCoefIn coefs (shiftE cfg u) := by
  unfold shiftE
  split
  · exact (emit_leavesCoefIn cfg (u := { u with l := u.l <<< 1 &&& 0x3FF, cnt := 7 }) hu _).bind fun _ _ hv => hv
  · exact hu

theorem renormE_leavesCoefIn (n : Nat) : LeavesCoefIn coefs (renormE cfg n u) := by
  induction n generalizing u with
  | zero => exact hu
  | succ n ih =>
    unfold renormE
    split
    · exact (shiftE_leavesCoefIn cfg (u := { u with r := u.r <<< 1 }) hu).bind fun _ _ hv => ih hv
    · exact hu

theorem shiftUntilEmit_leavesCoefIn (n : Nat) : LeavesCoefIn coefs (shiftUntilEmit cfg n u) := by
  induction n generalizing u with
  | zero => exact hu
  | succ n ih =>
    refine (shiftE_leavesCoefIn cfg hu).bind fun emitted v hv => ?_
    split
    · exact hv
    · exact ih hv

theorem flush_leavesCoefIn : LeavesCoefIn coefs (u.flush cfg) := by
  unfold EncUnit.flush
  split
  · exact hu
  · split
    · rw [EncUnit.outRun_eq]; exact hu
    · exact hu

theorem terminate_leavesCoefIn : LeavesCoefIn coefs (terminate cfg u) :=
  (renormE_leavesCoefIn cfg (u := { u with r := Config.termRange }) hu _).bind fun _ _ hv =>
    (shiftE_leavesCoefIn cfg hv).bind fun _ _ hv => (shiftE_leavesCoefIn cfg hv).bind fun _ _ hv =>
    (shiftUntilEmit_leavesCoefIn cfg hv _).bind fun _ _ hv => flush_leavesCoefIn cfg hv

theorem encodeBin_leavesCoefIn (b : Bool) (c : Fin 32) : LeavesCoefIn coefs (encodeBin cfg b c u) := by
  unfold encodeBin
  split
  · exact hu
  · exact renormE_leavesCoefIn cfg (by rw [EncUnit.codeBin_eq]; exact hu) _

theorem encodeBins_leavesCoefIn (bins : List (Bool × Fin 32)) : LeavesCoefIn coefs (encodeBins cfg bins u) := by
  induction bins generalizing u with
  | nil => exact hu
  | cons bin bins ih => exact (encodeBin_leavesCoefIn cfg hu bin.1 bin.2).bind fun _ _ hv => ih hv

theorem encodeBlock_leavesCoefIn (blk : BlkType) : LeavesCoefIn coefs (encodeBlock cfg blk u) :=
  (encodeBins_leavesCoefIn cfg (u := u.started) hu _).bind fun _ _ hv =>
    (terminate_leavesCoefIn cfg hv).bind fun _ _ hv => hv

end

/-! The decoder's procedures only read IN_BUF and IN_LEN (rules R67, R172). -/

/-- `v` holds the host's input, IN_BUF and IN_LEN, as `u` does. -/
def DecUnit.SameInput (u v : DecUnit) : Prop := v.inBuf = u.inBuf ∧ v.inLen = u.inLen

/-- However the procedure ended, IN_BUF and IN_LEN are those of `u`. -/
abbrev LeavesInput {α : Type} (u : DecUnit) (x : Res DecUnit α) : Prop := x.Sat u.SameInput fun _ => u.SameInput

theorem decodeBin_leavesInput (cfg : Config) (c : Fin 32) {u v : DecUnit} (hv : u.SameInput v) :
    LeavesInput u (decodeBin cfg c v) := by
  refine (decodeBin_frame cfg c [c] (List.mem_singleton_self c) v).imp (fun w hw => ?_) fun _ w hw => hw ▸ hv
  rw [hw.1]
  exact hv

theorem prime_leavesInput (u : DecUnit) : LeavesInput u (prime u) := by
  have hregs : u.SameInput u.primeRegs := by rw [u.primeRegs_eq]; exact ⟨rfl, rfl⟩
  rcases prime_cases u with ⟨-, hvalid⟩ | ⟨-, hinvalid⟩
  · rw [hvalid]; exact hregs
  · rw [hinvalid]; exact hregs

theorem decodeBlock_leavesInput (cfg : Config) (blk : BlkType) (u : DecUnit) :
    LeavesInput u (decodeBlock cfg blk u) :=
  (prime_leavesInput u).bind fun _ _ hv =>
    (decodeBlockSyntax_sat (fun c _ _ hw => decodeBin_leavesInput cfg c hw) (fun _ hw => hw) _ hv).bind fun _ _ hw => hw

theorem loadStream_leavesInput (cfg : Config) (u : DecUnit) : LeavesInput u (loadStream cfg u) := by
  unfold loadStream
  split
  · exact ⟨rfl, rfl⟩
  · split <;> exact ⟨rfl, rfl⟩

/-! The commands of a unit as procedures on it. -/

/-- NOT_STARTED leaves the unit as it was: ENC.ACTIVE, which the end of a fault clears, was 0 already (rules R107, R149). -/
theorem endEnc_notStarted {s : State} (h : s.enc.active = false) :
    endEnc s (.raised .notStarted s.enc) = raiseFault .notStarted s := by
  have hclosed : s.enc.closed = s.enc := by rw [EncUnit.closed, ← h]
  rw [endEnc_raised, hclosed]

/-- ENC_BIN and ENC_FINISH run their procedure, or raise NOT_STARTED as a procedure that does only that (rules R107, R108). -/
theorem guarded_endEnc (s : State) (x : Res EncUnit Unit) :
    (if s.enc.active then endEnc s x else raiseFault .notStarted s) =
      endEnc s (if s.enc.active then x else .raised .notStarted s.enc) := by
  split
  case isTrue => rfl
  case isFalse h => exact (endEnc_notStarted (Bool.eq_false_of_not_eq_true h)).symm

/-- A guarded procedure leaves COEF_IN where the procedure itself does. -/
theorem guarded_leavesCoefIn {u : EncUnit} {x : Res EncUnit Unit} (hx : LeavesCoefIn u.coefIn x) :
    LeavesCoefIn u.coefIn (if u.active then x else .raised .notStarted u) := by
  split
  · exact hx
  · exact rfl

/-- An encoder command is the end of a procedure that sees the parameters and the encoder alone (rule R172). -/
theorem after_encCommand {i : Instr} (hi : isEncCommand i = true) :
    ∃ run : Config → EncUnit → Res EncUnit Unit,
      (∀ cfg u, LeavesCoefIn u.coefIn (run cfg u)) ∧ ∀ s, after i s = endEnc s (run s.cfg s.enc) := by
  cases i with
  | nop | decCtxReset | decLoad | decStart | decBin | decBlock => cases hi
  | encCtxReset => exact ⟨fun _ u => .ok () { u with ctx := CtxTable.init }, fun _ _ => rfl, after_encCtxReset⟩
  | encStart => exact ⟨fun _ u => .ok () u.started, fun _ _ => rfl, after_encStart⟩
  | encBin c b =>
    refine ⟨fun cfg u => if u.active then encodeBin cfg b c u else .raised .notStarted u, fun cfg u => ?_, fun s => ?_⟩
    · exact guarded_leavesCoefIn (encodeBin_leavesCoefIn cfg rfl b c)
    · exact guarded_endEnc s (encodeBin s.cfg b c s.enc)
  | encFinish =>
    refine ⟨fun cfg u => if u.active then (terminate cfg u).bind fun _ v => .ok () v.closed else .raised .notStarted u,
      fun cfg u => ?_, fun s => ?_⟩
    · exact guarded_leavesCoefIn ((terminate_leavesCoefIn cfg rfl).bind fun _ _ hv => hv)
    · exact guarded_endEnc s ((terminate s.cfg s.enc).bind fun _ v => .ok () v.closed)
  | encBlock blk comp =>
    exact ⟨fun cfg u => encodeBlock cfg blk u, fun cfg _ => encodeBlock_leavesCoefIn cfg rfl blk, after_encBlock blk comp⟩

/-- A decoder command is the end of a procedure that sees the parameters and the decoder alone, or raises NOT_READY with
nothing changed in the unit; before the end STATUS alone may have changed, for DEC_BIN notes its bin there (rules R116,
R172). -/
theorem after_decCommand {i : Instr} (hi : isDecCommand i = true) :
    ∃ (opens : DecUnit → Bool) (run : Config → DecUnit → Res DecUnit Unit),
      (∀ cfg u, LeavesInput u (run cfg u)) ∧
      ∀ s, ∃ status, after i s =
        if opens s.dec then endDec { s with status := status } (run s.cfg s.dec) else raiseFault .notReady s := by
  cases i with
  | nop | encCtxReset | encStart | encBin | encFinish | encBlock => cases hi
  | decCtxReset =>
    exact ⟨fun _ => true, fun _ u => .ok () { u with ctx := CtxTable.init }, fun _ _ => ⟨rfl, rfl⟩, fun s => ⟨s.status, rfl⟩⟩
  | decLoad => exact ⟨fun _ => true, loadStream, loadStream_leavesInput, fun s => ⟨s.status, rfl⟩⟩
  | decStart => exact ⟨DecUnit.ready, fun _ => prime, fun _ => prime_leavesInput, fun s => ⟨s.status, rfl⟩⟩
  | decBin c =>
    refine ⟨DecUnit.active, fun cfg u => (decodeBin cfg c u).bind fun _ v => .ok () v, fun cfg u => ?_,
      fun s => ⟨(noteBin (decodeBin s.cfg c s.dec) s).status, ?_⟩⟩
    · exact (decodeBin_leavesInput cfg c ⟨rfl, rfl⟩).bind fun _ _ hv => hv
    · have hnote : noteBin (decodeBin s.cfg c s.dec) s =
          { s with status := (noteBin (decodeBin s.cfg c s.dec) s).status } := by
        cases decodeBin s.cfg c s.dec <;> rfl
      rw [← hnote]
      exact after_decBin c s
  | decBlock blk comp =>
    exact ⟨DecUnit.ready, fun cfg u => decodeBlock cfg blk u, fun cfg u => decodeBlock_leavesInput cfg blk u,
      fun s => ⟨s.status, after_decBlock blk comp s⟩⟩

/-! Frames and dependences of the commands (rule R172). -/

/-- What an encoder command leaves: the parameters, the decoder, BIN and COEF_IN. -/
theorem after_encCommand_frame {i : Instr} (hi : isEncCommand i = true) (s : State) :
    (after i s).cfg = s.cfg ∧ (after i s).dec = s.dec ∧ (after i s).status.bin = s.status.bin ∧
      (after i s).enc.coefIn = s.enc.coefIn := by
  obtain ⟨run, hcoefs, hafter⟩ := after_encCommand hi
  have hrun := hcoefs s.cfg s.enc
  rw [hafter]
  obtain ⟨u, hok, hend⟩ | ⟨e, u, hraised, hend⟩ := endEnc_cases s (run s.cfg s.enc)
  · rw [hok] at hrun
    rw [hend]
    exact ⟨rfl, rfl, rfl, hrun⟩
  · rw [hraised] at hrun
    rw [hend]
    exact ⟨rfl, rfl, rfl, hrun⟩

/-- The encoder and ERR after an encoder command depend on the parameters and the encoder alone. -/
theorem after_encCommand_congr {i : Instr} (hi : isEncCommand i = true) {s s' : State} (hcfg : s.cfg = s'.cfg)
    (henc : s.enc = s'.enc) :
    (after i s).enc = (after i s').enc ∧ (after i s).status.err = (after i s').status.err := by
  obtain ⟨run, -, hafter⟩ := after_encCommand hi
  rw [hafter, hafter, hcfg, henc]
  cases run s'.cfg s'.enc <;> exact ⟨rfl, rfl⟩

/-- What a decoder command leaves: the parameters, the encoder, IN_BUF and IN_LEN. -/
theorem after_decCommand_frame {i : Instr} (hi : isDecCommand i = true) (s : State) :
    (after i s).cfg = s.cfg ∧ (after i s).enc = s.enc ∧ s.dec.SameInput (after i s).dec := by
  obtain ⟨opens, run, hinput, hafter⟩ := after_decCommand hi
  obtain ⟨status, hs⟩ := hafter s
  have hrun := hinput s.cfg s.dec
  rw [hs]
  split
  case isFalse => exact ⟨rfl, rfl, rfl, rfl⟩
  case isTrue =>
    obtain ⟨u, hok, hend⟩ | ⟨e, u, hraised, hend⟩ := endDec_cases { s with status := status } (run s.cfg s.dec)
    · rw [hok] at hrun
      rw [hend]
      exact ⟨rfl, rfl, hrun⟩
    · rw [hraised] at hrun
      rw [hend]
      exact ⟨rfl, rfl, hrun⟩

/-- The decoder and ERR after a decoder command depend on the parameters and the decoder alone. -/
theorem after_decCommand_congr {i : Instr} (hi : isDecCommand i = true) {s s' : State} (hcfg : s.cfg = s'.cfg)
    (hdec : s.dec = s'.dec) :
    (after i s).dec = (after i s').dec ∧ (after i s).status.err = (after i s').status.err := by
  obtain ⟨opens, run, -, hafter⟩ := after_decCommand hi
  obtain ⟨status, hs⟩ := hafter s
  obtain ⟨status', hs'⟩ := hafter s'
  rw [hs, hs', hcfg, hdec]
  split
  case isFalse => exact ⟨hdec, rfl⟩
  case isTrue => cases run s'.cfg s'.dec <;> exact ⟨rfl, rfl⟩

/-- Settles O53: each command's frame and dependence, and from them that either order leaves each unit as its own command
alone does. -/
theorem unitIndependence : Obligations.UnitIndependence := by
  refine ⟨fun i s s' hi => ?encoder, fun i s s' hi => ?decoder, fun e d s he hd => ?commute⟩
  case encoder =>
    obtain ⟨-, hdec, hbin, hcoefs⟩ := after_encCommand_frame hi s
    exact ⟨hdec, hbin, hcoefs, after_encCommand_congr hi⟩
  case decoder =>
    obtain ⟨-, henc, hbuf, hlen⟩ := after_decCommand_frame hi s
    exact ⟨henc, hbuf, hlen, after_decCommand_congr hi⟩
  case commute =>
    obtain ⟨hecfg, hedec, -, -⟩ := after_encCommand_frame he s
    obtain ⟨hdcfg, hdenc, -⟩ := after_decCommand_frame hd s
    constructor
    · calc (after d (after e s)).enc
        _ = (after e s).enc := (after_decCommand_frame hd (after e s)).2.1
        _ = (after e (after d s)).enc := (after_encCommand_congr he hdcfg.symm hdenc.symm).1
    · calc (after d (after e s)).dec
        _ = (after d s).dec := (after_decCommand_congr hd hecfg hedec).1
        _ = (after e (after d s)).dec := (after_encCommand_frame he (after d s)).2.1.symm

end Sys2Proof.Machine
end

section
/-! Command words in both directions (rules R69 to R77): a word is its fields, and a command's fields name that command. -/

namespace Sys2Proof

/-- Every command's fields are well formed and are those of its word (rules R70, R76, R77). -/
theorem fieldsWellFormed (i : Instr) : Laws.FieldsWellFormed.Statement i := by
  cases i with
  | nop => exact Laws.FieldsWellFormed.nop
  | encCtxReset => exact Laws.FieldsWellFormed.encCtxReset
  | decCtxReset => exact Laws.FieldsWellFormed.decCtxReset
  | encStart => exact Laws.FieldsWellFormed.encStart
  | encBin c b => exact Laws.FieldsWellFormed.encBin c b
  | encFinish => exact Laws.FieldsWellFormed.encFinish
  | encBlock k m => exact Laws.FieldsWellFormed.encBlock k m
  | decLoad => exact Laws.FieldsWellFormed.decLoad
  | decStart => exact Laws.FieldsWellFormed.decStart
  | decBin c => exact Laws.FieldsWellFormed.decBin c
  | decBlock k m => exact Laws.FieldsWellFormed.decBlock k m

theorem BlkType.ofBits_bits (k : BlkType) : BlkType.ofBits k.bits = k := by
  cases k <;> rfl

theorem Component.ofBits_bits (m : Component) : Component.ofBits m.bits = m := by
  cases m <;> rfl

/-- No operand is lost in a command's fields (rules R70, R71). -/
theorem Instr.command_fields (i : Instr) : i.fields.command = some i := by
  cases i with
  | encBin c b => cases b <;> rfl
  | encBlock k m =>
    exact congrArg some (congrArg₂ Instr.encBlock (BlkType.ofBits_bits k) (Component.ofBits_bits m))
  | decBlock k m =>
    exact congrArg some (congrArg₂ Instr.decBlock (BlkType.ofBits_bits k) (Component.ofBits_bits m))
  | _ => rfl

/-- Settles O1: the encoding's fields are the command's, which are well formed and name it. -/
theorem decodeEncodeRoundTrip : Obligations.DecodeEncodeRoundTrip := by
  intro i
  obtain ⟨hwf, hfields⟩ := fieldsWellFormed i
  have hwf : i.fields.wellFormed = true := hwf
  simp only [decode, hfields, hwf, i.command_fields]

/-- Settles O2: both words have the fields of the command, and a word is its fields. -/
theorem encodeDecodeRoundTrip : Obligations.EncodeDecodeRoundTrip := fun w i h =>
  CmdFields.ofWord_injective ((fieldsWellFormed i).2.trans (ofWord_of_decode w i h).symm)

/-! Words that select no row of the table (rules R73, R74). -/

theorem Instr.exists_row (i : Instr) : ∃ row ∈ opcodeTable, i.mnemonic = row.1 := by
  cases i <;> simp [opcodeTable, Instr.mnemonic]

/-- A word that agrees with no row of the table decodes to no command. -/
theorem exists_decode_illegal {w : Word} (h : ∀ row ∈ opcodeTable, w &&& row.2.2 ≠ row.2.1) :
    ∃ e, decode w = .illegal e := by
  cases hw : decode w with
  | illegal e => exact ⟨e, rfl⟩
  | command i =>
    obtain ⟨row, hrow, hname⟩ := i.exists_row
    exact absurd ((agrees_row_iff_decode w hrow).mpr ⟨i, hw, hname⟩) (h row hrow)

/-- No row of the table has a reserved opcode (rule R72). -/
theorem not_agrees_row_of_reserved {w : Word} (h : 0xB ≤ (w.extractLsb' 0 4).toNat) :
    ∀ row ∈ opcodeTable, w &&& row.2.2 ≠ row.2.1 := by
  intro row hrow hagree
  have hop : w.extractLsb' 0 4 = (CmdFields.ofWord row.2.1).op := ((agrees_row_iff w hrow).mp hagree).2
  have hdefined := (opcodeTable_row row hrow).1
  rw [hop] at h
  omega

end Sys2Proof
end

section
/-! The steps of CMD writes, of the idle core and of the reset event (rules R63, R74, R78, R80, R163, R165). -/

namespace Sys2Proof.Machine

open Safety

/-- The step of a CMD write (rule R80). -/
theorem step_command {s : State} {rest : List HostEvent} {w : Word} (hb : s.status.busy = false)
    (hp : s.pending = .write 32 0x00000 w :: rest) : step s = runCommand w (s.taken rest) := by
  have hbus : busDecode s.cfg 32 0#20 = .ok .cmd := busDecode_addr (r := .cmd) trivial rfl
  simp [step, hp, hbus, State.busyRefuses_of_idle hb]

theorem runCommand_of_command {w : Word} {i : Instr} (h : decode w = .command i) (s : State) :
    runCommand w s = .next (after i s) := by
  rw [runCommand, h]
  exact exec_next i s

theorem runCommand_of_illegal {w : Word} {e : Illegal} (h : decode w = .illegal e) (s : State) :
    runCommand w s = .next (raiseFault .illegalCmd s) := by
  rw [runCommand, h]
  rfl

/-- Settles O7: the step is `runCommand`, and the word that `withFetchWord` places is `w` itself, since it has 32 bits. -/
theorem stepRunsDecodedCommand : Obligations.StepRunsDecodedCommand := by
  refine ⟨fun s rest w i hp hb hw => ?step, fun s w => ?place⟩
  case step =>
    rw [step_command hb hp, runCommand_of_command hw, ← exec_next]
    rfl
  case place =>
    have hword : BitVec.ofNat 32 (w.toNat % 2 ^ 32) = w := by
      rw [Nat.mod_eq_of_lt w.isLt, BitVec.ofNat_toNat, BitVec.setWidth_eq]
    rw [State.withFetchWord, hword]

/-- Settles O8: such a word is illegal, so its step raises ILLEGAL_CMD with nothing changed in the units. -/
theorem illegalWordStep : Obligations.IllegalWordStep := by
  refine ⟨fun s rest w hp hb hno => ?_, fun w => not_agrees_row_of_reserved⟩
  obtain ⟨e, he⟩ := exists_decode_illegal hno
  have hidle : (s.taken rest).status.busy = false := hb
  rw [step_command hb hp, runCommand_of_illegal he, raiseFault, Status.raised_of_not_busy hidle]
  rfl

/-- Settles O9: with nothing pending `step` answers the state itself; after a reset event both units and STATUS are reset. -/
theorem idleAndResetSteps : Obligations.IdleAndResetSteps := by
  refine ⟨fun s hp => ?idle, fun s rest hp => ?reset⟩
  case idle => rw [step, hp]
  case reset =>
    exact ⟨s.resetEvent rest, step_reset hp, resetValues_of_reset rfl rfl rfl, rfl, rfl, rfl, rfl, rfl⟩

/-! No command looks at the host's pending accesses or at the bus data (rules R44, R63). -/

theorem endEnc_taken (s : State) (rest : List HostEvent) (x : Res EncUnit Unit) :
    endEnc (s.taken rest) x = (endEnc s x).taken rest := by
  cases x <;> rfl

theorem endDec_taken (s : State) (rest : List HostEvent) (x : Res DecUnit Unit) :
    endDec (s.taken rest) x = (endDec s x).taken rest := by
  cases x <;> rfl

theorem noteBin_taken (s : State) (rest : List HostEvent) (x : Res DecUnit Bool) :
    noteBin x (s.taken rest) = (noteBin x s).taken rest := by
  cases x <;> rfl

/-- A guarded command, where its procedure does not look at them. -/
theorem guarded_taken (c : Bool) (e : ErrCode) {s s' t : State} {rest : List HostEvent} (h : s' = t.taken rest) :
    (if c then s' else raiseFault e (s.taken rest)) = (if c then t else raiseFault e s).taken rest := by
  cases c
  · rfl
  · exact h

theorem after_taken (i : Instr) (s : State) (rest : List HostEvent) :
    after i (s.taken rest) = (after i s).taken rest := by
  cases i with
  | nop | encCtxReset | decCtxReset | encStart => rfl
  | encBin c b =>
    rw [after_encBin, after_encBin]
    exact guarded_taken _ _ (endEnc_taken s rest _)
  | encFinish =>
    rw [after_encFinish, after_encFinish]
    exact guarded_taken _ _ (endEnc_taken s rest _)
  | encBlock blk comp =>
    rw [after_encBlock, after_encBlock]
    exact endEnc_taken s rest _
  | decLoad =>
    rw [after_decLoad, after_decLoad]
    exact endDec_taken s rest _
  | decStart =>
    rw [after_decStart, after_decStart]
    exact guarded_taken _ _ (endDec_taken s rest _)
  | decBin c =>
    rw [after_decBin, after_decBin, noteBin_taken]
    exact guarded_taken _ _ (endDec_taken _ rest _)
  | decBlock blk comp =>
    rw [after_decBlock, after_decBlock]
    exact guarded_taken _ _ (endDec_taken s rest _)

end Sys2Proof.Machine
end

section
/-! How every command ends (rules R41, R44, R80, R149 to R155): BUSY, ERR, FAULT and BIN, and the fields of the state that no
command writes. -/

namespace Sys2Proof.Machine

open Safety

/-- The errors that a command may raise (rules R149, R151). -/
def commandErrors : Instr → List ErrCode
  | .nop | .encCtxReset | .decCtxReset | .encStart => []
  | .encBin _ _ => [.notStarted, .zeroWidth, .outOverflow]
  | .encFinish => [.notStarted, .outOverflow]
  | .encBlock _ _ => [.zeroWidth, .outOverflow]
  | .decLoad => [.shortStream, .badLen]
  | .decStart => [.notReady, .streamInvalid]
  | .decBin _ => [.notReady, .zeroWidth]
  | .decBlock _ _ => [.notReady, .streamInvalid, .levelRange, .zeroWidth]

theorem ok_not_mem_errors (i : Instr) : ErrCode.ok ∉ commandErrors i := by
  cases i <;> simp [commandErrors]

/-- A command took `s` to `t`, raising at most the errors of `es`: STATUS tells the outcome, and the parameters and the
host's fields are kept. -/
structure State.Ended (es : List ErrCode) (s t : State) : Prop where
  busy : t.status.busy = false
  outcome : (t.status.err = .ok ∧ t.status.fault = s.status.fault) ∨ (t.status.err ∈ es ∧ t.status.fault = true)
  cfg : t.cfg = s.cfg
  pending : t.pending = s.pending
  rdata : t.rdata = s.rdata

/-- The procedure raises errors of `es` alone. -/
abbrev RaisesIn {σ α : Type} (es : List ErrCode) (x : Res σ α) : Prop := x.Sat (fun _ => True) fun e _ => e ∈ es

theorem raisesIn_of {σ α : Type} {es : List ErrCode} {x : Res σ α} (h : ∀ e u, x = .raised e u → e ∈ es) :
    RaisesIn es x := by
  cases x with
  | ok a u => trivial
  | raised e u => exact h e u rfl

theorem RaisesIn.bind {σ α β : Type} {es : List ErrCode} {x : Res σ α} {f : α → σ → Res σ β} (hx : RaisesIn es x)
    (hf : ∀ a u, RaisesIn es (f a u)) : RaisesIn es (x.bind f) :=
  Res.Sat.bind hx fun a u _ => hf a u

section

variable {es : List ErrCode} {s : State}

theorem raiseFault_ended {e : ErrCode} (he : e ∈ es) : s.Ended es (raiseFault e s) :=
  ⟨rfl, .inr ⟨he, rfl⟩, rfl, rfl, rfl⟩

theorem endEnc_ended {x : Res EncUnit Unit} (hx : RaisesIn es x) : s.Ended es (endEnc s x) := by
  cases x with
  | ok _ u => exact ⟨rfl, .inl ⟨rfl, rfl⟩, rfl, rfl, rfl⟩
  | raised e u => exact ⟨rfl, .inr ⟨hx, rfl⟩, rfl, rfl, rfl⟩

theorem endDec_ended {x : Res DecUnit Unit} (hx : RaisesIn es x) : s.Ended es (endDec s x) := by
  cases x with
  | ok _ u => exact ⟨rfl, .inl ⟨rfl, rfl⟩, rfl, rfl, rfl⟩
  | raised e u => exact ⟨rfl, .inr ⟨hx, rfl⟩, rfl, rfl, rfl⟩

/-- A guarded command either runs or raises the error of its guard. -/
theorem guarded_ended {c : Bool} {e : ErrCode} {t : State} (he : e ∈ es) (ht : s.Ended es t) :
    s.Ended es (if c then t else raiseFault e s) := by
  split
  · exact ht
  · exact raiseFault_ended he

end

theorem prime_raisesIn (u : DecUnit) : RaisesIn [.streamInvalid] (prime u) := by
  rcases prime_cases u with ⟨-, h⟩ | ⟨-, h⟩ <;> rw [h]
  · trivial
  · exact List.mem_singleton_self _

theorem loadStream_raisesIn (cfg : Config) (u : DecUnit) : RaisesIn [.shortStream, .badLen] (loadStream cfg u) := by
  unfold loadStream
  split
  · simp [Res.Sat]
  · split <;> simp [Res.Sat]

theorem encodeBlock_raisesIn (cfg : Config) (blk : BlkType) (u : EncUnit) :
    RaisesIn [.zeroWidth, .outOverflow] (encodeBlock cfg blk u) := by
  refine RaisesIn.bind (raisesIn_of fun e v h => ?bins) fun _ v =>
    RaisesIn.bind (raisesIn_of fun e w h => ?term) fun _ _ => trivial
  case bins => rcases encodeBins_raised h with rfl | rfl <;> simp
  case term => simp [terminate_raised h]

theorem decodeBlock_raisesIn (cfg : Config) (blk : BlkType) (u : DecUnit) :
    RaisesIn [.streamInvalid, .levelRange, .zeroWidth] (decodeBlock cfg blk u) := by
  have hprime : RaisesIn [.streamInvalid, .levelRange, .zeroWidth] (prime u) :=
    (prime_raisesIn u).imp (fun _ h => h) fun e v h => by simp_all
  refine hprime.bind fun _ v => RaisesIn.bind (raisesIn_of fun e w h => ?_) fun _ _ => trivial
  rcases decodeBlockSyntax_raised h with rfl | rfl <;> simp

/-- Noting a bin in BIN changes nothing that an ended command is held to (rule R116). -/
theorem State.Ended.of_noteBin {es : List ErrCode} {s t : State} {x : Res DecUnit Bool}
    (h : (noteBin x s).Ended es t) : s.Ended es t := by
  cases x with
  | ok b u => exact ⟨h.busy, h.outcome, h.cfg, h.pending, h.rdata⟩
  | raised e u => exact h

/-- Every command ends in STATUS with its outcome (rules R80, R149, R152, R153). -/
theorem after_ended (i : Instr) (s : State) : s.Ended (commandErrors i) (after i s) := by
  cases i with
  | nop | encCtxReset | decCtxReset | encStart => exact ⟨rfl, .inl ⟨rfl, rfl⟩, rfl, rfl, rfl⟩
  | encBin c b =>
    rw [after_encBin]
    refine guarded_ended (by simp [commandErrors]) (endEnc_ended (raisesIn_of fun e v h => ?_))
    rcases encodeBin_raised h with rfl | rfl <;> simp [commandErrors]
  | encFinish =>
    rw [after_encFinish]
    refine guarded_ended (by simp [commandErrors]) (endEnc_ended ?_)
    exact RaisesIn.bind (raisesIn_of fun e v h => by simp [terminate_raised h, commandErrors]) fun _ _ => trivial
  | encBlock blk comp =>
    rw [after_encBlock]
    exact endEnc_ended (encodeBlock_raisesIn s.cfg blk s.enc)
  | decLoad =>
    rw [after_decLoad]
    exact endDec_ended (loadStream_raisesIn s.cfg s.dec)
  | decStart =>
    rw [after_decStart]
    refine guarded_ended (by simp [commandErrors]) (endDec_ended ?_)
    exact (prime_raisesIn s.dec).imp (fun _ h => h) fun e v h => List.mem_cons_of_mem _ h
  | decBin c =>
    rw [after_decBin]
    refine guarded_ended (by simp [commandErrors]) (State.Ended.of_noteBin (endDec_ended ?_))
    exact RaisesIn.bind (raisesIn_of fun e v h => by simp [decodeBin_raised h, commandErrors]) fun _ _ => trivial
  | decBlock blk comp =>
    rw [after_decBlock]
    refine guarded_ended (by simp [commandErrors]) (endDec_ended ?_)
    exact (decodeBlock_raisesIn s.cfg blk s.dec).imp (fun _ h => h) fun e v h => List.mem_cons_of_mem _ h

/-- Settles O22: the errors of `after_ended`, command by command. -/
theorem errorsOfEachCommand : Obligations.ErrorsOfEachCommand := by
  intro i s t ht
  obtain rfl : after i s = t := Host.Outcome.next.inj ((exec_next i s).symm.trans ht)
  have herr : (after i s).status.err ∈ .ok :: commandErrors i := by
    rcases (after_ended i s).outcome with ⟨hok, -⟩ | ⟨hmem, -⟩
    · exact hok ▸ List.mem_cons_self
    · exact List.mem_cons_of_mem _ hmem
  cases i with
  | nop | encCtxReset | decCtxReset | encStart => exact List.mem_singleton.mp herr
  | _ => exact herr

/-! BIN (rules R41, R116). -/

theorem endDec_bin (s : State) (x : Res DecUnit Unit) : (endDec s x).status.bin = s.status.bin := by
  cases x <;> rfl

theorem guarded_bin {c : Bool} {e : ErrCode} {s t : State} (h : t.status.bin = s.status.bin) :
    (if c then t else raiseFault e s).status.bin = s.status.bin := by
  split
  · exact h
  · rfl

/-- A DEC_BIN that raises leaves BIN. -/
theorem after_decBin_bin {c : Fin 32} {s : State} (h : (after (.decBin c) s).status.err ≠ .ok) :
    (after (.decBin c) s).status.bin = s.status.bin := by
  rw [after_decBin] at h ⊢
  cases hx : decodeBin s.cfg c s.dec with
  | ok b u =>
    rw [hx] at h
    split at h
    · exact absurd rfl h
    case isFalse hclosed => rw [if_neg hclosed, raiseFault_status, Status.raised_bin]
  | raised e u => exact guarded_bin rfl

/-- No other command writes BIN. -/
theorem after_bin {i : Instr} (hi : ∀ c, i ≠ .decBin c) (s : State) : (after i s).status.bin = s.status.bin := by
  cases i with
  | decBin c => exact absurd rfl (hi c)
  | nop | decCtxReset => rfl
  | encCtxReset | encStart | encBin _ _ | encFinish | encBlock _ _ => exact (after_encCommand_frame rfl s).2.2.1
  | decLoad =>
    rw [after_decLoad]
    exact endDec_bin s _
  | decStart =>
    rw [after_decStart]
    exact guarded_bin (endDec_bin s _)
  | decBlock blk comp =>
    rw [after_decBlock]
    exact guarded_bin (endDec_bin s _)

/-- Settles O20: every command ends as `after_ended` says, with no error of a command being OK, and BIN is DEC_BIN's. -/
theorem commandOutcomeStatus : Obligations.CommandOutcomeStatus := by
  intro i s
  obtain ⟨hbusy, hout, hcfg, hpending, hrdata⟩ := after_ended i s
  refine ⟨after i s, exec_next i s, hbusy, hout.imp_right ?error, fun hbin => ?bin, hcfg, hpending, hrdata⟩
  case error => exact fun ⟨hmem, hfault⟩ => ⟨fun hok => ok_not_mem_errors i (hok ▸ hmem), hfault⟩
  case bin =>
    by_cases hi : ∃ c, i = .decBin c
    · obtain ⟨c, rfl⟩ := hi
      exact ⟨⟨c, rfl⟩, by_contra fun herr => hbin (after_decBin_bin herr)⟩
    · exact absurd (after_bin (fun c hc => hi ⟨c, hc⟩) s) hbin

/-- Settles O11: the command leaves the STATUS read as the next access, and the read shows the STATUS it left. -/
theorem issueShowsTheOutcome : Obligations.IssueShowsTheOutcome := by
  intro s i rest hp hb
  have hp' : s.pending = .write 32 0x00000 (encode i) :: hostRead .status :: rest := hp
  have hcmd : step s = .next (after i (s.taken (hostRead .status :: rest))) := by
    rw [step_command hb hp', runCommand_of_command (decodeEncodeRoundTrip i)]
  rw [after_taken] at hcmd
  have hread := step_read (s := (after i s).taken (hostRead .status :: rest)) (r := .status) (rest := rest)
    (after_ended i s).busy trivial rfl rfl
  exact ⟨_, _, hcmd, hread, rfl⟩

end Sys2Proof.Machine
end

section
/-! The bus map (rules R48 to R50): which accesses are accepted and which are refused. -/

namespace Sys2Proof.Machine

open Safety

theorem mapped_of_mem_singleRegs (c : Config) {r : Reg} (h : r ∈ singleRegs) : mapped c r = true := by
  unfold singleRegs at h
  fin_cases h <;> rfl

/-- The index of a register file's entry at an aligned address of its window gives that address back. -/
theorem window_addr {a base n : Nat} (halign : a % 4 = 0) (hbase : base % 4 = 0) (hlo : base ≤ a)
    (hhi : a < base + 4 * n) : base + 4 * ((a - base) / 4 % n) = a := by
  have hlt : (a - base) / 4 < n := by omega
  rw [Nat.mod_eq_of_lt hlt]
  omega

/-- What the map finds at an aligned address is the mapped register of that address. -/
theorem Reg.eq_addr_of_atAddr {c : Config} {a : Nat} {r : Reg} (halign : a % 4 = 0) (h : Reg.atAddr c a = some r) :
    a = r.addr ∧ mapped c r = true := by
  unfold Reg.atAddr at h
  split at h
  · have haddr := List.find?_some h
    exact ⟨(beq_iff_eq.mp haddr).symm, mapped_of_mem_singleRegs c (List.mem_of_find?_eq_some h)⟩
  split at h
  · cases h
    exact ⟨(window_addr (n := 16) halign (by decide) (by omega) (by omega)).symm, rfl⟩
  split at h
  · cases h
    exact ⟨(window_addr (n := 16) halign (by decide) (by omega) (by omega)).symm, rfl⟩
  split at h
  · cases h
  split at h
  · cases h
    exact ⟨(window_addr (n := 32) halign (by decide) (by omega) (by omega)).symm, rfl⟩
  split at h
  · cases h
    exact ⟨(window_addr (n := 32) halign (by decide) (by omega) (by omega)).symm, rfl⟩
  split at h
  · cases h
  split at h
  · split at h
    case isTrue hcap =>
      cases h
      exact ⟨by simp only [Reg.addr]; omega, decide_eq_true hcap⟩
    case isFalse => cases h
  split at h
  · split at h
    case isTrue hcap =>
      cases h
      exact ⟨by simp only [Reg.addr]; omega, decide_eq_true hcap⟩
    case isFalse => cases h
  · cases h

/-- What the bus does with an access: it refuses the width, the alignment or the address, or reaches the register there
(rules R48, R49). -/
theorem busDecode_of_width {c : Config} {bits : Nat} {a : Addr} (h : bits ≠ 32) :
    busDecode c bits a = .error (.accessWidth bits) := if_pos h

theorem busDecode_of_misaligned {c : Config} {a : Addr} (h : a.toNat % 4 ≠ 0) :
    busDecode c 32 a = .error (.misalignedAddress a) := by
  simp [busDecode, h]

theorem busDecode_of_unmapped {c : Config} {a : Addr} (halign : a.toNat % 4 = 0) (h : Reg.atAddr c a.toNat = none) :
    busDecode c 32 a = .error (.unmappedAddress a) := by
  simp [busDecode, halign, h]

theorem busDecode_ok {c : Config} {bits : Nat} {a : Addr} {r : Reg} (h : busDecode c bits a = .ok r) :
    bits = 32 ∧ a.toNat = r.addr ∧ mapped c r = true := by
  by_cases hbits : bits = 32
  · subst hbits
    by_cases halign : a.toNat % 4 = 0
    · cases hr : Reg.atAddr c a.toNat with
      | none =>
        rw [busDecode_of_unmapped halign hr] at h
        cases h
      | some r' =>
        have hok : busDecode c 32 a = .ok r' := by simp [busDecode, halign, hr]
        cases hok.symm.trans h
        exact ⟨rfl, Reg.eq_addr_of_atAddr halign hr⟩
    · rw [busDecode_of_misaligned halign] at h
      cases h
  · rw [busDecode_of_width hbits] at h
    cases h

/-- Settles O12: each mapped register is found at its address, and what the map finds at an address is the register of that
address. -/
theorem busMapRoundTrip : Obligations.BusMapRoundTrip := by
  refine ⟨fun c r hc hm => ?_, fun c bits a r => busDecode_ok⟩
  have hw : r.InWindow := Reg.inWindow_of_mapped hc hm
  exact ⟨busDecode_addr hw hm, Reg.addr_lt hw, r.addr_aligned⟩

/-- The step of an access that the bus refuses (log entry 4). -/
theorem step_refused {s : State} {ev : HostEvent} {rest : List HostEvent} {bits : Nat} {a : Addr} {e : Fault}
    (hev : ev = .read bits a ∨ ∃ w, ev = .write bits a w) (hp : s.pending = ev :: rest)
    (h : busDecode s.cfg bits a = .error e) : step s = .fault e := by
  obtain rfl | ⟨w, rfl⟩ := hev
  · rw [step, hp]
    simp only [h]
  · rw [step, hp]
    simp only [h]

/-- Settles O13: the width is tested first, then the alignment, then the map; an index from the capacity up is inside its
buffer's window and not mapped. -/
theorem busRefusals : Obligations.BusRefusals := by
  intro s ev rest bits a hev hp
  refine ⟨fun hbits => ?width, ?_⟩
  case width => exact step_refused hev hp (busDecode_of_width hbits)
  refine ⟨fun hbits hmis => ?misaligned, fun hbits halign hno => ?unmapped, fun hbits i hcap hi ha => ?outBuf,
    fun hbits i hcap hi ha => ?inBuf⟩
  all_goals subst hbits
  case misaligned => exact step_refused hev hp (busDecode_of_misaligned hmis)
  case unmapped =>
    have hnone : Reg.atAddr s.cfg a.toNat = none := Option.eq_none_iff_forall_ne_some.mpr fun r hr => by
      obtain ⟨haddr, hm⟩ := Reg.eq_addr_of_atAddr halign hr
      exact hno r hm haddr.symm
    exact step_refused hev hp (busDecode_of_unmapped halign hnone)
  case outBuf =>
    have hnone : Reg.atAddr s.cfg a.toNat = none := by
      rw [Reg.atAddr_outWindow (by omega) (by omega), if_neg (by omega)]
    exact step_refused hev hp (busDecode_of_unmapped (by omega) hnone)
  case inBuf =>
    have hnone : Reg.atAddr s.cfg a.toNat = none := by
      rw [Reg.atAddr_inWindow (by omega) (by omega), if_neg (by omega)]
    exact step_refused hev hp (busDecode_of_unmapped (by omega) hnone)

end Sys2Proof.Machine
end

section
/-! The words that reads return (rules R41, R50, R55, R151). -/

namespace Sys2Proof.Machine

/-- Two fields side by side as a number. -/
theorem toNat_append_fields {m n : Nat} (high : BitVec m) (low : BitVec n) :
    (high ++ low).toNat = low.toNat + 2 ^ n * high.toNat := by
  rw [BitVec.toNat_append, ← Nat.shiftLeft_add_eq_or_of_lt low.isLt, Nat.shiftLeft_eq, Nat.mul_comm, Nat.add_comm]

/-- Settles O16: each field is zero-extended; the two pairs of fields are read side by side. -/
theorem registerReadWords : Obligations.RegisterReadWords := by
  intro s
  have hzext {n : Nat} (x : BitVec n) (hn : n ≤ 32) : (x.setWidth 32).toNat = x.toNat :=
    BitVec.toNat_setWidth_of_le hn
  refine ⟨hzext _ (by decide), hzext _ (by decide), rfl, hzext _ (by decide), hzext _ (by decide), hzext _ (by decide),
    hzext _ (by decide), ?pending, hzext _ (by decide), hzext _ (by decide), hzext _ (by decide), ?reservoir,
    fun i => hzext _ (by decide)⟩
  case pending =>
    rw [State.readReg, hzext _ (by decide), toNat_append_fields, BitVec.toNat_ofBool]
    rfl
  case reservoir =>
    rw [State.readReg, hzext _ (by decide), toNat_append_fields]
    rfl

/-- A flag of the STATUS word stands in its own bit alone (rule R41). -/
theorem getLsbD_flag (b : Bool) {k : Nat} (hk : k < 32) (i : Nat) :
    ((BitVec.ofBool b).setWidth 32 <<< k).getLsbD i = (decide (i = k) && b) := by
  have hbit (j : Nat) : ((BitVec.ofBool b).setWidth 32).getLsbD j = (decide (j = 0) && b) := by
    rw [BitVec.getLsbD_setWidth, BitVec.getLsbD_ofBool]
    by_cases hj : j = 0
    · subst hj; rfl
    · simp [hj]
  rw [BitVec.getLsbD_shiftLeft, hbit]
  by_cases hi : i = k
  · subst hi
    simp [hk]
  · by_cases hlt : i < k
    · simp [hi, hlt]
    · have hne : i - k ≠ 0 := by omega
      simp [hi, hne]

/-- Every bit of the STATUS word (rule R41). -/
theorem State.statusWord_getLsbD (s : State) (i : Nat) : s.statusWord.getLsbD i =
    ((decide (i = 0) && s.status.busy) || (decide (i = 1) && s.enc.active) || (decide (i = 2) && s.dec.ready) ||
      (decide (i = 3) && s.dec.active) || (decide (i = 4) && s.status.bin) || (decide (i = 5) && s.status.fault) ||
      (decide (8 ≤ i ∧ i < 32) && s.status.err.code.getLsbD (i - 8))) := by
  have hbusy := getLsbD_flag s.status.busy (k := 0) (by decide) i
  rw [BitVec.shiftLeft_zero] at hbusy
  simp only [State.statusWord, BitVec.getLsbD_or, hbusy, getLsbD_flag _ (show 1 < 32 by decide),
    getLsbD_flag _ (show 2 < 32 by decide), getLsbD_flag _ (show 3 < 32 by decide), getLsbD_flag _ (show 4 < 32 by decide),
    getLsbD_flag _ (show 5 < 32 by decide), BitVec.getLsbD_shiftLeft, BitVec.getLsbD_setWidth]
  have hcode : (decide (i < 32) && !decide (i < 8) && (decide (i - 8 < 32) && s.status.err.code.getLsbD (i - 8))) =
      (decide (8 ≤ i ∧ i < 32) && s.status.err.code.getLsbD (i - 8)) := by
    have hlt : i < 32 → i - 8 < 32 := by omega
    by_cases hlo : 8 ≤ i <;> by_cases hhi : i < 32 <;> simp [hlo, hhi, hlt, Nat.not_lt.mpr, Nat.lt_of_not_le]
  rw [hcode]

/-- Settles O15: `State.statusWord_getLsbD` at each bit; the fields of several bits bit by bit. -/
theorem statusWordLayout : Obligations.StatusWordLayout := by
  refine ⟨fun s => ⟨rfl, ?_, ?_, ?_, ?_, ?_, ?_, ?zeros, ?code, ?above⟩, rfl, rfl, rfl, rfl, rfl, rfl, rfl, rfl, rfl, rfl, rfl⟩
  case zeros =>
    refine BitVec.eq_of_getLsbD_eq fun i hi => ?_
    rw [BitVec.getLsbD_extractLsb', State.statusWord_getLsbD]
    interval_cases i <;> simp
  case code =>
    refine BitVec.eq_of_getLsbD_eq fun i hi => ?_
    rw [BitVec.getLsbD_extractLsb', State.statusWord_getLsbD]
    interval_cases i <;> simp
  case above =>
    refine BitVec.eq_of_getLsbD_eq fun i hi => ?_
    have hcode : s.status.err.code.getLsbD (12 + i - 8) = false := BitVec.getLsbD_of_ge _ _ (by omega)
    rw [BitVec.getLsbD_extractLsb', State.statusWord_getLsbD, hcode]
    simp
    omega
  all_goals
    rw [State.statusWord_getLsbD]
    simp

end Sys2Proof.Machine
end

section
/-! The width split (rules R10, R93) and ZERO_WIDTH: which tables and ranges raise it, and what it leaves (rules R149,
R151). -/

namespace Sys2Proof.Machine

open Safety

/-- A split raises ZERO_WIDTH exactly where one of rule R93's widths is 0. -/
theorem widths_eq_none_iff {cfg : Config} {r : BitVec 9} {e : Ctx} :
    widths cfg r e.state = none ↔ lpsWidth cfg r e = 0 ∨ mpsWidth cfg r e = 0 := by
  simp only [widths, Nat.shiftRight_eq_div_pow, mpsWidth, lpsWidth]
  split
  case isTrue h => exact iff_of_true rfl h
  case isFalse h => exact iff_of_false (Option.some_ne_none _) h

/-- Settles O27: the formula is `widths_legal`'s, its parts are not empty by `widths_some`, and `none` is a zero part. -/
theorem widthSplit : Obligations.WidthSplit := by
  refine ⟨fun cfg r st hlegal hlo hhi => ?legal, fun cfg r st => widths_eq_none_iff (e := ⟨false, st⟩)⟩
  have hw := widths_legal (hlegal.1 st.toFin) hlo
  obtain ⟨-, hsum, hlps, hmps⟩ := widths_some hw
  exact ⟨_, _, hw, rfl, rfl, hlps, by omega, hmps, by omega⟩

theorem widths_ne_none_of_legal {cfg : Config} (hlegal : cfg.Legal) {r : BitVec 9} (hr : 256 ≤ r.toNat) (e : Ctx) :
    widths cfg r e.state ≠ none := by
  rw [widths_eq_lpsWidth (hlegal.1 _) hr]
  exact Option.some_ne_none _

/-! The encoder under legal tables. -/

/-- An open session of a state that keeps the invariant is ready for its next bin. -/
theorem EncUnit.Ready.of_encOk {cfg : Config} {u : EncUnit} (h : EncOk cfg u) (ha : u.active = true) : u.Ready cfg := by
  obtain ⟨⟨hlo, hhi⟩, htrack⟩ := h.track ha
  exact ⟨htrack, hlo, hhi, h.loose.2⟩

/-- Under legal tables a bin of a ready session leaves it ready, or raises OUT_OVERFLOW (rules R93, R99). -/
theorem encodeBin_sat_of_legal {cfg : Config} (hlegal : cfg.Legal) {u : EncUnit} (hu : u.Ready cfg) (b : Bool)
    (c : Fin 32) : (encodeBin cfg b c u).Sat (fun v => v.Ready cfg) fun e _ => e = .outOverflow := by
  rcases encodeBin_cases cfg b c u hu.track hu.lo hu.hi hu.stored hlegal.2.2.2.1.2 with
    ⟨hzero, -⟩ | ⟨k, v, hok, hv⟩ | ⟨v, hfull, -⟩
  · exact absurd hzero (widths_ne_none_of_legal hlegal hu.lo _)
  · rw [hok]; exact hv.ready
  · rw [hfull]; exact rfl

theorem encodeBins_sat_of_legal {cfg : Config} (hlegal : cfg.Legal) (bins : List (Bool × Fin 32)) {u : EncUnit}
    (hu : u.Ready cfg) : (encodeBins cfg bins u).Sat (fun v => v.Ready cfg) fun e _ => e = .outOverflow := by
  induction bins generalizing u with
  | nil => exact hu
  | cons p bins ih => exact (encodeBin_sat_of_legal hlegal hu p.1 p.2).bind fun _ v hv => ih hv

/-! The decoder under legal tables. -/

/-- What the arithmetic decoder needs to take a bin (rules R119, R120). -/
structure DecUnit.InRange (u : DecUnit) : Prop where
  lo : 256 ≤ u.r.toNat
  hi : u.r.toNat ≤ 510
  code_lt : u.code.toNat < u.r.toNat

theorem DecUnit.Binned.inRange {cfg : Config} {c : Fin 32} {b : Bool} {k : Nat} {u v : DecUnit}
    (h : DecUnit.Binned cfg c b k u v) : v.InRange := ⟨h.range_lo, h.range_hi, h.code_lt⟩

/-- Under legal tables a bin always goes through (rules R93, R112). -/
theorem decodeBin_of_legal {cfg : Config} (hlegal : cfg.Legal) {u : DecUnit} (hu : u.InRange) (c : Fin 32) :
    ∃ b k v, decodeBin cfg c u = .ok b v ∧ DecUnit.Binned cfg c b k u v := by
  rcases decodeBin_cases cfg c u hu.hi hu.code_lt with ⟨hzero, -⟩ | hok
  · exact absurd hzero (widths_ne_none_of_legal hlegal hu.lo _)
  · exact hok

theorem decodeBin_sat_of_legal {cfg : Config} (hlegal : cfg.Legal) {u : DecUnit} (hu : u.InRange) (c : Fin 32) :
    (decodeBin cfg c u).Sat DecUnit.InRange fun e _ => e = .levelRange := by
  obtain ⟨b, k, v, hok, hv⟩ := decodeBin_of_legal hlegal hu c
  rw [hok]
  exact hv.inRange

/-- A valid priming leaves the offset below the range (rules R111, R120). -/
theorem DecUnit.InRange.of_prime {u v : DecUnit} {a : Unit} (h : prime u = .ok a v) : v.InRange := by
  rcases prime_cases u with ⟨hcode, hok⟩ | ⟨-, hraised⟩
  · rw [hok] at h
    cases h
    have hc : (BitVec.ofNat 9 u.primeCode).toNat = u.primeCode := Nat.mod_eq_of_lt u.primeCode_lt
    rw [u.primeRegs_eq]
    exact ⟨show 256 ≤ (510 : BitVec 9).toNat by decide, show (510 : BitVec 9).toNat ≤ 510 by decide, by rw [hc]; exact hcode⟩
  · rw [hraised] at h
    cases h

/-- Under legal tables the block syntax raises LEVEL_RANGE alone (rules R93, R133). -/
theorem decodeBlock_sat_of_legal {cfg : Config} (hlegal : cfg.Legal) (blk : BlkType) (u : DecUnit) :
    (decodeBlock cfg blk u).Sat DecUnit.InRange fun e _ => e = .streamInvalid ∨ e = .levelRange := by
  have hprime : (prime u).Sat DecUnit.InRange fun e _ => e = .streamInvalid ∨ e = .levelRange := by
    cases h : prime u with
    | ok a v => exact DecUnit.InRange.of_prime h
    | raised e v =>
      have hmem := prime_raisesIn u
      rw [h] at hmem
      exact .inl (List.mem_singleton.mp hmem)
  refine hprime.bind fun _ v hv => Res.Sat.bind (p := DecUnit.InRange) ?_ fun _ _ hw => ⟨hw.lo, hw.hi, hw.code_lt⟩
  exact (decodeBlockSyntax_sat (fun c _ w hw => decodeBin_sat_of_legal hlegal hw c) (fun _ _ => rfl) v hv).imp
    (fun _ h => h) fun _ _ h => .inr h

/-! No command raises ZERO_WIDTH under legal tables. -/

theorem endEnc_err_ne {e : ErrCode} (he : e ≠ .ok) (s : State) {x : Res EncUnit Unit}
    (hx : x.Sat (fun _ => True) fun e' _ => e' ≠ e) : (endEnc s x).status.err ≠ e := by
  cases x with
  | ok _ u => exact he.symm
  | raised e' u => exact hx

theorem endDec_err_ne {e : ErrCode} (he : e ≠ .ok) (s : State) {x : Res DecUnit Unit}
    (hx : x.Sat (fun _ => True) fun e' _ => e' ≠ e) : (endDec s x).status.err ≠ e := by
  cases x with
  | ok _ u => exact he.symm
  | raised e' u => exact hx

/-- The commands whose list of errors has no ZERO_WIDTH raise none, whatever the tables. -/
theorem after_err_ne_of_not_mem {e : ErrCode} (he : e ≠ .ok) {i : Instr} (hi : e ∉ commandErrors i) (s : State) :
    (after i s).status.err ≠ e := by
  rcases (after_ended i s).outcome with ⟨hok, -⟩ | ⟨hmem, -⟩
  · rw [hok]; exact he.symm
  · exact fun h => hi (h ▸ hmem)

theorem after_err_ne_zeroWidth {s : State} (hlegal : s.cfg.Legal) (hinv : Inv s) (i : Instr) :
    (after i s).status.err ≠ .zeroWidth := by
  obtain ⟨-, henc, hdec, -⟩ := hinv
  have hne : ErrCode.zeroWidth ≠ .ok := ErrCode.noConfusion
  cases i with
  | encBin c b =>
    rw [after_encBin]
    split
    case isTrue ha =>
      exact endEnc_err_ne hne s ((encodeBin_sat_of_legal hlegal (.of_encOk henc ha) b c).imp (fun _ _ => trivial)
        fun e _ he => by rw [he]; exact ErrCode.noConfusion)
    case isFalse => exact ErrCode.noConfusion
  | encBlock blk comp =>
    rw [after_encBlock]
    obtain ⟨hstart, -⟩ := s.enc.started_ready s.cfg henc.loose.2
    refine endEnc_err_ne hne s (Res.Sat.bind (p := fun _ => True) ?bins fun _ v _ =>
      Res.Sat.bind (p := fun _ => True) ?term fun _ _ _ => trivial)
    case bins =>
      exact (encodeBins_sat_of_legal hlegal _ hstart).imp (fun _ _ => trivial)
        fun e _ he => by rw [he]; exact ErrCode.noConfusion
    case term =>
      exact (raisesIn_of (es := [.outOverflow]) fun e w h => List.mem_singleton.mpr (terminate_raised h)).imp
        (fun _ _ => trivial) fun e _ he => by rw [List.mem_singleton.mp he]; exact ErrCode.noConfusion
  | decBin c =>
    rw [after_decBin]
    split
    case isTrue ha =>
      obtain ⟨⟨hlo, hhi⟩, hlt⟩ := hdec.1 ha
      obtain ⟨b, k, v, hok, -⟩ := decodeBin_of_legal hlegal ⟨hlo, hhi, hlt⟩ c
      rw [hok]
      exact ErrCode.noConfusion
    case isFalse => exact ErrCode.noConfusion
  | decBlock blk comp =>
    rw [after_decBlock]
    split
    case isTrue =>
      exact endDec_err_ne hne s ((decodeBlock_sat_of_legal hlegal blk s.dec).imp (fun _ _ => trivial)
        fun e _ he => by rcases he with rfl | rfl <;> exact ErrCode.noConfusion)
    case isFalse => exact ErrCode.noConfusion
  | _ => exact after_err_ne_of_not_mem hne (by simp [commandErrors]) s

/-- Settles O23: the invariant gives every bin a range of at least 256, which legal tables split into two parts. -/
theorem legalTablesNeverZeroWidth : Obligations.LegalTablesNeverZeroWidth := by
  intro i s t hlegal hinv ht
  obtain rfl : after i s = t := Host.Outcome.next.inj ((exec_next i s).symm.trans ht)
  exact after_err_ne_zeroWidth hlegal hinv i

/-! The decoder's guards and its zero width (rules R116, R147, R149). -/

/-- A zero width raises before anything of the bin is applied. -/
theorem decodeBin_of_zeroWidth {cfg : Config} {c : Fin 32} {u : DecUnit}
    (h : lpsWidth cfg u.r (u.ctx.get c) = 0 ∨ mpsWidth cfg u.r (u.ctx.get c) = 0) :
    decodeBin cfg c u = .raised .zeroWidth u := by
  rw [decodeBin, widths_eq_none_iff.mpr h]

theorem encodeBin_of_zeroWidth {cfg : Config} {b : Bool} {c : Fin 32} {u : EncUnit}
    (h : lpsWidth cfg u.r (u.ctx.get c) = 0 ∨ mpsWidth cfg u.r (u.ctx.get c) = 0) :
    encodeBin cfg b c u = .raised .zeroWidth u := by
  rw [encodeBin, widths_eq_none_iff.mpr h]

/-- Settles O45: the guards raise NOT_READY with nothing changed, and a zero width leaves the unit of `DecUnit.failed`. -/
theorem decBinFaults : Obligations.DecBinFaults := by
  refine ⟨fun s c ha => ?closed, fun s blk comp hr => ?noStream, fun s c ha hzero => ?zero⟩
  case closed => rw [exec_next, after_decBin, ha]; rfl
  case noStream => rw [exec_next, after_decBlock, hr]; rfl
  case zero => rw [exec_next, after_decBin, if_pos ha, decodeBin_of_zeroWidth hzero]; rfl

/-- Settles O55: no session and no block are open, the buffers are empty and the capacities are 65536. -/
theorem invariantAtReset : Obligations.InvariantAtReset := by
  refine ⟨by decide, ⟨Bool.noConfusion, Bool.noConfusion, ?produced, List.Pairwise.nil, List.forall_mem_nil _⟩,
    ⟨Bool.noConfusion, Bool.noConfusion, ?nres, ?len, Bool.noConfusion, List.Pairwise.nil, List.forall_mem_nil _⟩,
    rfl, ErrCode.noConfusion, fun h => absurd rfl h⟩
  all_goals decide

end Sys2Proof.Machine
end

section
/-! Which steps change a context entry (rules R92, R98): frames of the encoder's procedures, whatever their outcome and the
tables, then the commands, then the step. -/

namespace Sys2Proof.Machine

open Safety

/-! The encoder's procedures but for the bins leave the contexts, COEF_IN, ACTIVE and the draw. -/

/-- However the procedure ended, it left those of `u`. -/
abbrev LeavesRest {α : Type} (u : EncUnit) (x : Res EncUnit α) : Prop := x.All u.SameRest

theorem LeavesRest.bind {α β : Type} {u : EncUnit} {x : Res EncUnit α} {f : α → EncUnit → Res EncUnit β}
    (hx : LeavesRest u x) (hf : ∀ a v, LeavesRest v (f a v)) : LeavesRest u (x.bind f) := by
  refine Res.All.bind hx (fun a v hv => ?_) fun _ hv => hv
  have hfa := hf a v
  cases hr : f a v with
  | ok b w => rw [hr] at hfa; exact EncUnit.SameRest.trans hv hfa
  | raised e w => rw [hr] at hfa; exact EncUnit.SameRest.trans hv hfa

theorem shiftE_leavesRest (cfg : Config) (u : EncUnit) : LeavesRest u (shiftE cfg u) := by
  by_cases hc : u.cnt = 0
  · by_cases hp : u.produced < cfg.outCap
    · rw [shiftE_emits cfg u hc hp]
      exact ⟨u.resolve_ctx _, u.resolve_coefIn _, u.resolve_active _, u.resolve_outDraw _⟩
    · rw [shiftE_overflows cfg u hc (Nat.le_of_not_lt hp)]
      exact EncUnit.SameRest.refl u
  · rw [shiftE_quiet cfg u hc]
    exact EncUnit.SameRest.refl u

theorem renormE_leavesRest (cfg : Config) (n : Nat) (u : EncUnit) : LeavesRest u (renormE cfg n u) := by
  induction n generalizing u with
  | zero => exact EncUnit.SameRest.refl u
  | succ n ih =>
    unfold renormE
    split
    · exact LeavesRest.bind (u := u) (shiftE_leavesRest cfg { u with r := u.r <<< 1 }) fun _ v => ih v
    · exact EncUnit.SameRest.refl u

theorem shiftUntilEmit_leavesRest (cfg : Config) (n : Nat) (u : EncUnit) : LeavesRest u (shiftUntilEmit cfg n u) := by
  induction n generalizing u with
  | zero => exact EncUnit.SameRest.refl u
  | succ n ih =>
    refine (shiftE_leavesRest cfg u).bind fun emitted v => ?_
    split
    · exact EncUnit.SameRest.refl v
    · exact ih v

theorem flush_leavesRest (cfg : Config) (u : EncUnit) : LeavesRest u (u.flush cfg) := by
  unfold EncUnit.flush
  split
  · exact EncUnit.SameRest.refl u
  · split
    · rw [EncUnit.outRun_eq]; exact EncUnit.SameRest.refl u
    · exact EncUnit.SameRest.refl u

theorem terminate_leavesRest (cfg : Config) (u : EncUnit) : LeavesRest u (terminate cfg u) :=
  LeavesRest.bind (u := u) (renormE_leavesRest cfg renormTurns { u with r := Config.termRange }) fun _ v =>
    (shiftE_leavesRest cfg v).bind fun _ v => (shiftE_leavesRest cfg v).bind fun _ v =>
    (shiftUntilEmit_leavesRest cfg padTurns v).bind fun _ v => flush_leavesRest cfg v

/-! Entries outside the contexts of the bins. -/

/-- Entry `k` of the encoder's table holds `entry`. -/
def EncUnit.HoldsEntry (k : Fin 32) (entry : Ctx) (u : EncUnit) : Prop := u.ctx.get k = entry

/-- However the procedure ended, entry `k` of the encoder's table holds `entry`. -/
abbrev LeavesEncEntry {α : Type} (k : Fin 32) (entry : Ctx) (x : Res EncUnit α) : Prop :=
  x.All (EncUnit.HoldsEntry k entry)

theorem LeavesRest.leavesEncEntry {α : Type} {u : EncUnit} {x : Res EncUnit α} (hx : LeavesRest u x) {k : Fin 32}
    {entry : Ctx} (hu : u.HoldsEntry k entry) : LeavesEncEntry k entry x := by
  cases x with
  | ok a v => exact (congrArg (Vector.get · k) hx.1).trans hu
  | raised e v => exact (congrArg (Vector.get · k) hx.1).trans hu

section

variable (cfg : Config) {k : Fin 32} {entry : Ctx} {u : EncUnit} (hu : u.HoldsEntry k entry)

include hu

theorem encodeBin_leavesEncEntry (b : Bool) {c : Fin 32} (hc : k ≠ c) : LeavesEncEntry k entry (encodeBin cfg b c u) := by
  unfold encodeBin
  split
  · exact hu
  · refine (renormE_leavesRest cfg _ _).leavesEncEntry ?_
    rw [EncUnit.codeBin_eq]
    exact (CtxTable.get_put_ne _ _ _ _ hc).trans hu

theorem encodeBins_leavesEncEntry {bins : List (Bool × Fin 32)} (hbins : ∀ p ∈ bins, k ≠ p.2) :
    LeavesEncEntry k entry (encodeBins cfg bins u) := by
  induction bins generalizing u with
  | nil => exact hu
  | cons p bins ih =>
    obtain ⟨hp, hbins⟩ := List.forall_mem_cons.mp hbins
    exact Res.All.bind (encodeBin_leavesEncEntry cfg hu p.1 hp) (fun _ _ hv => ih hv hbins) fun _ hv => hv

theorem encodeBlock_leavesEncEntry (blk : BlkType) (hk : k ∉ syntaxContexts) :
    LeavesEncEntry k entry (encodeBlock cfg blk u) := by
  have hbins : ∀ p ∈ blockBins cfg blk u.coefIn, k ≠ p.2 := fun p hp =>
    (ne_of_mem_of_not_mem (blockBins_inSyntaxContexts cfg blk u.coefIn p hp) hk).symm
  refine Res.All.bind (encodeBins_leavesEncEntry cfg (u := u.started) hu hbins) (fun _ v hv => ?_) fun _ hv => hv
  exact Res.All.bind ((terminate_leavesRest cfg v).leavesEncEntry hv) (fun _ _ hw => hw) fun _ hw => hw

end

theorem endEnc_holdsEntry (s : State) {k : Fin 32} {entry : Ctx} {x : Res EncUnit Unit} (hx : LeavesEncEntry k entry x) :
    (endEnc s x).enc.HoldsEntry k entry := by
  cases x with
  | ok _ u => exact hx
  | raised e u => exact hx

/-! The commands that change an entry. -/

/-- The commands that may change entry `c` of CTX_E (rule R98). -/
def ChangesEncEntry (c : Fin 32) (i : Instr) : Prop :=
  i = .encCtxReset ∨ (∃ b, i = .encBin c b) ∨ ((∃ blk comp, i = .encBlock blk comp) ∧ c ∈ syntaxContexts)

/-- The commands that may change entry `c` of CTX_D (rule R98). -/
def ChangesDecEntry (c : Fin 32) (i : Instr) : Prop :=
  i = .decCtxReset ∨ i = .decBin c ∨ ((∃ blk comp, i = .decBlock blk comp) ∧ c ∈ syntaxContexts)

theorem guarded_enc_holdsEntry {guard : Bool} {e : ErrCode} {s t : State} {c : Fin 32}
    (h : t.enc.HoldsEntry c (s.enc.ctx.get c)) :
    (if guard then t else raiseFault e s).enc.HoldsEntry c (s.enc.ctx.get c) := by
  split
  · exact h
  · rfl

theorem guarded_dec_holdsEntry {guard : Bool} {e : ErrCode} {s t : State} {c : Fin 32}
    (h : t.dec.HoldsEntry c (s.dec.ctx.get c)) :
    (if guard then t else raiseFault e s).dec.HoldsEntry c (s.dec.ctx.get c) := by
  split
  · exact h
  · rfl

theorem after_keeps_encEntry {i : Instr} {c : Fin 32} (hi : ¬ ChangesEncEntry c i) (s : State) :
    (after i s).enc.HoldsEntry c (s.enc.ctx.get c) := by
  cases i with
  | nop | encStart => rfl
  | encCtxReset => exact absurd (.inl rfl) hi
  | encBin k b =>
    have hk : c ≠ k := fun h => hi (.inr (.inl ⟨b, by rw [h]⟩))
    rw [after_encBin]
    exact guarded_enc_holdsEntry (endEnc_holdsEntry s (encodeBin_leavesEncEntry s.cfg rfl b hk))
  | encFinish =>
    rw [after_encFinish]
    refine guarded_enc_holdsEntry (endEnc_holdsEntry s ?_)
    exact Res.All.bind ((terminate_leavesRest s.cfg s.enc).leavesEncEntry rfl) (fun _ _ hv => hv) fun _ hv => hv
  | encBlock blk comp =>
    have hc : c ∉ syntaxContexts := fun h => hi (.inr (.inr ⟨⟨blk, comp, rfl⟩, h⟩))
    rw [after_encBlock]
    exact endEnc_holdsEntry s (encodeBlock_leavesEncEntry s.cfg rfl blk hc)
  | decCtxReset | decLoad | decStart | decBin _ | decBlock _ _ =>
    exact congrArg (fun u : EncUnit => u.ctx.get c) (after_decCommand_frame rfl s).2.1

theorem loadStream_leavesEntry (cfg : Config) {k : Fin 32} {entry : Ctx} {u : DecUnit} (hu : u.HoldsEntry k entry) :
    LeavesEntry k entry (loadStream cfg u) := by
  unfold loadStream
  split
  · exact hu
  · split <;> exact hu

theorem after_keeps_decEntry {i : Instr} {c : Fin 32} (hi : ¬ ChangesDecEntry c i) (s : State) :
    (after i s).dec.HoldsEntry c (s.dec.ctx.get c) := by
  cases i with
  | nop => rfl
  | decCtxReset => exact absurd (.inl rfl) hi
  | decLoad =>
    rw [after_decLoad]
    exact endDec_holdsEntry s (loadStream_leavesEntry s.cfg rfl)
  | decStart =>
    rw [after_decStart]
    exact guarded_dec_holdsEntry (endDec_holdsEntry s (prime_leavesEntry rfl))
  | decBin k =>
    have hk : c ≠ k := fun h => hi (.inr (.inl (by rw [h])))
    rw [after_decBin]
    exact guarded_dec_holdsEntry
      (endDec_holdsEntry _ ((decodeBin_leavesEntry s.cfg hk rfl).bind fun _ _ hv => hv))
  | decBlock blk comp =>
    exact after_decBlock_ctx_get blk comp s fun h => hi (.inr (.inr ⟨⟨blk, comp, rfl⟩, h⟩))
  | encCtxReset | encStart | encBin _ _ | encFinish | encBlock _ _ =>
    exact congrArg (fun u : DecUnit => u.ctx.get c) (after_encCommand_frame rfl s).2.1

/-! The registers that a write changes an entry through. -/

theorem writeReg_keeps_encEntry {r : Reg} {c : Fin 32} (hr : r ≠ .ctxE c) (w : Word) (s : State) :
    (s.writeReg w r).enc.ctx.get c = s.enc.ctx.get c := by
  cases r with
  | ctxE k => exact CtxTable.get_put_ne _ _ _ _ fun h => hr (h ▸ rfl)
  | _ => rfl

theorem writeReg_keeps_decEntry {r : Reg} {c : Fin 32} (hr : r ≠ .ctxD c) (w : Word) (s : State) :
    (s.writeReg w r).dec.ctx.get c = s.dec.ctx.get c := by
  cases r with
  | ctxD k => exact CtxTable.get_put_ne _ _ _ _ fun h => hr (h ▸ rfl)
  | _ => rfl

/-- What a step that changes the state's units is: the reset event, a write to the register of an entry (or of another
register), or a command (rule R98). It holds of anything `f` shows of a state that reads and illegal words leave. -/
theorem step_changes {β : Type} {f : State → β} (hidle : ∀ s rest, f (State.taken s rest) = f s)
    (hread : ∀ s r, f (State.busRead s r) = f s) (hillegal : ∀ s, f (raiseFault .illegalCmd s) = f s) {s t : State}
    (hstep : step s = .next t) (hne : f t ≠ f s) :
    (∃ rest, s.pending = .reset :: rest) ∨
    ∃ a w rest, s.pending = .write 32 a w :: rest ∧
      ((∃ r, a.toNat = r.addr ∧ f ((s.taken rest).writeReg w r) ≠ f (s.taken rest)) ∨
        (a = 0x00000 ∧ ∃ i, decode w = .command i ∧ f (after i (s.taken rest)) ≠ f (s.taken rest))) := by
  obtain ⟨-, rfl⟩ | ⟨rest, hp, -⟩ | ⟨_, _, rest, r, -, -, -, rfl⟩ | ⟨bits, a, w, rest, r, hp, hbus, -, -, rfl⟩ |
    ⟨bits, a, w, rest, hp, hbus, -, hrun⟩ := step_cases hstep
  · exact absurd rfl hne
  · exact .inl ⟨rest, hp⟩
  · exact absurd ((hread _ r).trans (hidle s rest)) hne
  · obtain ⟨rfl, ha, -⟩ := busDecode_ok hbus
    exact .inr ⟨a, w, rest, hp, .inl ⟨r, ha, by rw [hidle]; exact hne⟩⟩
  · obtain ⟨rfl, ha, -⟩ := busDecode_ok hbus
    obtain ⟨i, hi, rfl⟩ | ⟨-, rfl⟩ := runCommand_cases hrun
    · exact .inr ⟨a, w, rest, hp, .inr ⟨BitVec.eq_of_toNat_eq ha, i, hi, by rw [hidle]; exact hne⟩⟩
    · exact absurd ((hillegal _).trans (hidle s rest)) hne

/-- Settles O29: of what a step can do to an entry, a register write goes to the entry's own register, and a command is one
of those that change it. -/
theorem contextsChangeOnlyByListedMeans : Obligations.ContextsChangeOnlyByListedMeans := by
  refine fun s t c hstep => ⟨fun hne => ?enc, fun hne => ?dec⟩
  case enc =>
    obtain hreset | ⟨a, w, rest, hp, ⟨r, ha, hreg⟩ | ⟨ha, i, hi, hcmd⟩⟩ :=
      step_changes (f := fun s => s.enc.ctx.get c) (fun _ _ => rfl) (fun _ _ => rfl) (fun _ => rfl) hstep hne
    · exact .inl hreset
    · obtain rfl : r = .ctxE c := by_contra fun hr => hreg (writeReg_keeps_encEntry hr w _)
      exact .inr ⟨a, w, rest, hp, .inl ha⟩
    · have hlisted : ChangesEncEntry c i := by_contra fun h => hcmd (after_keeps_encEntry h _)
      obtain rfl | ⟨b, rfl⟩ | ⟨⟨blk, comp, rfl⟩, hc⟩ := hlisted
      · exact .inr ⟨a, w, rest, hp, .inr ⟨ha, .inl hi⟩⟩
      · exact .inr ⟨a, w, rest, hp, .inr ⟨ha, .inr (.inl ⟨b, hi⟩)⟩⟩
      · exact .inr ⟨a, w, rest, hp, .inr ⟨ha, .inr (.inr ⟨⟨blk, comp, hi⟩, hc⟩)⟩⟩
  case dec =>
    obtain hreset | ⟨a, w, rest, hp, ⟨r, ha, hreg⟩ | ⟨ha, i, hi, hcmd⟩⟩ :=
      step_changes (f := fun s => s.dec.ctx.get c) (fun _ _ => rfl) (fun _ _ => rfl) (fun _ => rfl) hstep hne
    · exact .inl hreset
    · obtain rfl : r = .ctxD c := by_contra fun hr => hreg (writeReg_keeps_decEntry hr w _)
      exact .inr ⟨a, w, rest, hp, .inl ha⟩
    · have hlisted : ChangesDecEntry c i := by_contra fun h => hcmd (after_keeps_decEntry h _)
      obtain rfl | rfl | ⟨⟨blk, comp, rfl⟩, hc⟩ := hlisted
      · exact .inr ⟨a, w, rest, hp, .inr ⟨ha, .inl hi⟩⟩
      · exact .inr ⟨a, w, rest, hp, .inr ⟨ha, .inr (.inl hi)⟩⟩
      · exact .inr ⟨a, w, rest, hp, .inr ⟨ha, .inr (.inr ⟨⟨blk, comp, hi⟩, hc⟩)⟩⟩

end Sys2Proof.Machine
end

section
/-! The carry-resolving byte machine, byte by byte (rules R102, R103). -/

namespace Sys2Proof.Machine

open Safety

/-- From `u` to `v` the byte `x` and `n` bytes `y` were written at OUT_LEN, and `b` is held; nothing else changed. -/
structure EncUnit.WroteRun (x y : Byte) (n : Nat) (b : Byte) (u v : EncUnit) : Prop where
  rest : v = { u with pend := b, pendValid := true, ffRun := 0, outLen := v.outLen, outBuf := v.outBuf }
  outLen : v.outLen.toNat = u.outLen.toNat + 1 + n
  bytes : ∀ a, v.outByteAt a =
    if a = u.outLen.toNat then x else if u.outLen.toNat < a ∧ a ≤ u.outLen.toNat + n then y else u.outByteAt a

theorem EncUnit.wroteRun (u : EncUnit) (x y b : Byte) (n : Nat) (h : u.outLen.toNat + 1 + n < 2 ^ 17) :
    u.WroteRun x y n b (((u.outByte x).outRun y n).hold b) := by
  have hlen : (u.outByte x).outLen.toNat = u.outLen.toNat + 1 := EncUnit.outByte_outLen_toNat u x (by omega)
  refine ⟨?rest, ?outLen, fun a => ?bytes⟩
  case rest => rw [EncUnit.outRun_eq]; rfl
  case outLen => rw [EncUnit.hold_outLen, EncUnit.outRun_outLen _ _ _ (by omega), hlen]
  case bytes =>
    rw [EncUnit.outByteAt_hold, EncUnit.outByteAt_outRun _ _ _ (by omega), hlen, EncUnit.outByteAt_outByte]
    by_cases ha : a = u.outLen.toNat
    · rw [if_neg (by omega), if_pos ha, if_pos ha]
    · rw [if_neg ha, if_neg ha]
      by_cases hrun : u.outLen.toNat < a ∧ a ≤ u.outLen.toNat + n
      · rw [if_pos hrun, if_pos (by omega)]
      · rw [if_neg hrun, if_neg (by omega)]

/-! The branches of the state machine. -/

theorem EncUnit.resolve_of_carry {out : BitVec 9} (h : 256 ≤ out.toNat) (u : EncUnit) :
    u.resolve out = ((u.outByte (u.pend + 1)).outRun 0x00 u.ffRun.toNat).hold (out.extractLsb' 0 8) := by
  rw [EncUnit.resolve, carry_iff, decide_eq_true h, if_pos rfl]

theorem EncUnit.resolve_of_ff (u : EncUnit) : u.resolve 0x0FF = { u with ffRun := u.ffRun + 1 } := rfl

theorem EncUnit.resolve_of_byte {out : BitVec 9} (h : out.toNat < 0xFF) (u : EncUnit) :
    u.resolve out = if u.pendValid then ((u.outByte u.pend).outRun 0xFF u.ffRun.toNat).hold (out.extractLsb' 0 8)
      else u.hold (out.extractLsb' 0 8) := by
  have hbyte : out.extractLsb' 0 8 ≠ 0xFF := fun hff => by
    have hn := congrArg BitVec.toNat hff
    rw [byte_toNat] at hn
    have : (0xFF : Byte).toNat = 255 := rfl
    omega
  have hcarry : decide (256 ≤ out.toNat) = false := decide_eq_false (by omega)
  rw [EncUnit.resolve, carry_iff, hcarry, if_neg Bool.false_ne_true, if_neg hbyte]

/-- Settles O34: the capacity test by `emit_cases`, then the branches of `EncUnit.resolve`, two of which write a run. -/
theorem emitResolvesHeldBytes : Obligations.EmitResolvesHeldBytes := by
  intro cfg out u hcap
  rcases emit_cases cfg out u with ⟨hfull, hemit⟩ | ⟨hroom, hemit⟩
  · exact ⟨fun _ => hemit, fun h => absurd h (Nat.not_lt.mpr hfull)⟩
  refine ⟨fun h => absurd hroom (Nat.not_lt.mpr h), fun _ => ⟨_, hemit, fun hcarry => ?carry, fun hff => ?ff,
    fun hbyte hheld => ?held, fun hbyte hfree => ?free⟩⟩
  case carry =>
    have hlen : u.outLen.toNat + 1 + u.ffRun.toNat < 2 ^ 17 := by
      simp only [EncUnit.produced] at hroom
      omega
    obtain ⟨hrest, houtLen, hbytes⟩ := u.wroteRun (u.pend + 1) 0x00 (out.extractLsb' 0 8) u.ffRun.toNat hlen
    rw [EncUnit.resolve_of_carry hcarry]
    exact ⟨hrest, houtLen, hbytes⟩
  case ff =>
    rw [hff]
    exact u.resolve_of_ff
  case held =>
    have hlen : u.outLen.toNat + 1 + u.ffRun.toNat < 2 ^ 17 := by
      simp only [EncUnit.produced] at hroom
      omega
    obtain ⟨hrest, houtLen, hbytes⟩ := u.wroteRun u.pend 0xFF (out.extractLsb' 0 8) u.ffRun.toNat hlen
    rw [EncUnit.resolve_of_byte hbyte, if_pos hheld]
    exact ⟨hrest, houtLen, hbytes⟩
  case free =>
    rw [EncUnit.resolve_of_byte hbyte, if_neg (by rw [hfree]; exact Bool.false_ne_true)]
    rfl

end Sys2Proof.Machine
end

section
/-! ENC_BIN in closed form (rules R99 to R102, R107, R149). -/

namespace Sys2Proof.Machine

open Safety

/-- The low register keeps 19 bits, which does not change the bits of the low that a shift of it sends out and keeps: they
stand below bit 19 (rules R23, R101). -/
theorem emitted_mod (low m : Nat) :
    BitVec.ofNat 9 (low % 2 ^ 19 * 2 ^ m / 1024) = BitVec.ofNat 9 (low * 2 ^ m / 1024) := by
  have hsplit : low * 2 ^ m = 2 ^ 19 * (low / 2 ^ 19 * 2 ^ m) + low % 2 ^ 19 * 2 ^ m := by
    rw [← Nat.mul_assoc, ← Nat.add_mul, Nat.div_add_mod]
  apply BitVec.eq_of_toNat_eq
  rw [BitVec.toNat_ofNat, BitVec.toNat_ofNat, hsplit]
  generalize low / 2 ^ 19 * 2 ^ m = x
  generalize low % 2 ^ 19 * 2 ^ m = y
  omega

theorem kept_mod (low m : Nat) : low % 2 ^ 19 * 2 ^ m % 1024 = low * 2 ^ m % 1024 := by
  rw [Nat.mul_mod, Nat.mod_mod_of_dvd low (by decide : 1024 ∣ 2 ^ 19), ← Nat.mul_mod]

/-- A low shifted inside its register. -/
theorem shifted_mod {w : Nat} (x m : Nat) : BitVec.ofNat w x <<< m = BitVec.ofNat w (x * 2 ^ m) := by
  rw [BitVec.shiftLeft_eq_ofNat]
  apply BitVec.eq_of_toNat_eq
  rw [BitVec.toNat_ofNat, BitVec.toNat_ofNat, BitVec.toNat_ofNat, Nat.mod_mul_mod]

section

variable {cfg : Config} {u : EncUnit} {low w k : Nat} {t : CtxTable} (hk : k ≤ 8) (hlo : 256 ≤ w * 2 ^ k)
  (hhi : w * 2 ^ k < 512)

include hhi in
theorem part_lt_512 : w < 512 :=
  Nat.lt_of_le_of_lt (Nat.le_mul_of_pos_right w (Nat.two_pow_pos k)) hhi

include hhi in
theorem toNat_part : (BitVec.ofNat 9 w).toNat = w := by
  rw [BitVec.toNat_ofNat, Nat.mod_eq_of_lt (part_lt_512 hhi)]

/-- The unit with the low `low` and the part `w` of the range, before the renormalization. -/
abbrev EncUnit.withPart (low w : Nat) (t : CtxTable) (u : EncUnit) : EncUnit :=
  { u with l := BitVec.ofNat 19 low, r := BitVec.ofNat 9 w, ctx := t }

include hk hlo hhi

/-- `k` shifts that the counter lasts for (rules R100, R101). -/
theorem renormE_withPart_quiet (hcnt : k ≤ u.cnt.toNat) :
    renormE cfg renormTurns (u.withPart low w t) = .ok () { u with
      l := BitVec.ofNat 19 (low * 2 ^ k), cnt := BitVec.ofNat 4 (u.cnt.toNat - k), r := BitVec.ofNat 9 (w * 2 ^ k),
      ctx := t } := by
  have hr : (u.withPart low w t).r.toNat * 2 ^ k = w * 2 ^ k := congrArg (· * 2 ^ k) (toNat_part hhi)
  have hend : 256 ≤ (BitVec.ofNat 9 w <<< k).toNat := by
    rw [BitVec.toNat_shiftLeft_of_le _ _ (by rw [toNat_part hhi]; exact hhi), toNat_part hhi]
    exact hlo
  rw [show renormTurns = (8 - k) + k by simp only [renormTurns]; omega,
    renormE_quiet cfg k _ (u.withPart low w t) hcnt (by rw [hr]; exact hhi), renormE_done _ _ _ hend]
  simp only [shifted_mod]

/-- `k` shifts of which one sends a byte out, with room for it (rules R100 to R102). -/
theorem renormE_withPart_emitting (hcnt : u.cnt.toNat < k) (hroom : u.produced < cfg.outCap) :
    renormE cfg renormTurns (u.withPart low w t) = .ok ()
      { u.resolve (BitVec.ofNat 9 (low * 2 ^ (u.cnt.toNat + 1) / 1024)) with
        l := BitVec.ofNat 19 (low * 2 ^ (u.cnt.toNat + 1) % 1024 * 2 ^ (k - u.cnt.toNat - 1)),
        cnt := BitVec.ofNat 4 (7 - (k - u.cnt.toNat - 1)), r := BitVec.ofNat 9 (w * 2 ^ k), ctx := t } := by
  have hr : (u.withPart low w t).r.toNat * 2 ^ k = w * 2 ^ k := congrArg (· * 2 ^ k) (toNat_part hhi)
  have hshifted : (u.withPart low w t).shifted k = (u.withPart low w t).afterEmission k :=
    if_neg (Nat.not_le.mpr hcnt)
  have hresolve := EncUnit.resolve_with (BitVec.ofNat 9 (low * 2 ^ (u.cnt.toNat + 1) / 1024)) u (BitVec.ofNat 9 w)
    (BitVec.ofNat 19 low) u.cnt t
  rw [renormE_closed cfg k (u.withPart low w t) hk (by rw [hr]; exact hlo) (by rw [hr]; exact hhi) hroom, hshifted, EncUnit.afterEmission]
  simp only [BitVec.toNat_ofNat, emitted_mod, kept_mod, shifted_mod]
  exact congrArg (fun v : EncUnit => Res.ok () { v with
    r := BitVec.ofNat 9 (w * 2 ^ k),
    l := BitVec.ofNat 19 (low * 2 ^ (u.cnt.toNat + 1) % 1024 * 2 ^ (k - u.cnt.toNat - 1)),
    cnt := BitVec.ofNat 4 (7 - (k - u.cnt.toNat - 1)) }) hresolve

omit hk hlo hhi in
/-- A renormalization turn at counter 0 without room for the byte; the unit is `u` but for its arithmetic registers. -/
theorem renormE_turn_full (n : Nat) (r : BitVec 9) (l : BitVec 19) (cnt : BitVec 4) (hr : r.toNat < 256) (hc : cnt = 0)
    (hfull : cfg.outCap ≤ u.produced) :
    renormE cfg (n + 1) { u with r := r, l := l, cnt := cnt, ctx := t } =
      .raised .outOverflow { u with r := r <<< 1, l := (l <<< 1) &&& 0x3FF, cnt := 7, ctx := t } :=
  (renormE_turn cfg n _ hr).trans (congrArg (fun x => Res.bind x fun _ v => renormE cfg n v)
    (shiftE_overflows cfg { u with r := r <<< 1, l := l, cnt := cnt, ctx := t } hc hfull))

omit hk hlo in
/-- The shift that sends a byte out without room for it raises with its own effects alone (rules R101, R102, R149). -/
theorem renormE_withPart_full (n : Nat) (hcnt : u.cnt.toNat < k) (hfull : cfg.outCap ≤ u.produced) :
    renormE cfg (n + k) (u.withPart low w t) = .raised .outOverflow { u with
      r := BitVec.ofNat 9 (w * 2 ^ (u.cnt.toNat + 1)), l := BitVec.ofNat 19 (low * 2 ^ (u.cnt.toNat + 1) % 1024),
      cnt := 7, ctx := t } := by
  have hpow : 2 ^ k = 2 ^ u.cnt.toNat * 2 * 2 ^ (k - u.cnt.toNat - 1) := by
    rw [← Nat.pow_succ, ← Nat.pow_add]
    congr 1
    omega
  have hlt : w * 2 ^ u.cnt.toNat * 2 < 512 := by
    have hpos : 0 < 2 ^ (k - u.cnt.toNat - 1) := Nat.two_pow_pos _
    calc w * 2 ^ u.cnt.toNat * 2
      _ ≤ w * 2 ^ u.cnt.toNat * 2 * 2 ^ (k - u.cnt.toNat - 1) := Nat.le_mul_of_pos_right _ hpos
      _ = w * 2 ^ k := by rw [hpow]; ring
      _ < 512 := hhi
  have hr : (u.withPart low w t).r.toNat * 2 ^ u.cnt.toNat = w * 2 ^ u.cnt.toNat :=
    congrArg (· * 2 ^ u.cnt.toNat) (toNat_part hhi)
  have hr' : (BitVec.ofNat 9 w <<< u.cnt.toNat).toNat < 256 := by
    rw [BitVec.toNat_shiftLeft_of_le _ _ (by rw [toNat_part hhi]; omega), toNat_part hhi]
    omega
  rw [show n + k = (n + (k - u.cnt.toNat - 1) + 1) + u.cnt.toNat by omega,
    renormE_quiet cfg u.cnt.toNat _ (u.withPart low w t) (Nat.le_refl _) (by rw [hr]; omega),
    renormE_turn_full _ _ _ _ hr' (by simp) hfull]
  simp only [shifted_mod, kept_eq, Nat.mul_assoc, ← Nat.pow_add]

end

/-! The part and the low of a bin (rules R93, R99). -/

theorem partWidth_bounds {cfg : Config} (hlegal : cfg.Legal) {r : BitVec 9} (hr : 256 ≤ r.toNat) (e : Ctx) (b : Bool) :
    1 ≤ partWidth cfg r e b ∧ partWidth cfg r e b < 512 := by
  obtain ⟨-, hsum, hlps, hmps⟩ := widths_some (widths_eq_lpsWidth (e := e) (hlegal.1 _) hr)
  have hlt := r.isLt
  unfold partWidth
  split <;> omega

/-- A bin under legal tables is the renormalization of its part of the range (rules R93, R99). -/
theorem encodeBin_of_legal {cfg : Config} (hlegal : cfg.Legal) {u : EncUnit} (hr : 256 ≤ u.r.toNat) (b : Bool)
    (c : Fin 32) : encodeBin cfg b c u = renormE cfg renormTurns (u.withPart
      (u.l.toNat + (if b = (u.ctx.get c).mps then 0 else mpsWidth cfg u.r (u.ctx.get c)))
      (partWidth cfg u.r (u.ctx.get c) b) (u.ctx.put c (entryAfter cfg (u.ctx.get c) b))) := by
  rw [encodeBin, widths_eq_lpsWidth (hlegal.1 _) hr]
  exact congrArg (renormE cfg renormTurns) (EncUnit.codeBin_eq cfg b c _ _ u)

/-- Settles O32: `k` doublings of the part, by whether the counter lasts for `k` shifts. -/
theorem encBinResult : Obligations.EncBinResult := by
  intro s c b hlegal ha hr
  obtain ⟨hpos, hlt⟩ := partWidth_bounds hlegal hr (s.enc.ctx.get c) b
  obtain ⟨k, hk, hlo, hhi⟩ := exists_doublings _ hpos hlt
  refine ⟨k, hk, hlo, hhi, fun hroom => ?_⟩
  rw [exec_next, after_encBin, if_pos ha, encodeBin_of_legal hlegal hr]
  by_cases hcnt : k ≤ s.enc.cnt.toNat
  · rw [renormE_withPart_quiet hk hlo hhi hcnt]
    simp only [if_pos hcnt]
    rfl
  · rw [renormE_withPart_emitting hk hlo hhi (Nat.lt_of_not_le hcnt) (hroom.resolve_left hcnt)]
    simp only [if_neg hcnt]
    rfl

/-- Settles O33: the guards' errors and a zero width by their own lemmas; the failing Emit is `renormE_withPart_full`. -/
theorem encBinFaults : Obligations.EncBinFaults := by
  refine ⟨fun s c b ha => ⟨?bin, ?finish⟩, fun s c b ha hzero => ?zero, fun s c b k hlegal ha hr hk _ hhi hcnt hfull => ?full⟩
  case bin => rw [exec_next, after_encBin, ha]; rfl
  case finish => rw [exec_next, after_encFinish, ha]; rfl
  case zero => rw [exec_next, after_encBin, if_pos ha, encodeBin_of_zeroWidth hzero]; rfl
  case full =>
    rw [exec_next, after_encBin, if_pos ha, encodeBin_of_legal hlegal hr,
      show renormTurns = (8 - k) + k by simp only [renormTurns]; omega, renormE_withPart_full hhi _ hcnt hfull]
    rfl

end Sys2Proof.Machine
end

section
/-! Encoding sessions on the unit (rules R105, R106, R108, R144): the start, the bins and the termination, their length in
shifts, the contexts they leave, and the bytes they write. -/

namespace Sys2Proof.Machine

open Safety

/-! The termination (rule R105). -/

/-- What the termination of `u` leaves in `w`, where it completes (rules R105, R108). -/
structure EncUnit.Terminated (cfg : Config) (u w : EncUnit) : Prop where
  eq : w = { u with
    r := 256, l := 0, cnt := 7, pendValid := false, pend := 0, ffRun := 0, outLen := w.outLen, outBuf := w.outBuf }
  stored : w.Stored cfg.outCap
  length : 8 * w.outLen.toNat + 1 = u.shifts + terminateShifts u
  value : bytesValue w.outByteAt w.outLen.toNat * 2 ^ 10 = lowValue u * 2 ^ terminateShifts u
  appends : u.Appends w

/-- The termination of a ready session completes or raises OUT_OVERFLOW, which it does only without room. -/
theorem terminate_of_ready {cfg : Config} {u : EncUnit} (hu : u.Ready cfg) (hcap : cfg.outCap ≤ 65536) :
    (∃ w, terminate cfg u = .ok () w ∧ u.Terminated cfg w) ∨
    (∃ w, terminate cfg u = .raised .outOverflow w ∧ u.SameRest w ∧ w.Loose cfg.outCap ∧
      8 * cfg.outCap + 9 ≤ u.shifts + terminateShifts u) := by
  have happ := terminate_appends cfg hcap u
  rcases terminate_cases cfg u hu.track hu.lo hu.stored hcap with
    ⟨w, hok, hr, hl, hcnt, hpv, hpend, hff, hst, ⟨hctx, hcoef, hact, hdraw⟩, hlen, hval⟩ | ⟨w, hraised, hloose, hrest, -, hlen⟩
  · rw [hok] at happ
    refine .inl ⟨w, hok, ?eq, hst, hlen, hval, happ⟩
    rw [← hr, ← hl, ← hcnt, ← hpv, ← hpend, ← hff, ← hctx, ← hcoef, ← hact, ← hdraw]
  · exact .inr ⟨w, hraised, hrest, hloose, hlen⟩

theorem terminateShifts_bounds {u : EncUnit} (h : u.cnt.toNat ≤ 8) : 10 ≤ terminateShifts u ∧ terminateShifts u ≤ 17 := by
  unfold terminateShifts
  split <;> omega

/-! The bins (rules R94, R95, R99, R100). -/

/-- The doublings of a part are those that bring it to 256..511. -/
theorem doublings_eq {w k : Nat} (hlo : 256 ≤ w * 2 ^ k) (hhi : w * 2 ^ k < 512) : doublings w = k := by
  have hpos : 1 ≤ w := Nat.one_le_iff_ne_zero.mpr fun h => by simp [h] at hlo
  obtain ⟨hlo', hhi'⟩ := doublings_spec w hpos (part_lt_512 hhi)
  exact doublings_unique hlo' hhi' hlo hhi

/-- A bin's shifts are the doublings of the part it keeps. -/
theorem EncUnit.Binned.doublings_eq {cfg : Config} {b : Bool} {c : Fin 32} {k : Nat} {u v : EncUnit}
    (h : u.Binned cfg b c k v) : doublings (partWidth cfg u.r (u.ctx.get c) b) = k := by
  have hlo := h.range_lo
  have hhi := h.range_hi
  rw [h.range] at hlo hhi
  exact Machine.doublings_eq hlo (Nat.lt_of_le_of_lt hhi (by decide))

/-- The range after a bin, as `sessionShifts` computes it. -/
theorem EncUnit.Binned.range_eq {cfg : Config} {b : Bool} {c : Fin 32} {k : Nat} {u v : EncUnit}
    (h : u.Binned cfg b c k v) : BitVec.ofNat 9 (partWidth cfg u.r (u.ctx.get c) b * 2 ^ k) = v.r := by
  have hr : partWidth cfg u.r (u.ctx.get c) b * 2 ^ k = v.r.toNat := h.range.symm
  rw [hr, BitVec.ofNat_toNat, BitVec.setWidth_eq]

/-- The bins of a list took a ready session from `u` to `v` (rules R94, R95, R99, R106). -/
structure EncUnit.Coded (cfg : Config) (bins : List (Bool × Fin 32)) (u v : EncUnit) : Prop where
  ready : v.Ready cfg
  shifts : v.shifts = u.shifts + sessionShifts cfg bins u.r u.ctx
  ctx : v.ctx = tableAfter cfg bins u.ctx
  coefIn : v.coefIn = u.coefIn
  active : v.active = u.active
  outDraw : v.outDraw = u.outDraw

/-- Under legal tables the bins go through, or raise OUT_OVERFLOW, which they do only once their shifts fill the capacity. -/
theorem encodeBins_cases {cfg : Config} (hlegal : cfg.Legal) (bins : List (Bool × Fin 32)) {u : EncUnit}
    (hu : u.Ready cfg) :
    (∃ v, encodeBins cfg bins u = .ok () v ∧ u.Coded cfg bins v) ∨
    (∃ v, encodeBins cfg bins u = .raised .outOverflow v ∧
      8 * cfg.outCap < u.shifts + sessionShifts cfg bins u.r u.ctx) := by
  induction bins generalizing u with
  | nil => exact .inl ⟨u, rfl, hu, rfl, rfl, rfl, rfl, rfl⟩
  | cons p bins ih =>
    obtain ⟨b, c⟩ := p
    rcases encodeBin_cases cfg b c u hu.track hu.lo hu.hi hu.stored hlegal.2.2.2.1.2 with
      ⟨hzero, -⟩ | ⟨k, v, hok, hv⟩ | ⟨v, hfull, -, -, -, -, -, -, hshifts⟩
    · exact absurd hzero (widths_ne_none_of_legal hlegal hu.lo _)
    · have hcount : sessionShifts cfg ((b, c) :: bins) u.r u.ctx = k + sessionShifts cfg bins v.r v.ctx := by
        simp only [sessionShifts, hv.doublings_eq, hv.range_eq, hv.ctx]
        rfl
      have hrun : encodeBins cfg ((b, c) :: bins) u = encodeBins cfg bins v := by
        simp only [encodeBins, hok, Res.bind_ok]
      have hvs := hv.shifts
      rw [hrun, hcount]
      rcases ih hv.ready with ⟨w, hok, hw⟩ | ⟨w, hfull, hshifts⟩
      · refine .inl ⟨w, hok, hw.ready, by rw [hw.shifts, hvs, hcount, Nat.add_assoc], ?_, hw.coefIn.trans hv.coefIn,
          hw.active.trans hv.active, hw.outDraw.trans hv.outDraw⟩
        rw [hw.ctx, hv.ctx]
        rfl
      · exact .inr ⟨w, hfull, by omega⟩
    · exact .inr ⟨v, by simp only [encodeBins, hfull, Res.bind_raised], by omega⟩

/-- At most 8 shifts a bin (rules R100, R106). -/
theorem sessionShifts_le (cfg : Config) (bins : List (Bool × Fin 32)) (r : BitVec 9) (t : CtxTable) :
    sessionShifts cfg bins r t ≤ 8 * bins.length := by
  induction bins generalizing r t with
  | nil => exact Nat.zero_le _
  | cons p bins ih =>
    have hrest := ih (BitVec.ofNat 9 (partWidth cfg r (t.get p.2) p.1 * 2 ^ doublings (partWidth cfg r (t.get p.2) p.1)))
      (t.put p.2 (entryAfter cfg (t.get p.2) p.1))
    have hbin : doublings (partWidth cfg r (t.get p.2) p.1) ≤ 8 := Nat.sub_le _ _
    simp only [sessionShifts, List.length_cons]
    omega

/-! Whole sessions. -/

/-- ENC_START, the bins and ENC_FINISH on the unit (rules R104, R107, R108, R144). -/
def runSession (cfg : Config) (bins : List (Bool × Fin 32)) (u : EncUnit) : Res EncUnit Unit :=
  (encodeBins cfg bins u.started).bind fun _ v => (terminate cfg v).bind fun _ w => .ok () w.closed

theorem encodeBlock_eq_runSession (cfg : Config) (blk : BlkType) (u : EncUnit) :
    encodeBlock cfg blk u = runSession cfg (blockBins cfg blk u.coefIn) u := rfl

theorem runSession_eq_ok_iff {cfg : Config} {bins : List (Bool × Fin 32)} {u w : EncUnit} :
    runSession cfg bins u = .ok () w ↔
      ∃ v x, encodeBins cfg bins u.started = .ok () v ∧ terminate cfg v = .ok () x ∧ x.closed = w := by
  simp only [runSession, Res.bind_eq_ok, Res.ok.injEq, true_and]
  exact ⟨fun ⟨_, v, hv, _, x, hx, hw⟩ => ⟨v, x, hv, hx, hw⟩, fun ⟨v, x, hv, hx, hw⟩ => ⟨_, v, hv, _, x, hx, hw⟩⟩

/-- The bytes that the bins' shifts take: ceil((9 + S) / 8) (rule R106). -/
def sessionBytes (cfg : Config) (bins : List (Bool × Fin 32)) (u : EncUnit) : Nat :=
  (9 + sessionShifts cfg bins 510 u.ctx + 7) / 8

/-- What a session that completes leaves in `w` (rules R105, R106). -/
structure EncUnit.SessionOf (cfg : Config) (bins : List (Bool × Fin 32)) (u w : EncUnit) : Prop where
  eq : w = { u with
    r := 256, l := 0, cnt := 7, pendValid := false, pend := 0, ffRun := 0, active := false,
    ctx := tableAfter cfg bins u.ctx, outLen := w.outLen, outBuf := w.outBuf }
  outLen : w.outLen.toNat = sessionBytes cfg bins u
  stored : w.Stored cfg.outCap
  bytes : ∀ a, w.outLen.toNat ≤ a → w.outByteAt a = u.outByteAt a
  first : (w.outByteAt 0).toNat ≤ 0xFE

/-- A stream that is below 510 in its first nine bits has a first byte of at most 0xFE (rule R106). -/
theorem first_byte_le {f : Nat → Byte} {n : Nat} (h : bytesValue f (1 + n) < 510 * 2 ^ (8 * n - 1)) (hn : 1 ≤ n) :
    (f 0).toNat ≤ 0xFE := by
  have hfirst := bytesValue_div f 1 n
  have hpow : 510 * 2 ^ (8 * n - 1) = 255 * 256 ^ n := by
    rw [show 510 = 255 * 2 by rfl, Nat.mul_assoc, ← Nat.pow_succ', show (8 * n - 1).succ = 8 * n by omega, Nat.pow_mul]
  rw [hpow] at h
  have hlt : bytesValue f (1 + n) / 256 ^ n < 255 := (Nat.div_lt_iff_lt_mul (Nat.pow_pos (by decide))).mpr h
  rw [hfirst] at hlt
  simp only [bytesValue] at hlt
  omega

/-- A session under legal tables completes, or raises OUT_OVERFLOW; it completes exactly with room for its bytes. -/
theorem runSession_cases {cfg : Config} (hlegal : cfg.Legal) (bins : List (Bool × Fin 32)) {u : EncUnit}
    (hu : u.Stored cfg.outCap) :
    (∃ w, runSession cfg bins u = .ok () w ∧ sessionBytes cfg bins u ≤ cfg.outCap ∧ u.SessionOf cfg bins w) ∨
    (∃ w, runSession cfg bins u = .raised .outOverflow w ∧ cfg.outCap < sessionBytes cfg bins u) := by
  have hcap := hlegal.2.2.2.1.2
  obtain ⟨hstart, hlow, hshifts, hrange⟩ := u.started_ready cfg hu
  have happ := encodeBins_appends cfg hcap bins u.started
  have hr510 : u.started.r = 510 := rfl
  rcases encodeBins_cases hlegal bins hstart with ⟨v, hbins, hv⟩ | ⟨v, hbins, hfull⟩
  swap
  · refine .inr ⟨v, by rw [runSession, hbins, Res.bind_raised], ?_⟩
    rw [hshifts, hr510, EncUnit.started_ctx] at hfull
    unfold sessionBytes
    omega
  have hvs := hv.shifts
  rw [hshifts, hr510, EncUnit.started_ctx, Nat.zero_add] at hvs
  obtain ⟨hT, hT'⟩ := terminateShifts_bounds hv.ready.track.cnt_le
  rcases terminate_of_ready hv.ready hcap with ⟨w, hterm, hw⟩ | ⟨w, hterm, -, -, hfull⟩
  swap
  · refine .inr ⟨w, by rw [runSession, hbins, Res.bind_ok, hterm, Res.bind_raised], ?_⟩
    unfold sessionBytes
    omega
  have hlen := hw.length
  have hn : w.outLen.toNat = sessionBytes cfg bins u := by
    unfold sessionBytes
    omega
  have hroom : w.outLen.toNat ≤ cfg.outCap :=
    Nat.le_trans (Nat.le_trans (Nat.le_add_right _ _) (Nat.le_add_right _ _)) hw.stored.1
  refine .inl ⟨w.closed, runSession_eq_ok_iff.mpr ⟨v, w, hbins, hterm, rfl⟩, hn ▸ hroom, ?eq, hn, hw.stored, ?bytes, ?first⟩
  case eq =>
    have hdraw : v.outDraw = u.outDraw := hv.outDraw
    have hcoef : v.coefIn = u.coefIn := hv.coefIn
    have hctx : v.ctx = tableAfter cfg bins u.ctx := hv.ctx
    rw [EncUnit.closed, hw.eq, hdraw, hcoef, hctx]
  case bytes =>
    rw [hbins] at happ
    exact fun a ha => ((happ.trans hw.appends).bytes a (.inr ha))
  case first =>
    obtain ⟨k, hk, -, hlt, -⟩ := encodeBins_bounds cfg hcap bins _ v hstart hbins
    rw [hlow, hrange, Nat.zero_add] at hlt
    rw [hshifts, Nat.zero_add] at hk
    obtain ⟨m, hm⟩ : ∃ m, w.outLen.toNat = 1 + m := ⟨w.outLen.toNat - 1, by omega⟩
    obtain ⟨T, hT10⟩ : ∃ T, terminateShifts v = T + 10 := ⟨terminateShifts v - 10, by omega⟩
    have hval := hw.value
    rw [hT10, Nat.pow_add, ← Nat.mul_assoc] at hval
    have hval := Nat.eq_of_mul_eq_mul_right (by decide) hval
    refine first_byte_le (f := w.closed.outByteAt) (n := m) ?_ (by omega)
    have hbytes : bytesValue w.closed.outByteAt (1 + m) = lowValue v * 2 ^ T := by
      rw [← hm, ← hval]
      rfl
    rw [hbytes, show 8 * m - 1 = k + T by omega, Nat.pow_add, ← Nat.mul_assoc]
    exact Nat.mul_lt_mul_of_pos_right hlt (Nat.two_pow_pos T)

end Sys2Proof.Machine
end

section
/-! The commands of a session (rules R104, R107, R108, R144, R150). -/

namespace Sys2Proof.Machine

open Safety

/-- Settles O35: the termination's length and value are those of the produced bytes and the low; its errors keep the rest. -/
theorem encFinishResult : Obligations.EncFinishResult := by
  intro s hinv ha
  obtain ⟨⟨⟨-, hcap⟩, -⟩, henc, -, hidle, -⟩ := hinv
  have hready : s.enc.Ready s.cfg := .of_encOk henc ha
  have hc0 : s.enc.cnt = 0 ↔ s.enc.cnt.toNat = 0 := BitVec.toNat_inj.symm
  have hc8 : s.enc.cnt = 8 ↔ s.enc.cnt.toNat = 8 := BitVec.toNat_inj.symm
  have hT : (if s.enc.cnt = 0 ∨ s.enc.cnt = 8 then 17 else 9 + s.enc.cnt.toNat) = terminateShifts s.enc := by
    simp only [hc0, hc8, terminateShifts]
  have hbytes : s.enc.shifts + terminateShifts s.enc = 8 * (s.enc.produced + if s.enc.cnt = 0 then 3 else 2) + 1 := by
    have hcnt := hready.track.cnt_le
    simp only [hc0, terminateShifts, EncUnit.shifts]
    split <;> split <;> omega
  generalize (s.enc.produced + if s.enc.cnt = 0 then 3 else 2) = n at hbytes ⊢
  rw [exec_next, after_encFinish, if_pos ha, hT]
  rcases terminate_of_ready hready hcap with ⟨w, hterm, hw⟩ | ⟨w, hterm, ⟨hctx, -, -, -⟩, -, hfull⟩
  · have hlen := hw.length
    have hroom : w.outLen.toNat ≤ s.cfg.outCap :=
      Nat.le_trans (Nat.le_trans (Nat.le_add_right _ _) (Nat.le_add_right _ _)) hw.stored.1
    refine ⟨fun _ => ⟨_, rfl, ?_⟩, fun hover => absurd hover (by omega)⟩
    rw [hterm, Res.bind_ok, endEnc_ok, complete, Status.completed_of_not_busy hidle]
    refine ⟨?eq, ?length, hw.value, fun a ha => hw.appends.bytes a ha⟩
    case eq =>
      rw [EncUnit.closed, hw.eq]
    case length => exact (by omega : w.outLen.toNat = n)
  · refine ⟨fun hroom => absurd hroom (by omega), fun _ => ⟨_, rfl, ?_⟩⟩
    rw [hterm, Res.bind_raised, endEnc_raised, raiseFault, Status.raised_of_not_busy hidle]
    exact ⟨rfl, hctx, rfl⟩

/-- Settles O36: ENC_BLOCK is the session of the block's bins, of which there are at most 35072. -/
theorem encBlockResult : Obligations.EncBlockResult := by
  intro s blk comp n hlegal hinv hn
  obtain ⟨-, henc, -, hidle, -⟩ := hinv
  have hn : n = sessionBytes s.cfg (blockBins s.cfg blk s.enc.coefIn) s.enc := hn
  have hmax : n ≤ 35074 := by
    have hbins := blockBins_length_le s.cfg blk s.enc.coefIn
    have hshifts := sessionShifts_le s.cfg (blockBins s.cfg blk s.enc.coefIn) 510 s.enc.ctx
    unfold sessionBytes at hn
    omega
  refine ⟨hmax, ?_⟩
  rw [exec_next, after_encBlock, encodeBlock_eq_runSession]
  rcases runSession_cases hlegal (blockBins s.cfg blk s.enc.coefIn) henc.loose.2 with
    ⟨w, hrun, hroom, hw⟩ | ⟨w, hrun, hfull⟩
  · refine ⟨fun _ => ⟨_, rfl, ?_⟩, fun hover => absurd hover (by omega)⟩
    have hlen : w.outLen = BitVec.ofNat 17 n := by
      rw [hn, ← hw.outLen, BitVec.ofNat_toNat, BitVec.setWidth_eq]
    rw [hrun, endEnc_ok, complete, Status.completed_of_not_busy hidle]
    refine ⟨?eq, fun a ha => hw.bytes a (by rw [hw.outLen, ← hn]; exact ha)⟩
    case eq => rw [← hlen, ← hw.eq]
  · refine ⟨fun hroom => absurd hroom (by omega), fun _ => ⟨_, rfl, ?_⟩⟩
    rw [hrun, endEnc_raised, raiseFault, Status.raised_of_not_busy hidle]
    exact ⟨rfl, rfl⟩

/-! Sessions as lists of commands. -/

theorem encodeBin_active {cfg : Config} {b : Bool} {c : Fin 32} {u v : EncUnit} (h : encodeBin cfg b c u = .ok () v) :
    v.active = u.active := by
  unfold encodeBin at h
  split at h
  case h_1 => cases h
  case h_2 lps mps _ =>
    have hrest := renormE_leavesRest cfg renormTurns (u.codeBin cfg b c lps mps)
    rw [h, EncUnit.codeBin_eq] at hrest
    exact hrest.2.2.1

/-- Without an open session no ENC_BIN and no ENC_FINISH completes (rules R107, R108). -/
theorem afterAll_encBins_closed (bins : List (Bool × Fin 32)) {s : State} (ha : s.enc.active = false) :
    (afterAll (encBinCommands bins ++ [.encFinish]) s).status.err ≠ .ok := by
  induction bins generalizing s with
  | nil =>
    show (after .encFinish s).status.err ≠ .ok
    rw [after_encFinish, ha]
    exact ErrCode.noConfusion
  | cons p bins ih =>
    have hstep : after (.encBin p.2 p.1) s = raiseFault .notStarted s := by rw [after_encBin, ha]; rfl
    show (afterAll (encBinCommands bins ++ [.encFinish]) (after (.encBin p.2 p.1) s)).status.err ≠ .ok
    rw [hstep]
    exact ih ha

/-- The bins and the termination of an open session, on the unit (rules R107, R108). -/
def finishSession (cfg : Config) (bins : List (Bool × Fin 32)) (u : EncUnit) : Res EncUnit Unit :=
  (encodeBins cfg bins u).bind fun _ v => (terminate cfg v).bind fun _ w => .ok () w.closed

theorem runSession_eq_finishSession (cfg : Config) (bins : List (Bool × Fin 32)) (u : EncUnit) :
    runSession cfg bins u = finishSession cfg bins u.started := rfl

theorem finishSession_cons (cfg : Config) (b : Bool) (c : Fin 32) (bins : List (Bool × Fin 32)) (u : EncUnit) :
    finishSession cfg ((b, c) :: bins) u = (encodeBin cfg b c u).bind fun _ v => finishSession cfg bins v :=
  Res.bind_assoc _ _ _

theorem finishSession_raisesIn (cfg : Config) (bins : List (Bool × Fin 32)) (u : EncUnit) :
    RaisesIn [.zeroWidth, .outOverflow] (finishSession cfg bins u) := by
  refine RaisesIn.bind (raisesIn_of fun e v h => ?bins) fun _ v =>
    RaisesIn.bind (raisesIn_of fun e w h => ?term) fun _ _ => trivial
  case bins => rcases encodeBins_raised h with rfl | rfl <;> simp
  case term => simp [terminate_raised h]

/-- ENC_BINs and ENC_FINISH from an open session complete as the bins and the termination do, or do not end with OK. -/
theorem afterAll_finishSession (s : State) (bins : List (Bool × Fin 32)) {u : EncUnit} (ha : u.active = true) :
    (∀ w, finishSession s.cfg bins u = .ok () w →
      afterAll (encBinCommands bins ++ [.encFinish]) (complete { s with enc := u }) = complete { s with enc := w }) ∧
    (∀ e w, finishSession s.cfg bins u = .raised e w →
      (afterAll (encBinCommands bins ++ [.encFinish]) (complete { s with enc := u })).status.err ≠ .ok) := by
  induction bins generalizing u with
  | nil =>
    have hlast : afterAll (encBinCommands [] ++ [.encFinish]) (complete { s with enc := u }) =
        endEnc (complete { s with enc := u }) (finishSession s.cfg [] u) := if_pos ha
    have herrors := finishSession_raisesIn s.cfg [] u
    rw [hlast]
    refine ⟨fun w hw => by rw [hw]; rfl, fun e w hw => ?_⟩
    rw [hw] at herrors ⊢
    exact fun hok : e = .ok => by rw [hok] at herrors; simp [Res.Sat] at herrors
  | cons p bins ih =>
    obtain ⟨b, c⟩ := p
    have hstep : after (.encBin c b) (complete { s with enc := u }) =
        endEnc (complete { s with enc := u }) (encodeBin s.cfg b c u) := if_pos ha
    have hrun : afterAll (encBinCommands ((b, c) :: bins) ++ [.encFinish]) (complete { s with enc := u }) =
        afterAll (encBinCommands bins ++ [.encFinish]) (endEnc (complete { s with enc := u }) (encodeBin s.cfg b c u)) :=
      congrArg (afterAll (encBinCommands bins ++ [.encFinish])) hstep
    rw [hrun, finishSession_cons]
    cases hbin : encodeBin s.cfg b c u with
    | ok _ v => exact ih ((encodeBin_active hbin).trans ha)
    | raised e v =>
      exact ⟨fun w hw => (by cases hw), fun _ _ _ => afterAll_encBins_closed bins rfl⟩

/-- A session of commands is the session on the unit, where that completes (rules R104, R107, R108). -/
theorem afterAll_encSession {bins : List (Bool × Fin 32)} {s : State} {w : EncUnit}
    (h : runSession s.cfg bins s.enc = .ok () w) : afterAll (encSession bins) s = complete { s with enc := w } :=
  (afterAll_finishSession s bins (u := s.enc.started) rfl).1 w h

/-- A session of commands that ends with OK is one that completes on the unit. -/
theorem runSession_of_afterAll {bins : List (Bool × Fin 32)} {s : State}
    (h : (afterAll (encSession bins) s).status.err = .ok) : ∃ w, runSession s.cfg bins s.enc = .ok () w := by
  cases hrun : runSession s.cfg bins s.enc with
  | ok _ w => exact ⟨w, rfl⟩
  | raised e w => exact absurd h ((afterAll_finishSession s bins (u := s.enc.started) rfl).2 e w hrun)

/-- An ENC_BLOCK that ends with OK is its session. -/
theorem runSession_of_encBlock {s t : State} {blk : BlkType} {comp : Component}
    (h : exec (.encBlock blk comp) s = .next t) (herr : t.status.err = .ok) :
    ∃ w, runSession s.cfg (blockBins s.cfg blk s.enc.coefIn) s.enc = .ok () w ∧ t = complete { s with enc := w } := by
  obtain rfl : after (.encBlock blk comp) s = t := Host.Outcome.next.inj ((exec_next _ s).symm.trans h)
  rw [after_encBlock, encodeBlock_eq_runSession] at herr ⊢
  have herrors := finishSession_raisesIn s.cfg (blockBins s.cfg blk s.enc.coefIn) s.enc.started
  rw [← runSession_eq_finishSession] at herrors
  cases hrun : runSession s.cfg (blockBins s.cfg blk s.enc.coefIn) s.enc with
  | ok _ w => exact ⟨w, rfl, rfl⟩
  | raised e w =>
    rw [hrun] at herr herrors
    have herr : e = .ok := herr
    rw [herr] at herrors
    simp [Res.Sat] at herrors

/-- Settles O37: both run the session of the block's bins on the unit. -/
theorem encBlockEqualsItsBins : Obligations.EncBlockEqualsItsBins := by
  intro s t blk comp h herr
  obtain ⟨w, hrun, rfl⟩ := runSession_of_encBlock h herr
  exact afterAll_encSession hrun

/-- Settles O40: the session completes for the room there is, with the length and the first byte of `SessionOf`. -/
theorem blockStreamShape : Obligations.BlockStreamShape := by
  intro s bins hlegal hinv hroom
  obtain ⟨-, henc, -, -⟩ := hinv
  rcases runSession_cases hlegal bins henc.loose.2 with ⟨w, hrun, -, hw⟩ | ⟨w, -, hfull⟩
  · rw [afterAll_encSession hrun]
    have hlen : w.outLen.toNat = (9 + sessionShifts s.cfg bins 510 s.enc.ctx + 7) / 8 := hw.outLen
    exact ⟨rfl, hlen, (by omega : 2 ≤ w.outLen.toNat), hw.first⟩
  · exact absurd hfull (Nat.not_lt.mpr hroom)

end Sys2Proof.Machine
end

section
/-! Frames of the decoder's procedures (rules R67, R98, R116, R147): what priming, the block syntax and DEC_BLOCK leave of
the unit, whatever their outcome. -/

namespace Sys2Proof.Machine

open Safety

/-- Priming sets the arithmetic registers and the input position (rule R111). -/
theorem primeRegs_frame (s : List (Fin 32)) (u : DecUnit) : u.Frame s u.primeRegs := by
  rw [u.primeRegs_eq]
  exact ⟨rfl, fun _ _ => rfl⟩

/-- A valid priming opens a block (rules R111, R115). -/
theorem primed_frame (s : List (Fin 32)) (u : DecUnit) :
    { u with active := true }.Frame s { u.primeRegs with active := true } := by
  rw [u.primeRegs_eq]
  exact ⟨rfl, fun _ _ => rfl⟩

/-- The block syntax keeps what its bins keep. -/
theorem decodeBlockSyntax_frame (cfg : Config) (u : DecUnit) :
    (decodeBlockSyntax cfg u).Sat (u.Frame syntaxContexts) fun _ => u.Frame syntaxContexts := by
  refine decodeBlockSyntax_sat (p := u.Frame syntaxContexts) (q := fun _ => u.Frame syntaxContexts)
    (fun c hc v hv => ?_) (fun v hv => hv) u (DecUnit.Frame.refl _ u)
  exact (decodeBin_frame cfg c syntaxContexts hc v).imp (fun _ hw => hv.trans hw) fun _ w hw => by rw [hw]; exact hv

/-- DEC_BLOCK goes through to the closed block with COEF_OUT written, or raises with COEF_OUT as it was (rules R147, R149). -/
theorem decodeBlock_frame (cfg : Config) (blk : BlkType) (u : DecUnit) :
    (decodeBlock cfg blk u).Sat
      (fun v => { u with active := false, coefOut := v.coefOut }.Frame syntaxContexts v)
      fun _ v => { u with active := v.active }.Frame syntaxContexts v := by
  rcases prime_cases u with ⟨-, hprime⟩ | ⟨-, hprime⟩
  · rw [decodeBlock, hprime, Res.bind_ok]
    have hsyntax := decodeBlockSyntax_frame cfg { u.primeRegs with active := true }
    cases hrun : decodeBlockSyntax cfg { u.primeRegs with active := true } with
    | ok lev v =>
      rw [hrun] at hsyntax
      obtain ⟨heq, hctx⟩ := (primed_frame syntaxContexts u).trans hsyntax
      exact ⟨by rw [heq], hctx⟩
    | raised e v =>
      rw [hrun] at hsyntax
      obtain ⟨heq, hctx⟩ := (primed_frame syntaxContexts u).trans hsyntax
      have hact : v.active = true := by rw [heq]
      exact ⟨by rw [hact]; exact heq, hctx⟩
  · rw [decodeBlock, hprime, Res.bind_raised]
    obtain ⟨heq, hctx⟩ := primeRegs_frame syntaxContexts u
    have hact : u.primeRegs.active = u.active := by rw [heq]
    exact ⟨by rw [hact]; exact heq, hctx⟩

/-! The bytes of IN_BUF (rules R37, R67). -/

/-- `v` has the bytes of IN_BUF that `u` has, the unwritten ones among them. -/
def DecUnit.SameBytes (u v : DecUnit) : Prop := ∀ a, v.inByteAt a = u.inByteAt a

theorem DecUnit.SameBytes.of_eq {u v : DecUnit} (hbuf : v.inBuf = u.inBuf) (hdraw : v.inDraw = u.inDraw) :
    u.SameBytes v := fun a => by
  rw [DecUnit.inByteAt, DecUnit.inByteAt, hbuf, hdraw]

theorem DecUnit.Frame.sameBytes {s : List (Fin 32)} {u v : DecUnit} (h : u.Frame s v) : u.SameBytes v :=
  .of_eq (by rw [h.1]) (by rw [h.1])

theorem endDec_sameBytes {s : State} {u : DecUnit} {x : Res DecUnit Unit}
    (hx : x.Sat u.SameBytes fun _ => u.SameBytes) : u.SameBytes (endDec s x).dec := by
  cases x with
  | ok _ v => exact hx
  | raised e v => exact hx

theorem guarded_sameBytes {c : Bool} {e : ErrCode} {s t : State} (h : s.dec.SameBytes t.dec) :
    s.dec.SameBytes (if c then t else raiseFault e s).dec := by
  split
  · exact h
  · exact fun _ => rfl

/-- No command writes IN_BUF (rules R62, R67). -/
theorem after_sameBytes (i : Instr) (s : State) : s.dec.SameBytes (after i s).dec := by
  cases i with
  | nop | decCtxReset => exact fun _ => rfl
  | encCtxReset | encStart | encBin _ _ | encFinish | encBlock _ _ =>
    rw [(after_encCommand_frame rfl s).2.1]
    exact fun _ => rfl
  | decLoad =>
    rw [after_decLoad]
    refine endDec_sameBytes ?_
    unfold loadStream
    split
    · exact fun _ => rfl
    · split <;> exact fun _ => rfl
  | decStart =>
    rw [after_decStart]
    refine guarded_sameBytes (endDec_sameBytes ?_)
    have hregs : s.dec.SameBytes s.dec.primeRegs := (primeRegs_frame [] s.dec).sameBytes
    rcases prime_cases s.dec with ⟨-, h⟩ | ⟨-, h⟩
    · rw [h]; exact hregs
    · rw [h]; exact hregs
  | decBin c =>
    rw [after_decBin]
    refine guarded_sameBytes (endDec_sameBytes (Res.Sat.bind (p := s.dec.SameBytes) ?_ fun _ _ hv => hv))
    exact (decodeBin_frame s.cfg c [c] (List.mem_singleton_self c) s.dec).imp (fun _ hv => hv.sameBytes)
      fun _ v hv => by rw [hv]; exact fun _ => rfl
  | decBlock blk comp =>
    rw [after_decBlock]
    refine guarded_sameBytes (endDec_sameBytes ?_)
    exact (decodeBlock_frame s.cfg blk s.dec).imp (fun _ hv => hv.sameBytes) fun _ _ hv => hv.sameBytes

end Sys2Proof.Machine
end

section
/-! Where commands store (rules R28, R62, R103), and the invariant through every step (rules R119 to R122, R146, R152). -/

namespace Sys2Proof.Machine

open Safety

/-! Buffers. -/

/-- The bytes below `lo` and from the new OUT_LEN up are those of `u`. -/
def EncUnit.KeepsOutside (lo : Nat) (u v : EncUnit) : Prop :=
  ∀ a, a < lo ∨ v.outLen.toNat ≤ a → v.outByteAt a = u.outByteAt a

theorem endEnc_keepsOutside {s : State} {lo : Nat} {u : EncUnit} {x : Res EncUnit Unit}
    (hx : x.Sat (u.KeepsOutside lo) fun _ => u.KeepsOutside lo) : u.KeepsOutside lo (endEnc s x).enc := by
  cases x with
  | ok _ v => exact hx
  | raised e v => exact hx

theorem guarded_keepsOutside {c : Bool} {e : ErrCode} {lo : Nat} {s t : State} (h : s.enc.KeepsOutside lo t.enc) :
    s.enc.KeepsOutside lo (if c then t else raiseFault e s).enc := by
  split
  · exact h
  · exact fun _ _ => rfl

theorem EncUnit.AppendsIn.keepsOutside {α : Type} {u : EncUnit} {x : Res EncUnit α} (hx : u.AppendsIn x) :
    x.Sat (u.KeepsOutside u.outLen.toNat) fun _ => u.KeepsOutside u.outLen.toNat :=
  hx.imp (fun _ h => h.bytes) fun _ _ h => h.bytes

section

variable (cfg : Config) (hcap : cfg.outCap ≤ 65536)

include hcap

/-- ENC_FINISH writes from the old OUT_LEN up to the new one. -/
theorem terminate_keepsOutside (u : EncUnit) :
    ((terminate cfg u).bind fun _ w => .ok () w.closed).Sat (u.KeepsOutside u.outLen.toNat)
      fun _ => u.KeepsOutside u.outLen.toNat :=
  Res.Sat.bind (terminate_appends cfg hcap u).keepsOutside fun _ _ hw => hw

/-- A session started anew writes from index 0 up to the new OUT_LEN. -/
theorem runSession_keepsOutside (bins : List (Bool × Fin 32)) (u : EncUnit) :
    (runSession cfg bins u).Sat (u.KeepsOutside 0) fun _ => u.KeepsOutside 0 := by
  have hbins := encodeBins_appends cfg hcap bins u.started
  refine Res.Sat.bind (p := u.started.Appends) (hbins.imp (fun _ h => h) fun _ _ h => h.bytes) fun _ v hv => ?_
  have hterm := terminate_appends cfg hcap v
  exact Res.Sat.bind (p := u.started.Appends) (hterm.imp (fun _ h => hv.trans h) fun _ _ h => (hv.trans h).bytes)
    fun _ _ hw => hw.bytes

end

/-- Settles O54: the encoder's procedures append at OUT_LEN, which a session of ENC_BLOCK sets to 0 first; no command writes
IN_BUF, and only these write OUT_BUF. -/
theorem bufferFrame : Obligations.BufferFrame := by
  intro s t i a hinv ht
  obtain rfl : after i s = t := Host.Outcome.next.inj ((exec_next i s).symm.trans ht)
  have hcap : s.cfg.outCap ≤ 65536 := hinv.1.1.2
  refine ⟨after_sameBytes i s a, ?_⟩
  cases i with
  | nop | encCtxReset | encStart => rfl
  | decCtxReset | decLoad | decStart | decBin _ | decBlock _ _ =>
    exact congrArg (EncUnit.outByteAt · a) (after_decCommand_frame rfl s).2.1
  | encBin c b =>
    simp only [after_encBin]
    exact guarded_keepsOutside (endEnc_keepsOutside (encodeBin_appends s.cfg hcap b c s.enc).keepsOutside) a
  | encFinish =>
    simp only [after_encFinish]
    exact guarded_keepsOutside (endEnc_keepsOutside (terminate_keepsOutside s.cfg hcap s.enc)) a
  | encBlock blk comp =>
    simp only [after_encBlock, encodeBlock_eq_runSession]
    exact fun ha => endEnc_keepsOutside (runSession_keepsOutside s.cfg hcap _ s.enc) a (.inr ha)

/-! The encoder's invariant. -/

theorem EncUnit.Ready.encOk {cfg : Config} {u : EncUnit} (h : u.Ready cfg) : EncOk cfg u :=
  encOk_of_track u (fun _ => ⟨⟨h.lo, h.hi⟩, h.track⟩) ⟨h.track.pend_ne, h.stored⟩

/-- Closing the session keeps what a fault keeps (rule R149). -/
theorem EncUnit.Loose.closed {cfg : Config} {u : EncUnit} (h : u.Loose cfg.outCap) : EncOk cfg u.closed :=
  encOk_of_track u.closed Bool.noConfusion h

theorem endEnc_encOk {s : State} {x : Res EncUnit Unit}
    (hx : x.Sat (EncOk s.cfg) fun _ v => v.Loose s.cfg.outCap) : EncOk s.cfg (endEnc s x).enc := by
  cases x with
  | ok _ v => exact hx
  | raised e v => exact EncUnit.Loose.closed hx

theorem encodeBin_encOk {cfg : Config} (hcap : cfg.outCap ≤ 65536) {u : EncUnit} (hu : u.Ready cfg) (b : Bool)
    (c : Fin 32) : (encodeBin cfg b c u).Sat (EncOk cfg) fun _ v => v.Loose cfg.outCap := by
  rcases encodeBin_cases cfg b c u hu.track hu.lo hu.hi hu.stored hcap with
    ⟨-, h⟩ | ⟨k, v, h, hv⟩ | ⟨v, h, hloose, -⟩ <;> rw [h]
  · exact hu.encOk.loose
  · exact hv.ready.encOk
  · exact hloose

theorem terminate_encOk {cfg : Config} (hcap : cfg.outCap ≤ 65536) {u : EncUnit} (hu : u.Ready cfg) :
    ((terminate cfg u).bind fun _ w => .ok () w.closed).Sat (EncOk cfg) fun _ v => v.Loose cfg.outCap := by
  rcases terminate_of_ready hu hcap with ⟨w, h, hw⟩ | ⟨w, h, -, hloose, -⟩ <;> rw [h]
  · have hfree : w.pendValid = false := by rw [hw.eq]
    exact EncUnit.Loose.closed ⟨fun hv => absurd (hfree.symm.trans hv) Bool.noConfusion, hw.stored⟩
  · exact hloose

theorem encodeBlock_encOk {cfg : Config} (hcap : cfg.outCap ≤ 65536) {u : EncUnit} (hu : u.Stored cfg.outCap)
    (blk : BlkType) : (encodeBlock cfg blk u).Sat (EncOk cfg) fun _ v => v.Loose cfg.outCap := by
  obtain ⟨hstart, -⟩ := u.started_ready cfg hu
  rcases encodeBins_sound cfg hcap (blockBins cfg blk u.coefIn) u.started hstart.track hstart.lo hstart.hi hstart.stored with
    ⟨v, h, htrack, hlo, hhi, hst⟩ | ⟨e, v, h, hloose⟩
  · rw [encodeBlock, h, Res.bind_ok]
    exact terminate_encOk hcap ⟨htrack, hlo, hhi, hst⟩
  · rw [encodeBlock, h, Res.bind_raised]
    exact hloose

/-- A guarded command keeps a property of its unit that its procedure keeps. -/
theorem guarded_encOk {c : Bool} {e : ErrCode} {cfg : Config} {s t : State} (hs : EncOk cfg s.enc)
    (ht : c = true → EncOk cfg t.enc) : EncOk cfg (if c then t else raiseFault e s).enc := by
  split
  case isTrue h => exact ht h
  case isFalse => exact hs

theorem after_encOk {s : State} (hcap : s.cfg.outCap ≤ 65536) (h : EncOk s.cfg s.enc) (i : Instr) :
    EncOk s.cfg (after i s).enc := by
  cases i with
  | nop | encCtxReset => exact h
  | encStart => exact (s.enc.started_ready s.cfg h.loose.2).1.encOk
  | encBin c b =>
    rw [after_encBin]
    exact guarded_encOk h fun ha => endEnc_encOk (encodeBin_encOk hcap (.of_encOk h ha) b c)
  | encFinish =>
    rw [after_encFinish]
    exact guarded_encOk h fun ha => endEnc_encOk (terminate_encOk hcap (.of_encOk h ha))
  | encBlock blk comp =>
    rw [after_encBlock]
    exact endEnc_encOk (encodeBlock_encOk hcap h.loose.2 blk)
  | decCtxReset | decLoad | decStart | decBin _ | decBlock _ _ =>
    rw [(after_decCommand_frame rfl s).2.1]
    exact h

/-! The decoder's invariant. -/

/-- A block closed keeps the invariant of the unit, whatever its coefficients (rule R147). -/
theorem decOk_blockDone {cfg : Config} {u : DecUnit} (h : DecOk cfg u) (coefs : Coefs) :
    DecOk cfg { u with coefOut := coefs, active := false } := by
  obtain ⟨-, -, hrest⟩ := h
  exact ⟨Bool.noConfusion, Bool.noConfusion, hrest⟩

theorem endDec_decOk {s : State} {x : Res DecUnit Unit} (hx : x.Sat (DecOk s.cfg) fun _ v => DecOk s.cfg v.failed) :
    DecOk s.cfg (endDec s x).dec := by
  cases x with
  | ok _ v => exact hx
  | raised e v => exact hx

theorem loadStream_decOk {cfg : Config} {u : DecUnit} (hu : DecOk cfg u) :
    (loadStream cfg u).Sat (DecOk cfg) fun _ v => DecOk cfg v.failed := by
  by_cases hshort : u.inLen.toNat < 2
  · rw [loadStream_of_short hshort]
    exact hu.failed
  · by_cases hlong : cfg.inCap < u.inLen.toNat
    · rw [loadStream_of_long (Nat.le_of_not_lt hshort) hlong]
      exact hu.failed
    · obtain ⟨-, -, -, -, -, hbuf⟩ := hu
      rw [loadStream_of_fits (Nat.le_of_not_lt hshort) (Nat.le_of_not_lt hlong)]
      exact ⟨Bool.noConfusion, fun _ => rfl, Nat.zero_le _, Nat.le_of_not_lt hlong, fun _ => Nat.le_of_not_lt hshort, hbuf⟩

theorem prime_decOk {cfg : Config} {u : DecUnit} (hu : DecOk cfg u) (hr : u.ready = true) :
    (prime u).Sat (DecOpen cfg) fun _ v => DecOk cfg v.failed := by
  rcases prime_cases u with ⟨hcode, h⟩ | ⟨-, h⟩ <;> rw [h]
  · exact hu.primed hr hcode
  · exact hu.primeRegs_failed

theorem decodeBlock_decOk {cfg : Config} {u : DecUnit} (hu : DecOk cfg u) (hr : u.ready = true) (blk : BlkType) :
    (decodeBlock cfg blk u).Sat (DecOk cfg) fun _ v => DecOk cfg v.failed := by
  refine (prime_decOk hu hr).bind fun _ v hv => Res.Sat.bind (p := DecOpen cfg) ?_ fun lev w hw => decOk_blockDone hw.1 _
  exact decodeBlockSyntax_sat (q := fun _ w => DecOk cfg w.failed)
    (fun c _ w hw => (decodeBin_open cfg c w hw).imp (fun _ h => h) fun _ _ h => h.failed) (fun _ hw => hw.1.failed) v hv

theorem guarded_decOk {c : Bool} {e : ErrCode} {cfg : Config} {s t : State} (hs : DecOk cfg s.dec)
    (ht : c = true → DecOk cfg t.dec) : DecOk cfg (if c then t else raiseFault e s).dec := by
  split
  case isTrue h => exact ht h
  case isFalse => exact hs

theorem after_decOk {s : State} (h : DecOk s.cfg s.dec) (i : Instr) : DecOk s.cfg (after i s).dec := by
  cases i with
  | nop | decCtxReset => exact h
  | decLoad =>
    rw [after_decLoad]
    exact endDec_decOk (loadStream_decOk h)
  | decStart =>
    rw [after_decStart]
    exact guarded_decOk h fun hr => endDec_decOk ((prime_decOk h hr).imp (fun _ hv => hv.1) fun _ _ hv => hv)
  | decBin c =>
    rw [after_decBin]
    refine guarded_decOk h fun ha => ?_
    obtain ⟨hopen, -⟩ := id h
    have hbin := decodeBin_open s.cfg c s.dec ⟨h, hopen ha⟩
    cases hrun : decodeBin s.cfg c s.dec with
    | ok b v => rw [hrun] at hbin; exact hbin.1
    | raised e v => rw [hrun] at hbin; exact DecOk.failed hbin
  | decBlock blk comp =>
    rw [after_decBlock]
    exact guarded_decOk h fun hr => endDec_decOk (decodeBlock_decOk h hr blk)
  | encCtxReset | encStart | encBin _ _ | encFinish | encBlock _ _ =>
    rw [(after_encCommand_frame rfl s).2.1]
    exact h

/-! The steps. -/

/-- BUSY is the code that no command raises (rules R151, R167). -/
theorem busy_not_mem_errors (i : Instr) : ErrCode.busy ∉ commandErrors i := by
  cases i <;> simp [commandErrors]

theorem after_statusOk (i : Instr) (s : State) : StatusOk (after i s).status := by
  have hended := after_ended i s
  refine ⟨hended.busy, after_err_ne_of_not_mem ErrCode.noConfusion (busy_not_mem_errors i) s, fun hne => ?_⟩
  rcases hended.outcome with ⟨hok, -⟩ | ⟨-, hfault⟩
  · exact absurd hok hne
  · exact hfault

/-- Every command keeps the invariant. -/
theorem after_inv {s : State} (h : Inv s) (i : Instr) : Inv (after i s) := by
  obtain ⟨hcaps, henc, hdec, -⟩ := h
  have hcfg := (after_ended i s).cfg
  unfold Safety.Inv
  rw [hcfg]
  exact ⟨hcaps, after_encOk hcaps.1.2 henc i, after_decOk hdec i, after_statusOk i s⟩

/-- A host write keeps the invariant: of what the invariant speaks of it changes IN_BUF alone, inside its capacity. -/
theorem writeReg_inv {s : State} (h : Inv s) {r : Reg} (hm : mapped s.cfg r = true) (w : Word) : Inv (s.writeReg w r) := by
  cases r with
  | inBuf i =>
    obtain ⟨hcaps, henc, ⟨hopen, hready, hnres, hlen, hmin, hwf, hbound⟩, hstatus⟩ := h
    exact ⟨hcaps, henc, ⟨hopen, hready, hnres, hlen, hmin, Memory.write_wf _ _ _ hwf,
      Memory.write_bound _ _ _ _ (of_decide_eq_true hm) hbound⟩, hstatus⟩
  | _ => exact h

/-- The reset values meet the invariant under any capacities of rule R9 (rules R45, R163). -/
theorem resetEvent_inv {s : State} (h : CapsOk s.cfg) (rest : List HostEvent) : Inv (s.resetEvent rest) :=
  ⟨h, ⟨Bool.noConfusion, Bool.noConfusion, Nat.zero_le _, List.Pairwise.nil, List.forall_mem_nil _⟩,
    ⟨Bool.noConfusion, Bool.noConfusion, Nat.zero_le _, Nat.zero_le _, Bool.noConfusion, List.Pairwise.nil,
      List.forall_mem_nil _⟩, rfl, ErrCode.noConfusion, fun h => absurd rfl h⟩

/-- Settles O56: of what a step can do, a read changes nothing the invariant speaks of, and a write, a command and the reset
event keep it; an illegal word sets ERR with FAULT. -/
theorem stepKeepsInvariant : Obligations.StepKeepsInvariant := by
  intro s t hinv hstep
  obtain ⟨-, rfl⟩ | ⟨rest, -, rfl⟩ | ⟨_, _, rest, r, -, -, -, rfl⟩ | ⟨bits, a, w, rest, r, -, hbus, -, -, rfl⟩ |
    ⟨bits, a, w, rest, -, -, -, hrun⟩ := step_cases hstep
  · exact hinv
  · exact resetEvent_inv hinv.1 rest
  · exact hinv
  · exact writeReg_inv (s := s.taken rest) hinv (busDecode_ok hbus).2.2 w
  · obtain ⟨i, -, rfl⟩ | ⟨-, rfl⟩ := runCommand_cases hrun
    · exact after_inv (s := s.taken rest) hinv i
    · obtain ⟨hcaps, henc, hdec, -⟩ := hinv
      exact ⟨hcaps, henc, hdec, rfl, ErrCode.noConfusion, fun _ => rfl⟩

end Sys2Proof.Machine
end

section
/-! DEC_START and DEC_BIN in closed form (rules R110 to R116). -/

namespace Sys2Proof.Machine

open Safety

/-- Settles O43: `prime_cases` on the registers of `DecUnit.primeRegs_eq`. -/
theorem decStartResult : Obligations.DecStartResult := by
  intro s
  refine ⟨fun hr => ?noStream, fun hr p hp => ?ready⟩
  case noStream => rw [exec_next, after_decStart, hr]; rfl
  case ready =>
    obtain rfl : p = s.dec.primeAt := hp
    have hcode : (inputByte s.dec s.dec.primeAt).toNat * 2 + (inputByte s.dec (s.dec.primeAt + 1)).toNat / 128 =
        s.dec.primeCode := rfl
    rw [hcode, exec_next, after_decStart, if_pos hr]
    rcases prime_cases s.dec with ⟨hvalid, hprime⟩ | ⟨hinvalid, hprime⟩
    · refine ⟨fun _ => ?_, fun h => absurd hvalid (Nat.not_lt.mpr h)⟩
      rw [hprime, s.dec.primeRegs_eq]
      rfl
    · refine ⟨fun h => absurd h (Nat.not_lt.mpr hinvalid), fun _ => ?_⟩
      rw [hprime, s.dec.primeRegs_eq]
      rfl

theorem eq_ofNat_of_toNat_eq {w n : Nat} {x : BitVec w} (h : x.toNat = n) : x = BitVec.ofNat w n := by
  rw [← h, BitVec.ofNat_toNat, BitVec.setWidth_eq]

/-- The bin is the LPS exactly where the offset reaches the MPS width. -/
theorem binOf_eq_mps_iff (c : Fin 32) (mps : Nat) (u : DecUnit) :
    u.binOf c mps = (u.ctx.get c).mps ↔ ¬ mps ≤ u.code.toNat := by
  unfold DecUnit.binOf
  split
  case isTrue h => simp [h]
  case isFalse h => simp [h]

/-- The bits to come are those of the unit before the bin's event (rule R112). -/
theorem upcomingValue_congr {u v : DecUnit} (h : ∀ j, upcomingBit v j = upcomingBit u j) (k : Nat) :
    upcomingValue v k = upcomingValue u k := by
  induction k with
  | zero => rfl
  | succ k ih => rw [upcomingValue, upcomingValue, ih, h]

/-- A bin of an open block under legal tables, as one update of the unit (rules R93, R110, R112, R113). -/
theorem decodeBin_closed {cfg : Config} (hlegal : cfg.Legal) {u : DecUnit} (hr : 256 ≤ u.r.toNat)
    (hcode : u.code.toNat < u.r.toNat) (c : Fin 32) {b : Bool}
    (hb : b = u.binOf c (mpsWidth cfg u.r (u.ctx.get c))) :
    ∃ k ≤ 8, 256 ≤ partWidth cfg u.r (u.ctx.get c) b * 2 ^ k ∧ partWidth cfg u.r (u.ctx.get c) b * 2 ^ k < 512 ∧
      decodeBin cfg c u = .ok b { u with
        r := BitVec.ofNat 9 (partWidth cfg u.r (u.ctx.get c) b * 2 ^ k),
        code := BitVec.ofNat 9 ((u.code.toNat -
          (if b = (u.ctx.get c).mps then 0 else mpsWidth cfg u.r (u.ctx.get c))) * 2 ^ k + upcomingValue u k),
        nres := BitVec.ofNat 4 (if k ≤ u.nres.toNat then u.nres.toNat - k else u.nres.toNat + 8 - k),
        res := if k ≤ u.nres.toNat then u.res else inputByte u u.cur.toNat,
        cur := if k ≤ u.nres.toNat then u.cur else advanceCursor u.cur,
        ctx := u.ctx.put c (entryAfter cfg (u.ctx.get c) b) } := by
  have hw := widths_eq_lpsWidth (e := u.ctx.get c) (hlegal.1 _) hr
  obtain ⟨-, hsum, hlps, hmps⟩ := widths_some hw
  generalize hm : mpsWidth cfg u.r (u.ctx.get c) = mps at *
  have hbm : b = (u.ctx.get c).mps ↔ ¬ mps ≤ u.code.toNat := by rw [hb]; exact binOf_eq_mps_iff c mps u
  have hpart : partWidth cfg u.r (u.ctx.get c) b = if mps ≤ u.code.toNat then lpsWidth cfg u.r (u.ctx.get c) else mps := by
    simp only [partWidth, hbm, hm, ite_not]
  have hentry : entryAfter cfg (u.ctx.get c) b =
      if mps ≤ u.code.toNat then (u.ctx.get c).lpsUpdate cfg else (u.ctx.get c).mpsUpdate cfg := by
    simp only [entryAfter, hbm, ite_not]
  have hoffset : u.code.toNat - (if b = (u.ctx.get c).mps then 0 else mps) =
      if mps ≤ u.code.toNat then u.code.toNat - mps else u.code.toNat := by
    simp only [hbm, ite_not]
    split <;> rfl
  obtain ⟨hpos, hlt⟩ := partWidth_bounds hlegal hr (u.ctx.get c) b
  obtain ⟨k, hk, hlo, hhi⟩ := exists_doublings _ hpos hlt
  refine ⟨k, hk, hlo, hhi, ?_⟩
  rw [hentry, hoffset]
  rw [hpart] at hlo hhi ⊢
  obtain ⟨tr, tcode, tlt, tbits, ⟨tlen, tready, tactive, tinBuf, tinDraw, tinLen, tcoef⟩, tctx⟩ :=
    takeBin_spec cfg c _ mps u hsum hlps hmps hcode
  obtain ⟨inres, ires, icur, ibytes⟩ := takeBin_input cfg c (lpsWidth cfg u.r (u.ctx.get c)) mps u
  generalize hv : u.takeBin cfg c (lpsWidth cfg u.r (u.ctx.get c)) mps = v at *
  rw [← tr] at hlo hhi
  obtain ⟨dr, dcode, -, -, -⟩ := renormD_closed k 8 v hk hlo hhi tlt
  obtain ⟨nnres, nres', ncur⟩ := renormD_input k 8 v hk hlo hhi (by omega)
  rw [inres] at nnres
  rw [inres, ires, icur, ibytes] at nres'
  rw [inres, icur] at ncur
  rw [tr] at dr
  rw [tcode, upcomingValue_congr tbits] at dcode
  have hrun : decodeBin cfg c u = .ok b (renormD 8 v) := by
    rw [decodeBin, hw]
    simp only [hv, hb]
  rw [hrun, renormD_frame 8 v, eq_ofNat_of_toNat_eq dr, eq_ofNat_of_toNat_eq dcode, eq_ofNat_of_toNat_eq nnres, nres', ncur,
    tlen, tready, tactive, tinBuf, tinDraw, tinLen, tcoef, tctx]

/-- Settles O44: the bin and the unit of `decodeBin_closed`, with the bin noted in STATUS. -/
theorem decBinResult : Obligations.DecBinResult := by
  intro s c b hlegal ha hr hcode hb
  obtain ⟨k, hk, hlo, hhi, hbin⟩ := decodeBin_closed hlegal hr hcode c hb
  refine ⟨k, hk, hlo, hhi, ?_⟩
  rw [exec_next, after_decBin, if_pos ha, hbin]
  rfl

end Sys2Proof.Machine
end

section
/-! The coded positions and the reconstruction (rules R130, R131, R135). -/

namespace Sys2Proof.Machine

open Safety

/-- The coded positions are an initial part of the significant ones, not empty if any is. -/
theorem decodeLast_prefix {cfg : Config} {is coded : List (Fin 16)} {u v : DecUnit}
    (h : decodeLast cfg is u = .ok coded v) : coded <+: is ∧ (is ≠ [] → coded ≠ []) := by
  induction is generalizing coded u with
  | nil =>
    cases h
    exact ⟨List.prefix_rfl, id⟩
  | cons i is ih =>
    obtain ⟨b, w, -, h⟩ := Res.bind_eq_ok.mp h
    split at h
    · cases h
      exact ⟨List.prefix_cons_inj i |>.mpr (List.nil_prefix), fun _ => List.cons_ne_nil _ _⟩
    · obtain ⟨rest, x, hrest, h⟩ := Res.bind_eq_ok.mp h
      cases h
      exact ⟨List.prefix_cons_inj i |>.mpr (ih hrest).1, fun _ => List.cons_ne_nil _ _⟩

/-- Settles O50: by the recursion of `decodeLast`. -/
theorem codedPositions : Obligations.CodedPositions := by
  refine ⟨fun cfg is coded u v => decodeLast_prefix, fun cfg i rest u v h => ?last, fun cfg i rest coded u v w h hrest => ?goOn⟩
  case last => rw [decodeLast, h]; rfl
  case goOn => rw [decodeLast, h, Res.bind_ok, if_neg Bool.false_ne_true, hrest]; rfl

/-- Under rule R10 a scan order reaches every position. -/
theorem scan_surjective {cfg : Config} (hlegal : cfg.Legal) (blk : BlkType) : Function.Surjective (scan cfg blk).get := by
  obtain ⟨-, hinter, hfield, -⟩ := hlegal
  cases blk with
  | inter => exact hinter
  | field => exact hfield

theorem scan_injective {cfg : Config} (hlegal : cfg.Legal) (blk : BlkType) : Function.Injective (scan cfg blk).get :=
  Finite.injective_iff_surjective.mpr (scan_surjective hlegal blk)

/-- Writes at distinct positions, in any order, leave each index's value at its own position. -/
theorem get_foldl_set {order : Vector (Fin 16) 16} (horder : Function.Injective order.get) (lev : Coefs)
    (is : List (Fin 16)) (out : Coefs) (i : Fin 16) :
    (is.foldl (fun o k => o.set (order.get k) (lev.get k)) out).get (order.get i) =
      if i ∈ is then lev.get i else out.get (order.get i) := by
  induction is generalizing out with
  | nil => simp
  | cons k is ih =>
    rw [List.foldl_cons, ih]
    by_cases hmem : i ∈ is
    · simp [hmem]
    · by_cases hik : i = k
      · subst hik
        simp [hmem, get_set_self]
      · have hne : order.get i ≠ order.get k := fun h => hik (horder h)
        simp [hmem, hik, get_set_ne _ _ _ _ hne]

theorem mem_scanIndices (i : Fin 16) : i ∈ scanIndices := by
  revert i; decide

theorem get_scatter {cfg : Config} (hlegal : cfg.Legal) (blk : BlkType) (lev out : Coefs) (i : Fin 16) :
    (scatter (scan cfg blk) lev out).get ((scan cfg blk).get i) = lev.get i := by
  rw [scatter, get_foldl_set (scan_injective hlegal blk), if_pos (mem_scanIndices i)]

/-- Settles O51: a legal scan order is one to one, so each level stays where it is put. -/
theorem reconstructionInvertsScan : Obligations.ReconstructionInvertsScan := by
  intro cfg blk lev out i hlegal
  have hget := get_scatter hlegal blk lev out i
  exact ⟨hget, congrArg BitVec.toInt hget⟩

end Sys2Proof.Machine
end

section
/-! One level (rules R133, R134, R137): its bins read in order, and the test of the number they spell. -/

namespace Sys2Proof.Machine

open Safety

/-- The bins of one level read: the ones of the prefix, the suffix and the sign. -/
def readLevel (cfg : Config) (i : Fin 16) (u : DecUnit) : Res DecUnit (Nat × Nat × Bool) :=
  (decodePrefix cfg i Config.prefixLimit 0 u).bind fun ones u =>
  (if 0 < ones then decodeSuffix cfg [0, 1, 2, 3] 0 u else .ok 0 u).bind fun suffix u =>
  (decodeBin cfg signCtx u).bind fun negative u => .ok (ones, suffix, negative) u

/-- The test of rule R133 on the level that the bins spell. -/
def checkLevel (p : Nat × Nat × Bool) (u : DecUnit) : Res DecUnit Int :=
  if FitsCoef (levelValue p.1 p.2.1 p.2.2) then .ok (levelValue p.1 p.2.1 p.2.2) u else .raised .levelRange u

theorem decodeLevel_eq (cfg : Config) (i : Fin 16) (u : DecUnit) :
    decodeLevel cfg i u = (readLevel cfg i u).bind checkLevel := by
  have hcheck (ones suffix : Nat) (negative : Bool) (u : DecUnit) :
      (let v : Int := ones * 15 + suffix
        let level : Int := if negative then -(v + 1) else v + 1
        if level < -2 ^ (Config.coefW - 1) ∨ 2 ^ (Config.coefW - 1) - 1 < level then .raised .levelRange u
        else .ok level u) = checkLevel (ones, suffix, negative) u := by
    have hvalue : (if negative then -((ones * 15 + suffix : Int) + 1) else (ones * 15 + suffix : Int) + 1) =
        levelValue ones suffix negative := by
      unfold levelValue
      split <;> ring
    simp only [hvalue, checkLevel]
    have hfits : (levelValue ones suffix negative < -2 ^ (Config.coefW - 1) ∨
        2 ^ (Config.coefW - 1) - 1 < levelValue ones suffix negative) ↔ ¬ FitsCoef (levelValue ones suffix negative) := by
      show levelValue ones suffix negative < -2 ^ 15 ∨ 2 ^ 15 - 1 < levelValue ones suffix negative ↔ _
      unfold FitsCoef
      omega
    simp only [hfits, ite_not]
  simp only [decodeLevel, readLevel, Res.bind_assoc, Res.bind_ok, ← hcheck]

/-- The suffix is read behind a one alone. -/
theorem suffix_iff {cfg : Config} {ones suffix : Nat} {u v : DecUnit} :
    (if 0 < ones then decodeSuffix cfg [0, 1, 2, 3] 0 u else .ok 0 u) = .ok suffix v ↔
      (suffix < 16 ∧ (ones = 0 → suffix = 0)) ∧ Reads cfg
        (if 0 < ones then
          [(suffix.testBit 3, 21), (suffix.testBit 2, 22), (suffix.testBit 1, 23), (suffix.testBit 0, 24)]
        else []) u v := by
  by_cases hones : 0 < ones
  · have hne : ones ≠ 0 := Nat.pos_iff_ne_zero.mp hones
    simp only [if_pos hones, decodeSuffix_iff, hne, false_implies, and_true]
  · have hzero : ones = 0 := Nat.eq_zero_of_not_pos hones
    rw [if_neg hones, if_neg hones, Res.ok.injEq, reads_nil]
    constructor
    · rintro ⟨rfl, rfl⟩
      exact ⟨⟨by decide, fun _ => rfl⟩, rfl⟩
    · rintro ⟨⟨-, hsuffix⟩, rfl⟩
      exact ⟨(hsuffix hzero).symm, rfl⟩

/-- The bins are read exactly where they are those of the level's syntax. -/
theorem readLevel_ok_iff {cfg : Config} {i : Fin 16} {ones suffix : Nat} {negative : Bool} {u v : DecUnit} :
    readLevel cfg i u = .ok (ones, suffix, negative) v ↔
      LevelFields ones suffix ∧ Reads cfg (levelSyntax i ones suffix negative) u v := by
  have hlimit : Config.prefixLimit = 2185 := rfl
  simp only [readLevel, Res.bind_eq_ok, decodePrefix_ok_iff, suffix_iff, hlimit, Nat.zero_add, levelSyntax, reads_append,
    Res.ok.injEq, Prod.mk.injEq, reads_one (c := 25)]
  constructor
  · rintro ⟨_, w, ⟨k, hk, rfl, hpre⟩, _, x, ⟨hfields, hsuf⟩, _, y, hsign, ⟨rfl, rfl, rfl⟩, rfl⟩
    exact ⟨⟨hk, hfields⟩, x, ⟨w, hpre, hsuf⟩, hsign⟩
  · rintro ⟨⟨hk, hfields⟩, x, ⟨w, hpre, hsuf⟩, hsign⟩
    exact ⟨ones, w, ⟨ones, hk, rfl, hpre⟩, suffix, x, ⟨hfields, hsuf⟩, negative, v, hsign, ⟨rfl, rfl, rfl⟩, rfl⟩

/-- Reading the bins raises LEVEL_RANGE exactly at the 2185th one of the prefix. -/
theorem readLevel_raised_iff {cfg : Config} {i : Fin 16} {u v : DecUnit} :
    readLevel cfg i u = .raised .levelRange v ↔ Reads cfg (List.replicate 2185 (true, prefixCtx i)) u v := by
  have hsuffix (ones : Nat) (w : DecUnit) :
      (if 0 < ones then decodeSuffix cfg [0, 1, 2, 3] 0 w else .ok 0 w) ≠ .raised .levelRange v := by
    split
    · exact decodeSuffix_ne_levelRange
    · exact nofun
  have hlimit : Config.prefixLimit = 2185 := rfl
  simp only [readLevel, Res.bind_eq_raised, decodePrefix_raised_iff, hlimit, hsuffix, decodeBin_ne_levelRange,
    reduceCtorEq, and_false, exists_false, or_false]

theorem checkLevel_ok_iff {ones suffix : Nat} {negative : Bool} {x : Int} {u v : DecUnit} :
    checkLevel (ones, suffix, negative) u = .ok x v ↔ x = levelValue ones suffix negative ∧ FitsCoef x ∧ u = v := by
  unfold checkLevel
  split
  case isTrue h =>
    rw [Res.ok.injEq]
    exact ⟨fun ⟨hx, hv⟩ => ⟨hx.symm, hx ▸ h, hv⟩, fun ⟨hx, _, hv⟩ => ⟨hx.symm, hv⟩⟩
  case isFalse h => exact iff_of_false nofun fun ⟨hx, hfits, _⟩ => h (hx ▸ hfits)

theorem checkLevel_raised_iff {ones suffix : Nat} {negative : Bool} {u v : DecUnit} :
    checkLevel (ones, suffix, negative) u = .raised .levelRange v ↔
      ¬ FitsCoef (levelValue ones suffix negative) ∧ u = v := by
  unfold checkLevel
  split
  case isTrue h => exact iff_of_false nofun fun ⟨hnot, _⟩ => hnot h
  case isFalse h => simp [h]

/-- Where a level decodes (rules R133, R134). -/
theorem decodeLevel_ok_iff {cfg : Config} {i : Fin 16} {u v : DecUnit} {x : Int} :
    decodeLevel cfg i u = .ok x v ↔
      ∃ ones suffix negative, LevelFields ones suffix ∧ x = levelValue ones suffix negative ∧ FitsCoef x ∧
        Reads cfg (levelSyntax i ones suffix negative) u v := by
  rw [decodeLevel_eq, Res.bind_eq_ok]
  constructor
  · rintro ⟨⟨ones, suffix, negative⟩, w, hread, hcheck⟩
    obtain ⟨hx, hfits, rfl⟩ := checkLevel_ok_iff.mp hcheck
    obtain ⟨hfields, hreads⟩ := readLevel_ok_iff.mp hread
    exact ⟨ones, suffix, negative, hfields, hx, hfits, hreads⟩
  · rintro ⟨ones, suffix, negative, hfields, hx, hfits, hreads⟩
    exact ⟨_, v, readLevel_ok_iff.mpr ⟨hfields, hreads⟩, checkLevel_ok_iff.mpr ⟨hx, hfits, rfl⟩⟩

/-- Where a level raises LEVEL_RANGE (rules R133, R134). -/
theorem decodeLevel_raised_iff {cfg : Config} {i : Fin 16} {u v : DecUnit} :
    decodeLevel cfg i u = .raised .levelRange v ↔
      Reads cfg (List.replicate 2185 (true, prefixCtx i)) u v ∨
      ∃ ones suffix negative, LevelFields ones suffix ∧ ¬ FitsCoef (levelValue ones suffix negative) ∧
        Reads cfg (levelSyntax i ones suffix negative) u v := by
  rw [decodeLevel_eq, Res.bind_eq_raised, readLevel_raised_iff]
  refine or_congr_right ⟨?_, ?_⟩
  · rintro ⟨⟨ones, suffix, negative⟩, w, hread, hcheck⟩
    obtain ⟨hnot, rfl⟩ := checkLevel_raised_iff.mp hcheck
    obtain ⟨hfields, hreads⟩ := readLevel_ok_iff.mp hread
    exact ⟨ones, suffix, negative, hfields, hnot, hreads⟩
  · rintro ⟨ones, suffix, negative, hfields, hnot, hreads⟩
    exact ⟨_, v, readLevel_ok_iff.mpr ⟨hfields, hreads⟩, checkLevel_raised_iff.mpr ⟨hnot, rfl⟩⟩

/-- The levels that bins can spell (rule R137): a suffix needs a one in the prefix. -/
theorem natAbs_levelValue {ones suffix : Nat} (h : LevelFields ones suffix) (negative : Bool) :
    (levelValue ones suffix negative).natAbs = 1 ∨ 16 ≤ (levelValue ones suffix negative).natAbs := by
  obtain ⟨-, -, hsuffix⟩ := h
  have habs : (levelValue ones suffix negative).natAbs = 15 * ones + suffix + 1 := by
    unfold levelValue
    split <;> omega
  omega

end Sys2Proof.Machine
end

section
/-! Levels of a block's syntax, one at a time. -/

namespace Sys2Proof.Safety

open Machine

/-- The block with another level at one scan index. -/
def BlockSyntax.setLevel (g : BlockSyntax) (i : Fin 16) (ones suffix : Nat) (negative : Bool) : BlockSyntax where
  sig := g.sig
  last := g.last
  ones := Function.update g.ones i ones
  suffix := Function.update g.suffix i suffix
  negative := Function.update g.negative i negative

/-- A block of zeros, to set levels in. -/
def BlockSyntax.blank : BlockSyntax where
  sig _ := false
  last _ := false
  ones _ := 0
  suffix _ := 0
  negative _ := false

/-- The bins at which the level of scan index `i` raises LEVEL_RANGE (rules R133, R134). -/
def BlockSyntax.OutOfRange (g : BlockSyntax) (i : Fin 16) (bins : List (Bool × Fin 32)) : Prop :=
  bins = List.replicate 2185 (true, prefixCtx i) ∨
    bins = g.levelBins [i] ∧ LevelFields (g.ones i) (g.suffix i) ∧ ¬ FitsCoef (g.level i)

variable {g : BlockSyntax} {i k : Fin 16} {ones suffix : Nat} {negative : Bool}

theorem BlockSyntax.level_setLevel_same :
    (g.setLevel i ones suffix negative).level i = levelValue ones suffix negative := by
  simp [BlockSyntax.level, BlockSyntax.setLevel]

theorem BlockSyntax.level_setLevel_ne (h : k ≠ i) : (g.setLevel i ones suffix negative).level k = g.level k := by
  simp [BlockSyntax.level, BlockSyntax.setLevel, h]

theorem BlockSyntax.fields_setLevel_same :
    LevelFields ((g.setLevel i ones suffix negative).ones i) ((g.setLevel i ones suffix negative).suffix i) ↔
      LevelFields ones suffix := by
  simp [BlockSyntax.setLevel]

theorem BlockSyntax.fields_setLevel_ne (h : k ≠ i) :
    LevelFields ((g.setLevel i ones suffix negative).ones k) ((g.setLevel i ones suffix negative).suffix k) ↔
      LevelFields (g.ones k) (g.suffix k) := by
  simp [BlockSyntax.setLevel, h]

theorem BlockSyntax.levelOk_setLevel_same :
    (g.setLevel i ones suffix negative).LevelOk i ↔
      LevelFields ones suffix ∧ FitsCoef (levelValue ones suffix negative) := by
  rw [BlockSyntax.LevelOk, fields_setLevel_same, level_setLevel_same]

theorem BlockSyntax.levelOk_setLevel_ne (h : k ≠ i) : (g.setLevel i ones suffix negative).LevelOk k ↔ g.LevelOk k := by
  rw [BlockSyntax.LevelOk, fields_setLevel_ne h, level_setLevel_ne h]

theorem BlockSyntax.levelBins_cons (is : List (Fin 16)) :
    g.levelBins (i :: is) = levelSyntax i (g.ones i) (g.suffix i) (g.negative i) ++ g.levelBins is := rfl

theorem BlockSyntax.levelBins_setLevel_same :
    (g.setLevel i ones suffix negative).levelBins [i] = levelSyntax i ones suffix negative := by
  simp [BlockSyntax.levelBins, BlockSyntax.setLevel]

theorem BlockSyntax.levelBins_setLevel {is : List (Fin 16)} (h : i ∉ is) :
    (g.setLevel i ones suffix negative).levelBins is = g.levelBins is := by
  refine List.flatMap_congr fun k hk => ?_
  have hne : k ≠ i := fun e => h (e ▸ hk)
  simp [BlockSyntax.setLevel, hne]

theorem BlockSyntax.levelBins_cons_setLevel {is : List (Fin 16)} (h : i ∉ is) :
    (g.setLevel i ones suffix negative).levelBins (i :: is) = levelSyntax i ones suffix negative ++ g.levelBins is := by
  rw [levelBins_cons, levelBins_setLevel h]
  simp [BlockSyntax.setLevel]

theorem BlockSyntax.OutOfRange.setLevel_ne {bins : List (Bool × Fin 32)} (hout : g.OutOfRange k bins) (h : k ≠ i) :
    (g.setLevel i ones suffix negative).OutOfRange k bins := by
  have hbins : (g.setLevel i ones suffix negative).levelBins [k] = g.levelBins [k] :=
    levelBins_setLevel fun hm => h (List.mem_singleton.mp hm).symm
  rwa [OutOfRange, hbins, fields_setLevel_ne h, level_setLevel_ne h]

end Sys2Proof.Safety
end

section
/-! The levels of a block (rules R130, R133): the bins read, and those at which LEVEL_RANGE is raised. -/

namespace Sys2Proof.Machine

open Safety

theorem decodeLevels_ok_iff {cfg : Config} {is : List (Fin 16)} (his : is.Nodup) {lev lev' : Coefs} {u v : DecUnit} :
    decodeLevels cfg is lev u = .ok lev' v ↔
      ∃ g : BlockSyntax, (∀ i ∈ is, g.LevelOk i) ∧ Reads cfg (g.levelBins is) u v ∧
        ∀ k, lev'.get k = if k ∈ is then BitVec.ofInt 16 (g.level k) else lev.get k := by
  induction is generalizing lev u with
  | nil =>
    rw [decodeLevels, Res.ok.injEq]
    constructor
    · rintro ⟨rfl, rfl⟩
      exact ⟨.blank, by simp, reads_nil.mpr rfl, by simp⟩
    · rintro ⟨g, -, hreads, hget⟩
      exact ⟨Vector.ext fun k hk => ((hget ⟨k, hk⟩).trans (if_neg List.not_mem_nil)).symm, reads_nil.mp hreads⟩
  | cons i is ih =>
    obtain ⟨hi, his⟩ := List.nodup_cons.mp his
    rw [decodeLevels, Res.bind_eq_ok]
    constructor
    · rintro ⟨x, w, hlevel, hrest⟩
      obtain ⟨ones, suffix, negative, hfields, rfl, hfits, hread⟩ := decodeLevel_ok_iff.mp hlevel
      obtain ⟨g, hok, hreads, hget⟩ := (ih his).mp hrest
      refine ⟨g.setLevel i ones suffix negative, fun k hk => ?ok, ?reads, fun k => ?get⟩
      case ok =>
        rcases List.mem_cons.mp hk with rfl | hk
        · exact BlockSyntax.levelOk_setLevel_same.mpr ⟨hfields, hfits⟩
        · exact (BlockSyntax.levelOk_setLevel_ne (ne_of_mem_of_not_mem hk hi)).mpr (hok k hk)
      case reads =>
        rw [BlockSyntax.levelBins_cons_setLevel hi, reads_append]
        exact ⟨w, hread, hreads⟩
      case get =>
        by_cases hki : k = i
        · subst hki
          rw [hget, if_neg hi, get_set_self, if_pos List.mem_cons_self, BlockSyntax.level_setLevel_same]
        · rw [hget, get_set_ne _ _ _ _ hki, BlockSyntax.level_setLevel_ne hki]
          simp [hki]
    · rintro ⟨g, hok, hreads, hget⟩
      rw [BlockSyntax.levelBins_cons, reads_append] at hreads
      obtain ⟨w, hread, hreads⟩ := hreads
      obtain ⟨hfields, hfits⟩ := hok i List.mem_cons_self
      refine ⟨g.level i, w, decodeLevel_ok_iff.mpr ⟨_, _, _, hfields, rfl, hfits, hread⟩,
        (ih his).mpr ⟨g, fun k hk => hok k (List.mem_cons_of_mem _ hk), hreads, fun k => ?_⟩⟩
      by_cases hki : k = i
      · subst hki
        rw [hget, if_pos List.mem_cons_self, if_neg hi, get_set_self]
      · rw [hget, get_set_ne _ _ _ _ hki]
        simp [hki]

theorem decodeLevels_raised_iff {cfg : Config} {is : List (Fin 16)} (his : is.Nodup) {lev : Coefs} {u v : DecUnit} :
    decodeLevels cfg is lev u = .raised .levelRange v ↔
      ∃ (g : BlockSyntax) (done rest : List (Fin 16)) (i : Fin 16) (bins : List (Bool × Fin 32)),
        is = done ++ i :: rest ∧ (∀ j ∈ done, g.LevelOk j) ∧ g.OutOfRange i bins ∧
        Reads cfg (g.levelBins done ++ bins) u v := by
  induction is generalizing lev u with
  | nil => simp [decodeLevels]
  | cons i is ih =>
    obtain ⟨hi, his⟩ := List.nodup_cons.mp his
    rw [decodeLevels, Res.bind_eq_raised, decodeLevel_raised_iff]
    constructor
    · rintro ((hread | ⟨ones, suffix, negative, hfields, hfits, hread⟩) | ⟨x, w, hlevel, hrest⟩)
      · exact ⟨.blank, [], is, i, _, rfl, by simp, .inl rfl, hread⟩
      · refine ⟨BlockSyntax.blank.setLevel i ones suffix negative, [], is, i, _, rfl, by simp, .inr ⟨rfl, ?_, ?_⟩, ?_⟩
        · exact BlockSyntax.fields_setLevel_same.mpr hfields
        · rwa [BlockSyntax.level_setLevel_same]
        · rw [BlockSyntax.levelBins_setLevel_same]
          exact hread
      · obtain ⟨ones, suffix, negative, hfields, rfl, hfits, hread⟩ := decodeLevel_ok_iff.mp hlevel
        obtain ⟨g, done, rest, j, bins, rfl, hok, hout, hreads⟩ := (ih his).mp hrest
        have hdone : i ∉ done := fun h => hi (List.mem_append_left _ h)
        have hj : j ≠ i := fun e => hi (e ▸ List.mem_append_right _ List.mem_cons_self)
        refine ⟨g.setLevel i ones suffix negative, i :: done, rest, j, bins, rfl, fun k hk => ?ok, hout.setLevel_ne hj,
          ?reads⟩
        case ok =>
          rcases List.mem_cons.mp hk with rfl | hk
          · exact BlockSyntax.levelOk_setLevel_same.mpr ⟨hfields, hfits⟩
          · exact (BlockSyntax.levelOk_setLevel_ne (ne_of_mem_of_not_mem hk hdone)).mpr (hok k hk)
        case reads =>
          rw [BlockSyntax.levelBins_cons_setLevel hdone, List.append_assoc, reads_append]
          exact ⟨w, hread, hreads⟩
    · rintro ⟨g, done, rest, j, bins, hsplit, hok, hout, hreads⟩
      cases done with
      | nil =>
        obtain ⟨rfl, rfl⟩ := List.cons.inj hsplit
        rcases hout with rfl | ⟨rfl, hfields, hfits⟩
        · exact .inl (.inl hreads)
        · refine .inl (.inr ⟨_, _, _, hfields, hfits, ?_⟩)
          simpa [BlockSyntax.levelBins] using hreads
      | cons k done =>
        obtain ⟨rfl, rfl⟩ := List.cons.inj hsplit
        rw [BlockSyntax.levelBins_cons, List.append_assoc, reads_append] at hreads
        obtain ⟨w, hread, hreads⟩ := hreads
        obtain ⟨hfields, hfits⟩ := hok i List.mem_cons_self
        exact .inr ⟨g.level i, w, decodeLevel_ok_iff.mpr ⟨_, _, _, hfields, rfl, hfits, hread⟩,
          (ih his).mpr ⟨g, done, rest, j, bins, rfl, fun k hk => hok k (List.mem_cons_of_mem _ hk), hout, hreads⟩⟩

theorem scanIndices_pairwise : scanIndices.Pairwise (· < ·) := by decide

theorem significant_nodup (sig : Fin 16 → Bool) : (scanIndices.filter sig).Nodup :=
  (scanIndices_pairwise.imp fun h => ne_of_lt h).filter _

theorem coded_reverse_nodup (g : BlockSyntax) : g.coded.reverse.Nodup :=
  List.nodup_reverse.mpr ((significant_nodup g.sig).sublist (codedOf_sublist _ _))

/-- Phases 1 and 2 read the flags of a block (rules R130, R131). -/
theorem decodeFlags_iff {cfg : Config} {coded : List (Fin 16)} {u v : DecUnit} :
    ((decodeSig cfg scanIndices (Vector.replicate 16 false) u).bind fun sig u =>
      decodeLast cfg (scanIndices.filter sig.get) u) = .ok coded v ↔
      ∃ g : BlockSyntax, coded = g.coded ∧ Reads cfg g.flagBins u v := by
  simp only [Res.bind_eq_ok, decodeSig_iff scanIndices_pairwise, mem_scanIndices, not_true_eq_false, false_implies,
    implies_true, true_and, decodeLast_iff (significant_nodup _), BlockSyntax.flagBins, reads_append]
  constructor
  · rintro ⟨sig, w, hsig, last, rfl, hlast⟩
    exact ⟨{ BlockSyntax.blank with sig := sig.get, last := last }, rfl, w, hsig, hlast⟩
  · rintro ⟨g, rfl, w, hsig, hlast⟩
    have hget : (Vector.ofFn g.sig).get = g.sig := funext fun i => by simp [Vector.get_eq_getElem]
    exact ⟨Vector.ofFn g.sig, w, by rw [hget]; exact hsig, g.last, by rw [hget]; rfl, hlast⟩

end Sys2Proof.Machine
end

section
/-! The block syntax of the decoder as the bins it reads (rules R130 to R134), and DEC_BLOCK as DEC_START, those bins and the
reconstruction (rule R150). -/

namespace Sys2Proof.Machine

open Safety

theorem decodeBlockSyntax_eq (cfg : Config) (u : DecUnit) :
    decodeBlockSyntax cfg u =
      ((decodeSig cfg scanIndices (Vector.replicate 16 false) u).bind fun sig u =>
        decodeLast cfg (scanIndices.filter sig.get) u).bind fun coded u =>
      decodeLevels cfg coded.reverse Coefs.zero u := (Res.bind_assoc _ _ _).symm

/-- The flags of one block with the levels of another; at a given list of positions its level bins are the other's. -/
def withFlagsOf (g levels : BlockSyntax) : BlockSyntax := { levels with sig := g.sig, last := g.last }

theorem get_levels (g : BlockSyntax) (k : Fin 16) :
    g.levels.get k = if k ∈ g.coded then BitVec.ofInt 16 (g.level k) else 0 := by
  simp [BlockSyntax.levels, Vector.get_eq_getElem]

/-- The syntax goes through exactly where the bins are those of a block whose coded levels fit (rules R130 to R134). -/
theorem decodeBlockSyntax_ok_iff {cfg : Config} {lev : Coefs} {u v : DecUnit} :
    decodeBlockSyntax cfg u = .ok lev v ↔
      ∃ g : BlockSyntax, (∀ i ∈ g.coded, g.LevelOk i) ∧ Reads cfg g.bins u v ∧ lev = g.levels := by
  rw [decodeBlockSyntax_eq, Res.bind_eq_ok]
  constructor
  · rintro ⟨_, w, hrun, hlevels⟩
    obtain ⟨f, rfl, hflags⟩ := decodeFlags_iff.mp hrun
    obtain ⟨g, hok, hreads, hget⟩ := (decodeLevels_ok_iff (coded_reverse_nodup f)).mp hlevels
    refine ⟨withFlagsOf f g, fun i hi => hok i (List.mem_reverse.mpr hi), reads_append.mpr ⟨w, hflags, hreads⟩, ?_⟩
    refine Vector.ext fun k hk => ?_
    have hk' := hget ⟨k, hk⟩
    simp only [List.mem_reverse, Coefs.get_zero] at hk'
    exact hk'.trans (get_levels (withFlagsOf f g) ⟨k, hk⟩).symm
  · rintro ⟨g, hok, hreads, rfl⟩
    obtain ⟨w, hflags, hreads⟩ := reads_append.mp hreads
    refine ⟨g.coded, w, decodeFlags_iff.mpr ⟨g, rfl, hflags⟩, (decodeLevels_ok_iff (coded_reverse_nodup g)).mpr
      ⟨g, fun i hi => hok i (List.mem_reverse.mp hi), hreads, fun k => ?_⟩⟩
    simp only [get_levels, List.mem_reverse, Coefs.get_zero]

theorem decodeSig_ne_levelRange {cfg : Config} {is : List (Fin 16)} {sig : Vector Bool 16} {u v : DecUnit} :
    decodeSig cfg is sig u ≠ .raised .levelRange v := by
  induction is generalizing sig u with
  | nil => exact nofun
  | cons i is ih =>
    intro h
    rcases Res.bind_eq_raised.mp h with h | ⟨_, _, _, h⟩
    · exact decodeBin_ne_levelRange h
    · exact ih h

theorem decodeLast_ne_levelRange {cfg : Config} {is : List (Fin 16)} {u v : DecUnit} :
    decodeLast cfg is u ≠ .raised .levelRange v := by
  induction is generalizing u with
  | nil => exact nofun
  | cons i is ih =>
    intro h
    rcases Res.bind_eq_raised.mp h with h | ⟨_, _, _, h⟩
    · exact decodeBin_ne_levelRange h
    · split at h
      · exact absurd h nofun
      · rcases Res.bind_eq_raised.mp h with h | ⟨_, _, _, h⟩
        · exact ih h
        · exact absurd h nofun

/-- Where the syntax raises LEVEL_RANGE: at a level, behind the flags and the levels before it (rules R133, R134). -/
theorem decodeBlockSyntax_levelRange_iff {cfg : Config} {u v : DecUnit} :
    decodeBlockSyntax cfg u = .raised .levelRange v ↔
      ∃ (g : BlockSyntax) (done rest : List (Fin 16)) (i : Fin 16) (bins : List (Bool × Fin 32)),
        g.coded.reverse = done ++ i :: rest ∧ (∀ j ∈ done, g.LevelOk j) ∧ g.OutOfRange i bins ∧
        Reads cfg (g.flagBins ++ g.levelBins done ++ bins) u v := by
  have hflags (w : DecUnit) : ((decodeSig cfg scanIndices (Vector.replicate 16 false) u).bind fun sig u =>
      decodeLast cfg (scanIndices.filter sig.get) u) ≠ .raised .levelRange w := by
    intro h
    rcases Res.bind_eq_raised.mp h with h | ⟨_, _, _, h⟩
    · exact decodeSig_ne_levelRange h
    · exact decodeLast_ne_levelRange h
  rw [decodeBlockSyntax_eq, Res.bind_eq_raised, or_iff_right (hflags v)]
  constructor
  · rintro ⟨_, w, hrun, hlevels⟩
    obtain ⟨f, rfl, hread⟩ := decodeFlags_iff.mp hrun
    obtain ⟨g, done, rest, i, bins, hsplit, hok, hout, hreads⟩ :=
      (decodeLevels_raised_iff (coded_reverse_nodup f)).mp hlevels
    refine ⟨withFlagsOf f g, done, rest, i, bins, hsplit, hok, hout, ?_⟩
    rw [List.append_assoc, reads_append]
    exact ⟨w, hread, hreads⟩
  · rintro ⟨g, done, rest, i, bins, hsplit, hok, hout, hreads⟩
    rw [List.append_assoc, reads_append] at hreads
    obtain ⟨w, hread, hreads⟩ := hreads
    exact ⟨g.coded, w, decodeFlags_iff.mpr ⟨g, rfl, hread⟩,
      (decodeLevels_raised_iff (coded_reverse_nodup g)).mpr ⟨g, done, rest, i, bins, hsplit, hok, hout, hreads⟩⟩

/-! DEC_BLOCK. -/

theorem prime_coefOut {u p : DecUnit} (h : prime u = .ok () p) : p.coefOut = u.coefOut := by
  rcases prime_cases u with ⟨-, hprime⟩ | ⟨-, hprime⟩
  · rw [hprime] at h
    cases h
    rw [u.primeRegs_eq]
  · rw [hprime] at h
    cases h

theorem prime_ne_levelRange {u p : DecUnit} : prime u ≠ .raised .levelRange p := by
  rcases prime_cases u with ⟨-, hprime⟩ | ⟨-, hprime⟩
  · rw [hprime]; exact nofun
  · rw [hprime]; exact nofun

/-- The block decoder goes through exactly where the unit primes and reads the bins of a block. -/
theorem decodeBlock_ok_iff {cfg : Config} {blk : BlkType} {u v : DecUnit} :
    decodeBlock cfg blk u = .ok () v ↔
      ∃ (p w : DecUnit) (g : BlockSyntax), prime u = .ok () p ∧ (∀ i ∈ g.coded, g.LevelOk i) ∧ Reads cfg g.bins p w ∧
        v = { w with coefOut := scatter (scan cfg blk) g.levels u.coefOut, active := false } := by
  have hcoef {p w : DecUnit} {lev : Coefs} (hp : prime u = .ok () p) (hw : decodeBlockSyntax cfg p = .ok lev w) :
      w.coefOut = u.coefOut := by
    have hframe := decodeBlockSyntax_frame cfg p
    rw [hw] at hframe
    have hkeep : w.coefOut = p.coefOut := by rw [hframe.1]
    exact hkeep.trans (prime_coefOut hp)
  simp only [decodeBlock, Res.bind_eq_ok]
  constructor
  · rintro ⟨⟨⟩, p, hp, lev, w, hw, hend⟩
    obtain ⟨g, hok, hreads, rfl⟩ := decodeBlockSyntax_ok_iff.mp hw
    refine ⟨p, w, g, hp, hok, hreads, ?_⟩
    rw [← hcoef hp hw]
    exact ((Res.ok.injEq _ _ _ _).mp hend).2.symm
  · rintro ⟨p, w, g, hp, hok, hreads, rfl⟩
    have hw := decodeBlockSyntax_ok_iff.mpr ⟨g, hok, hreads, rfl⟩
    exact ⟨(), p, hp, g.levels, w, hw, by rw [hcoef hp hw]⟩

theorem decodeBlock_levelRange_iff {cfg : Config} {blk : BlkType} {u v : DecUnit} :
    decodeBlock cfg blk u = .raised .levelRange v ↔
      ∃ p, prime u = .ok () p ∧ decodeBlockSyntax cfg p = .raised .levelRange v := by
  rw [decodeBlock, Res.bind_eq_raised, or_iff_right prime_ne_levelRange]
  simp only [Res.bind_eq_raised, reduceCtorEq, and_false, exists_false, or_false]
  exact ⟨fun ⟨⟨⟩, p, h⟩ => ⟨p, h⟩, fun ⟨p, h⟩ => ⟨(), p, h⟩⟩

/-- An end of DEC_BLOCK other than NOT_READY is that of the block decoder on an accepted stream (rule R147). -/
theorem exec_decBlock_iff {blk : BlkType} {comp : Component} {s t : State} {e : ErrCode} (he : e ≠ .notReady) :
    (exec (.decBlock blk comp) s = .next t ∧ t.status.err = e) ↔
      s.dec.ready = true ∧ t = endDec s (decodeBlock s.cfg blk s.dec) ∧ t.status.err = e := by
  rw [exec_next, after_decBlock, Host.Outcome.next.injEq]
  by_cases hr : s.dec.ready = true
  · rw [if_pos hr, and_iff_right hr, eq_comm]
  · rw [if_neg hr]
    refine iff_of_false (fun ⟨ht, herr⟩ => he ?_) fun h => hr h.1
    rw [← herr, ← ht]
    rfl

/-- DEC_BLOCK ends with ERR OK exactly where the block decoder goes through. -/
theorem exec_decBlock_ok_iff {blk : BlkType} {comp : Component} {s t : State} :
    (exec (.decBlock blk comp) s = .next t ∧ t.status.err = .ok) ↔
      s.dec.ready = true ∧ ∃ v, decodeBlock s.cfg blk s.dec = .ok () v ∧ t = complete { s with dec := v } := by
  rw [exec_decBlock_iff (by decide)]
  refine and_congr_right fun _ => ⟨?_, ?_⟩
  · rintro ⟨rfl, herr⟩
    have hraises := decodeBlock_raisesIn s.cfg blk s.dec
    cases hrun : decodeBlock s.cfg blk s.dec with
    | ok _ v => exact ⟨v, rfl, rfl⟩
    | raised e v =>
      rw [hrun] at herr hraises
      obtain rfl : e = .ok := herr
      exact absurd (show ErrCode.ok ∈ [ErrCode.streamInvalid, .levelRange, .zeroWidth] from hraises) (by decide)
  · rintro ⟨v, hrun, rfl⟩
    rw [hrun]
    exact ⟨rfl, rfl⟩

/-- DEC_BLOCK ends with ERR LEVEL_RANGE exactly where the block decoder raises it. -/
theorem exec_decBlock_levelRange_iff {blk : BlkType} {comp : Component} {s t : State} :
    (exec (.decBlock blk comp) s = .next t ∧ t.status.err = .levelRange) ↔
      s.dec.ready = true ∧ ∃ v, decodeBlock s.cfg blk s.dec = .raised .levelRange v ∧
        t = raiseFault .levelRange { s with dec := v.failed } := by
  rw [exec_decBlock_iff (by decide)]
  refine and_congr_right fun _ => ⟨?_, ?_⟩
  · rintro ⟨rfl, herr⟩
    cases hrun : decodeBlock s.cfg blk s.dec with
    | ok _ v =>
      rw [hrun] at herr
      cases herr
    | raised e v =>
      rw [hrun] at herr
      obtain rfl : e = .levelRange := herr
      exact ⟨v, rfl, rfl⟩
  · rintro ⟨v, hrun, rfl⟩
    rw [hrun]
    exact ⟨rfl, rfl⟩

theorem flagBins_ne_nil (g : BlockSyntax) : g.flagBins ≠ [] :=
  List.append_ne_nil_of_left_ne_nil (by simp [scanIndices]) _

/-- Settles O47: the block decoder primes and reads a block's bins exactly where DEC_START and DEC_BINs return them. -/
theorem decBlockEqualsItsBins : Obligations.DecBlockEqualsItsBins := by
  intro s t blk comp
  rw [exec_decBlock_ok_iff]
  refine and_congr_right fun hr => ?_
  have hstart (g : BlockSyntax) {w : DecUnit} :=
    startReads_iff (bins := g.bins) (List.append_ne_nil_of_left_ne_nil (flagBins_ne_nil g) _) hr (v := w)
  constructor
  · rintro ⟨_, hrun, rfl⟩
    obtain ⟨p, w, g, hp, hok, hreads, rfl⟩ := decodeBlock_ok_iff.mp hrun
    obtain ⟨v, hv, rfl⟩ := (hstart g).mpr ⟨p, hp, hreads⟩
    exact ⟨g, v, hok, hv, rfl⟩
  · rintro ⟨g, v, hok, hv, rfl⟩
    obtain ⟨p, hp, hreads⟩ := (hstart g).mp ⟨v, hv, rfl⟩
    exact ⟨_, decodeBlock_ok_iff.mpr ⟨p, v.dec, g, hp, hok, hreads, rfl⟩, rfl⟩

/-- Settles O59: the syntax raises LEVEL_RANGE at a level, and DEC_START and DEC_BINs return the bins up to there. -/
theorem decBlockLevelRange : Obligations.DecBlockLevelRange := by
  intro s t blk comp
  rw [exec_decBlock_levelRange_iff]
  refine and_congr_right fun hr => ?_
  have hstart (g : BlockSyntax) (levels bins : List (Bool × Fin 32)) {w : DecUnit} :=
    startReads_iff (bins := g.flagBins ++ levels ++ bins)
      (List.append_ne_nil_of_left_ne_nil (List.append_ne_nil_of_left_ne_nil (flagBins_ne_nil g) _) _) hr (v := w)
  constructor
  · rintro ⟨w, hrun, rfl⟩
    obtain ⟨p, hp, hrun⟩ := decodeBlock_levelRange_iff.mp hrun
    obtain ⟨g, done, rest, i, bins, hsplit, hok, hout, hreads⟩ := decodeBlockSyntax_levelRange_iff.mp hrun
    obtain ⟨v, hv, rfl⟩ := (hstart g _ bins).mpr ⟨p, hp, hreads⟩
    exact ⟨g, done, rest, i, bins, v, hsplit, hok, hout, hv, rfl⟩
  · rintro ⟨g, done, rest, i, bins, v, hsplit, hok, hout, hv, rfl⟩
    obtain ⟨p, hp, hreads⟩ := (hstart g _ bins).mp ⟨v, hv, rfl⟩
    exact ⟨v.dec, decodeBlock_levelRange_iff.mpr ⟨p, hp,
      decodeBlockSyntax_levelRange_iff.mpr ⟨g, done, rest, i, bins, hsplit, hok, hout, hreads⟩⟩, rfl⟩

theorem toInt_ofInt_of_fits {x : Int} (h : FitsCoef x) : (BitVec.ofInt 16 x).toInt = x := by
  obtain ⟨hlo, hhi⟩ := h
  rw [BitVec.toInt_ofInt]
  exact Int.bmod_eq_of_le (by norm_num; omega) (by norm_num; omega)

/-- Settles O49: the parts of a level, and the reconstruction of the levels of a block. -/
theorem decodedLevels : Obligations.DecodedLevels := by
  refine ⟨fun cfg i u v x => decodeLevel_ok_iff, fun cfg i u v => decodeLevel_raised_iff, fun cfg i u v x h => ?magnitude,
    fun s t blk comp hlegal hexec herr p => ?entries⟩
  case magnitude =>
    obtain ⟨ones, suffix, negative, hfields, rfl, -, -⟩ := decodeLevel_ok_iff.mp h
    exact natAbs_levelValue hfields negative
  case entries =>
    obtain ⟨-, v, hrun, ht⟩ := exec_decBlock_ok_iff.mp ⟨hexec, herr⟩
    obtain ⟨-, w, g, -, hok, -, hv⟩ := decodeBlock_ok_iff.mp hrun
    obtain ⟨i, rfl⟩ := scan_surjective hlegal blk p
    have hentry : t.dec.coefOut.get ((scan s.cfg blk).get i) =
        if i ∈ g.coded then BitVec.ofInt 16 (g.level i) else 0 := by
      rw [ht, hv]
      exact (get_scatter hlegal blk _ _ i).trans (get_levels g i)
    rw [hentry]
    split
    case isTrue hi =>
      rw [toInt_ofInt_of_fits (hok i hi).2]
      exact .inr (natAbs_levelValue (hok i hi).1 _)
    case isFalse => exact .inl rfl

end Sys2Proof.Machine
end

section
/-! DEC_BLOCK under legal tables (rules R147, R149): its two outcomes. -/

namespace Sys2Proof.Machine

open Safety

/-- DEC_BLOCK raises STREAM_INVALID exactly where priming does (rules R111, R151). -/
theorem decodeBlock_streamInvalid_iff {cfg : Config} {blk : BlkType} {u : DecUnit} :
    (∃ v, decodeBlock cfg blk u = .raised .streamInvalid v) ↔ 510 ≤ u.primeCode := by
  rcases prime_cases u with ⟨hvalid, hprime⟩ | ⟨hinvalid, hprime⟩
  · refine iff_of_false (fun ⟨v, h⟩ => ?_) (Nat.not_le.mpr hvalid)
    rw [decodeBlock, hprime, Res.bind_ok, Res.bind_eq_raised] at h
    rcases h with h | ⟨_, _, _, h⟩
    · exact absurd (decodeBlockSyntax_raised h) (by decide)
    · cases h
  · refine iff_of_true ⟨u.primeRegs, ?_⟩ hinvalid
    rw [decodeBlock, hprime, Res.bind_raised]

/-- Settles O46: `decodeBlock_sat_of_legal` says which outcomes there are, `decodeBlock_frame` what they leave. -/
theorem decBlockResult : Obligations.DecBlockResult := by
  intro s blk comp hlegal hinv hr
  obtain ⟨-, -, -, hidle, -⟩ := hinv
  refine ⟨after (.decBlock blk comp) s, exec_next _ _, ?_⟩
  rw [after_decBlock, if_pos hr]
  have hrange := decodeBlock_sat_of_legal hlegal blk s.dec
  have hframe := decodeBlock_frame s.cfg blk s.dec
  have hinvalid := decodeBlock_streamInvalid_iff (cfg := s.cfg) (blk := blk) (u := s.dec)
  cases hrun : decodeBlock s.cfg blk s.dec with
  | ok _ v =>
    rw [hrun] at hrange hframe hinvalid
    rw [endDec_ok, complete, Status.completed_of_not_busy hidle]
    refine ⟨.inl ⟨rfl, hrange.lo, hrange.hi, hrange.code_lt, ?_⟩, ?_⟩
    · rw [← hframe.1]
    · rintro p rfl
      exact iff_of_false nofun fun h => nomatch hinvalid.mpr h
  | raised e v =>
    rw [hrun] at hrange hframe hinvalid
    rw [endDec_raised, raiseFault, Status.raised_of_not_busy hidle]
    refine ⟨.inr ⟨hrange, ?_⟩, ?_⟩
    · rw [DecUnit.failed, hframe.1]
    · rintro p rfl
      refine Iff.trans ⟨?_, ?_⟩ hinvalid
      · rintro rfl
        exact ⟨v, rfl⟩
      · rintro ⟨w, h⟩
        cases h
        rfl

end Sys2Proof.Machine
end

section
/-! DEC_BLOCK past the end of its stream (rules R109, R117). -/

namespace Sys2Proof.Machine

open Safety

/-- The arithmetic decoder past the end of its stream, on zeros alone, and the significance context of scan index 0 takes
them for 0. -/
structure DecUnit.PastEnd (u : DecUnit) : Prop where
  range_lo : 256 ≤ u.r.toNat
  range_hi : u.r.toNat ≤ 510
  code : u.code.toNat = 0
  res : u.res = 0
  len_le : u.len.toNat ≤ u.cur.toNat
  mps : (u.ctx.get 0).mps = false

theorem DecUnit.PastEnd.zeroInput {u : DecUnit} (h : u.PastEnd) : u.ZeroInput where
  range_lo := h.range_lo
  range_hi := h.range_hi
  code := h.code
  bits j := by
    unfold upcomingBit
    split
    · rw [h.res]
      exact BitVec.getLsbD_zero
    · rw [inputByte, if_neg (Nat.not_lt.mpr (Nat.le_add_right_of_le h.len_le))]
      exact BitVec.getLsbD_zero

theorem toNat_le_advanceCursor (c : BitVec 32) : c.toNat ≤ (advanceCursor c).toNat := by
  have hlt := c.isLt
  rw [advanceCursor_toNat]
  split <;> omega

/-- A significance bin past the end is 0, and the unit stays past the end. -/
theorem DecUnit.PastEnd.bin {cfg : Config} (hlegal : cfg.Legal) {u : DecUnit} (h : u.PastEnd) :
    ∃ v, decodeBin cfg 0 u = .ok false v ∧ v.PastEnd := by
  obtain ⟨v, hbin, hzero, hctx⟩ := h.zeroInput.bin hlegal 0
  have hu : u.InRange := ⟨h.range_lo, h.range_hi, by rw [h.code]; exact Nat.lt_of_lt_of_le (by decide) h.range_lo⟩
  obtain ⟨b, k, w, hbin', hbinned⟩ := decodeBin_of_legal hlegal hu 0
  rw [hbin'] at hbin
  cases hbin
  obtain ⟨hlen, -⟩ := hbinned.rest
  refine ⟨v, by rw [hbin', h.mps], hzero.range_lo, hzero.range_hi, hzero.code, ?res, ?len_le, ?mps⟩
  case res =>
    rw [hbinned.res, h.res, inputByte, if_neg (Nat.not_lt.mpr h.len_le)]
    exact ite_self 0
  case len_le =>
    rw [hlen, hbinned.cur]
    split
    · exact h.len_le
    · exact h.len_le.trans (toNat_le_advanceCursor _)
  case mps =>
    rw [hctx, CtxTable.get_put_self]
    exact h.mps

theorem sigCtx_of_none : ∀ i : Fin 16, sigCtx i (Vector.replicate 16 false).get = 0 := by decide

theorem set_none_false : ∀ i : Fin 16, (Vector.replicate 16 false).set i false = Vector.replicate 16 false := by decide

/-- Past the end no position is significant (rules R126, R130). -/
theorem DecUnit.PastEnd.decodeSig {cfg : Config} (hlegal : cfg.Legal) (is : List (Fin 16)) {u : DecUnit} (h : u.PastEnd) :
    ∃ v, decodeSig cfg is (Vector.replicate 16 false) u = .ok (Vector.replicate 16 false) v ∧ v.PastEnd ∧ u.Frame [0] v := by
  induction is generalizing u with
  | nil => exact ⟨u, rfl, h, .refl _ u⟩
  | cons i is ih =>
    obtain ⟨v, hbin, hv⟩ := h.bin hlegal
    obtain ⟨w, hrest, hw, hframe⟩ := ih hv
    have hfirst := decodeBin_frame cfg 0 [0] (List.mem_singleton_self 0) u
    rw [hbin] at hfirst
    refine ⟨w, ?_, hw, hfirst.trans hframe⟩
    rw [Machine.decodeSig, sigCtx_of_none, hbin, Res.bind_ok, set_none_false, hrest]

theorem DecUnit.PastEnd.decodeBlockSyntax {cfg : Config} (hlegal : cfg.Legal) {u : DecUnit} (h : u.PastEnd) :
    ∃ v, decodeBlockSyntax cfg u = .ok Coefs.zero v ∧ v.PastEnd ∧ u.Frame [0] v := by
  obtain ⟨v, hsig, hv⟩ := h.decodeSig hlegal scanIndices
  have hnone : scanIndices.filter (Vector.replicate 16 false).get = [] := by decide
  refine ⟨v, ?_, hv⟩
  rw [Machine.decodeBlockSyntax, hsig, Res.bind_ok, hnone]
  rfl

/-- Priming past the end gives zeros (rules R109, R111). -/
theorem primed_pastEnd {u : DecUnit} (hend : u.len.toNat ≤ u.cur.toNat) (hmps : (u.ctx.get 0).mps = false) :
    prime u = .ok () { u.primeRegs with active := true } ∧ { u.primeRegs with active := true }.PastEnd := by
  have hat : u.primeAt = u.cur.toNat := by
    rw [DecUnit.primeAt, if_neg fun h => absurd h.1 (Nat.not_lt.mpr hend), Nat.add_zero]
  have hzero {j : Nat} (hj : u.cur.toNat ≤ j) : inputByte u j = 0 := if_neg (Nat.not_lt.mpr (hend.trans hj))
  have hcode : u.primeCode = 0 := by
    rw [DecUnit.primeCode, hat, hzero (Nat.le_refl _), hzero (Nat.le_succ _)]
    rfl
  rcases prime_cases u with ⟨-, hprime⟩ | ⟨hinvalid, -⟩
  · refine ⟨hprime, ?_⟩
    have hlt := u.cur.isLt
    have hcur : u.len.toNat ≤ (BitVec.ofNat 32 (min (u.cur.toNat + 2) (2 ^ 32 - 1))).toNat := by
      rw [BitVec.toNat_ofNat, Nat.mod_eq_of_lt (by omega)]
      omega
    rw [u.primeRegs_eq, hcode, hat, hzero (Nat.le_succ _)]
    exact ⟨show 256 ≤ (510 : BitVec 9).toNat by decide, show (510 : BitVec 9).toNat ≤ 510 by decide, rfl, rfl,
      hcur, hmps⟩
  · omega

theorem scatter_zero {cfg : Config} (hlegal : cfg.Legal) (blk : BlkType) (out : Coefs) :
    scatter (scan cfg blk) Coefs.zero out = Vector.replicate 16 0 := by
  refine Vector.ext fun p hp => ?_
  obtain ⟨i, hi⟩ := scan_surjective hlegal blk ⟨p, hp⟩
  have hget := get_scatter hlegal blk Coefs.zero out i
  rw [hi, Coefs.get_zero] at hget
  rw [Vector.getElem_replicate]
  exact hget

/-- Settles O48: every significance bin past the end is 0, so the block has no level. -/
theorem decBlockPastEndIsZero : Obligations.DecBlockPastEndIsZero := by
  intro s blk comp hlegal hr hend hmps
  obtain ⟨hprime, hprimed⟩ := primed_pastEnd hend hmps
  obtain ⟨v, hsyntax, hv, hframe⟩ := hprimed.decodeBlockSyntax hlegal
  obtain ⟨heq, hctx⟩ := (primed_frame [0] s.dec).trans hframe
  have hrun : decodeBlock s.cfg blk s.dec = .ok () { v with coefOut := Vector.replicate 16 0, active := false } := by
    rw [decodeBlock, hprime, Res.bind_ok, hsyntax, Res.bind_ok, scatter_zero hlegal]
  have hcode : v.code = 0 := BitVec.eq_of_toNat_eq hv.code
  have hdec : { v with coefOut := Vector.replicate 16 0, active := false } = { s.dec with
      r := v.r, code := 0, res := 0, nres := v.nres, cur := v.cur, ctx := v.ctx,
      coefOut := Vector.replicate 16 0, active := false } := by
    rw [← hcode, ← hv.res, heq]
  refine ⟨after (.decBlock blk comp) s, exec_next _ _, ?_⟩
  rw [after_decBlock, if_pos hr, hrun, endDec_ok, hdec]
  exact ⟨rfl, hv.mps, fun c hc => hctx c (by simpa using hc)⟩

end Sys2Proof.Machine
end

section
/-! The bins of a block to encode as block syntax (rules R125 to R128, R139, R140). -/

namespace Sys2Proof.Machine

open Safety

theorem levelBins_eq_levelSyntax (x : Int) (i : Fin 16) :
    levelBins x i = levelSyntax i ((x.natAbs - 1) / 15) ((x.natAbs - 1) % 15) (decide (x < 0)) := rfl

/-- Without a one in the prefix the suffix has no bins. -/
theorem levelSyntax_of_no_ones (i : Fin 16) (suffix : Nat) (negative : Bool) :
    levelSyntax i 0 suffix negative = levelSyntax i 0 0 negative := rfl

theorem fifteen_le_iff {v : Nat} : 15 ≤ v ↔ 0 < v / 15 := (Nat.div_pos_iff.trans (by omega)).symm

theorem levelBins_eq_encSyntax (cfg : Config) (blk : BlkType) (coefs : Coefs) (i : Fin 16) :
    levelBins (scanned cfg blk coefs i) i = levelSyntax i ((encSyntax cfg blk coefs).ones i)
      ((encSyntax cfg blk coefs).suffix i) ((encSyntax cfg blk coefs).negative i) := by
  rw [levelBins_eq_levelSyntax]
  simp only [encSyntax, fifteen_le_iff]
  split
  case isTrue => rfl
  case isFalse h => rw [Nat.eq_zero_of_not_pos h, levelSyntax_of_no_ones]

/-- Where the flag of 1 is the last index's alone, phase 2 codes all indices (rules R127, R131). -/
theorem codedOf_eq_self {last : Fin 16 → Bool} {is : List (Fin 16)} (his : is.Pairwise (· < ·))
    (hlast : ∀ i ∈ is, last i = true ↔ ∀ j ∈ is, j ≤ i) :
    codedOf last is = is ∧ lastBins is = is.map fun i => (last i, lastCtx i) := by
  induction is with
  | nil => exact ⟨rfl, rfl⟩
  | cons i is ih =>
    obtain ⟨hi, his⟩ := List.pairwise_cons.mp his
    have htail : ∀ k ∈ is, last k = true ↔ ∀ j ∈ is, j ≤ k := fun k hk => by
      rw [hlast k (List.mem_cons_of_mem i hk), List.forall_mem_cons, and_iff_right (hi k hk).le]
    obtain ⟨hcoded, hbins⟩ := ih his htail
    cases is with
    | nil =>
      have hone : last i = true := (hlast i List.mem_cons_self).mpr (by simp)
      simp [codedOf, lastBins, hone]
    | cons j rest =>
      have hzero : last i = false := Bool.eq_false_iff.mpr fun h =>
        absurd ((hlast i List.mem_cons_self).mp h j (List.mem_cons_of_mem i List.mem_cons_self))
          (not_le_of_gt (hi j List.mem_cons_self))
      rw [codedOf, hzero, if_neg Bool.false_ne_true, hcoded, lastBins, hbins]
      exact ⟨rfl, by simp [hzero]⟩

theorem mem_significant {lev : Fin 16 → Int} {i : Fin 16} : i ∈ significant lev ↔ lev i ≠ 0 := by
  simp [significant, mem_scanIndices]

theorem encSyntax_codedOf (cfg : Config) (blk : BlkType) (coefs : Coefs) :
    (encSyntax cfg blk coefs).coded = significant (scanned cfg blk coefs) ∧
    lastBins (significant (scanned cfg blk coefs)) =
      (significant (scanned cfg blk coefs)).map fun i => ((encSyntax cfg blk coefs).last i, lastCtx i) := by
  refine codedOf_eq_self (is := significant (scanned cfg blk coefs)) (scanIndices_pairwise.filter _) fun i _ => ?_
  simp only [encSyntax, decide_eq_true_eq, mem_significant]
  exact ⟨fun h j hj => not_lt.mp fun hlt => hj (h j hlt),
    fun h j hlt => by_contra fun hj => absurd (h j hj) (not_le_of_gt hlt)⟩

theorem blockBins_eq_encSyntax_bins (cfg : Config) (blk : BlkType) (coefs : Coefs) :
    blockBins cfg blk coefs = (encSyntax cfg blk coefs).bins := by
  obtain ⟨hcoded, hlast⟩ := encSyntax_codedOf cfg blk coefs
  have hlevels : (fun i => levelBins (scanned cfg blk coefs i) i) = fun i => levelSyntax i
      ((encSyntax cfg blk coefs).ones i) ((encSyntax cfg blk coefs).suffix i) ((encSyntax cfg blk coefs).negative i) :=
    funext fun i => levelBins_eq_encSyntax cfg blk coefs i
  rw [BlockSyntax.bins, BlockSyntax.flagBins, BlockSyntax.levelBins, hcoded, ← hlast, ← hlevels]
  rfl

/-- The significance flags decide the bins of phase 1. -/
theorem sigBins_eq {lev : Fin 16 → Int} {sig : Fin 16 → Bool} (h : ∀ i, (lev i ≠ 0) ↔ sig i = true) :
    sigBins lev = scanIndices.map (fun i => (sig i, sigCtx i sig)) ∧ significant lev = scanIndices.filter sig := by
  have hsig : (fun i => decide (lev i ≠ 0)) = sig := funext fun i => by simp only [h, Bool.decide_eq_true]
  exact ⟨by rw [← hsig]; rfl, by rw [← hsig]; rfl⟩

theorem blockBins_of_zero {coefs : Coefs} (hzero : ∀ p, coefs.get p = 0) (cfg : Config) (blk : BlkType) :
    blockBins cfg blk coefs = List.replicate 16 (false, 0) := by
  obtain ⟨hsig, hsignificant⟩ := sigBins_eq (lev := scanned cfg blk coefs) (sig := fun _ => false)
    fun i => by simp [scanned_eq_zero hzero]
  have hnone : scanIndices.filter (fun _ => false) = [] := by decide
  have hflags : scanIndices.map (fun i => (false, sigCtx i fun _ => false)) = List.replicate 16 (false, 0) := by decide
  simp only [blockBins, hsig, hsignificant, hnone, hflags, lastBins, List.reverse_nil, List.flatMap_nil, List.append_nil]

theorem blockBins_of_single {cfg : Config} {blk : BlkType} {coefs : Coefs}
    (hsingle : ∀ i, scanned cfg blk coefs i ≠ 0 ↔ i = 0) :
    blockBins cfg blk coefs =
      [(true, 0), (false, 1), (false, 0), (false, 0), (false, 1)] ++ List.replicate 11 (false, 0) ++ [(true, 8)] ++
        levelBins (scanned cfg blk coefs 0) 0 := by
  obtain ⟨hsig, hsignificant⟩ := sigBins_eq (lev := scanned cfg blk coefs) (sig := fun i => decide (i = 0))
    fun i => by rw [hsingle, decide_eq_true_eq]
  have hfilter : scanIndices.filter (fun i => decide (i = 0)) = [0] := by decide
  have hflags : scanIndices.map (fun i => (decide (i = 0), sigCtx i fun i => decide (i = 0))) ++ lastBins [0] =
      [(true, 0), (false, 1), (false, 0), (false, 0), (false, 1)] ++ List.replicate 11 (false, 0) ++ [(true, 8)] := by
    decide
  simp only [blockBins, hsig, hsignificant, hfilter, hflags, List.reverse_singleton, List.flatMap_singleton]

/-- Settles O39: phase by phase. -/
theorem simpleBlocksBins : Obligations.SimpleBlocksBins := by
  refine ⟨blockBins_eq_encSyntax_bins, fun x i => ?level, fun cfg blk coefs hzero => blockBins_of_zero hzero cfg blk,
    fun cfg blk coefs hsingle => blockBins_of_single hsingle⟩
  case level =>
    rw [levelBins_eq_levelSyntax, levelSyntax]
    simp only [fifteen_le_iff]

end Sys2Proof.Machine
end

section
/-! The round trip of bins (rules R118, R123). -/

namespace Sys2Proof.Machine

open Safety

/-- A decoder in step reads the bins to come, and ends in step with the encoder's registers (rules R110, R123). -/
theorem Synced.reads {cfg : Config} (hcap : cfg.outCap ≤ 65536) {bins : List (Bool × Fin 32)} {u v : EncUnit}
    {d : DecUnit} {p : Nat} (h : Synced cfg bins u v d) (hread : ReadTo p u d) (hlim : p + v.shifts < 2 ^ 30) :
    ∃ e, Reads cfg bins d e ∧ e.ctx = v.ctx ∧ ReadTo p v e := by
  induction bins generalizing u d with
  | nil =>
    obtain ⟨-, rfl⟩ := (Res.ok.injEq _ _ _ _).mp h.runs
    exact ⟨d, reads_nil.mpr rfl, h.ctx, hread⟩
  | cons q bins ih =>
    obtain ⟨b, c⟩ := q
    obtain ⟨k, hshifts, -⟩ := encodeBins_bounds cfg hcap _ u v h.ready h.runs
    obtain ⟨w, d', k, -, hbin, hsynced, hbinned, hw⟩ := h.bin hcap
    obtain ⟨e, hreads, hend⟩ := ih hsynced (hread.bin hbinned hw (by omega))
    exact ⟨e, reads_cons.mpr ⟨d', hbin, hreads⟩, hend⟩

/-- A decoder that holds the bytes of a session from its cursor on reads the session's bins, ends with the session's
contexts, and moves the cursor past exactly those bytes (rules R118, R123). -/
theorem reads_of_runSession {cfg : Config} (hcap : cfg.outCap ≤ 65536) {bins : List (Bool × Fin 32)} {u w : EncUnit}
    {d : DecUnit} (hu : u.Stored cfg.outCap) (hrun : runSession cfg bins u = .ok () w) (hctx : d.ctx = u.ctx)
    (hin : d.cur.toNat + w.outLen.toNat ≤ d.len.toNat)
    (hbytes : ∀ i < w.outLen.toNat, d.inByteAt (d.cur.toNat + i) = w.outByteAt i) :
    ∃ p e, prime d = .ok () p ∧ Reads cfg bins p e ∧ e.ctx = w.ctx ∧ e.cur.toNat = d.cur.toNat + w.outLen.toNat := by
  obtain ⟨v, x, hbins, hterm, rfl⟩ := runSession_eq_ok_iff.mp hrun
  obtain ⟨hstart, -, hzero, -⟩ := u.started_ready cfg hu
  obtain ⟨-, -, -, -, hv⟩ := encodeBins_bounds cfg hcap bins _ v hstart hbins
  obtain ⟨x', hterm', hx⟩ | ⟨x', hterm', -⟩ := terminate_of_ready hv hcap
  swap
  · rw [hterm'] at hterm
    cases hterm
  obtain rfl : x' = x := by
    rw [hterm'] at hterm
    exact ((Res.ok.injEq _ _ _ _).mp hterm).2
  have hin : d.cur.toNat + x'.outLen.toNat ≤ d.len.toNat := hin
  have hlen := hx.length
  obtain ⟨hsynced, hvalid, hat, -⟩ :=
    Synced.start hcap hu hbins hlen hv.track.cnt_le hx.value hctx hin hbytes
  have hlen17 := d.len.isLt
  obtain ⟨hT, hT'⟩ := terminateShifts_bounds hv.track.cnt_le
  have hread := ReadTo.start u.started hzero d (by omega) true
  rw [hat] at hread
  obtain ⟨e, hreads, hctxe, hnres, hcur⟩ := hsynced.reads hcap hread (by omega)
  rcases prime_cases d with ⟨-, hprime⟩ | ⟨hinvalid, -⟩
  · refine ⟨_, e, hprime, hreads, ?ctx, ?cur⟩
    case ctx =>
      have hkeep : x'.ctx = v.ctx := by rw [hx.eq]
      exact hctxe.trans hkeep.symm
    case cur =>
      show e.cur.toNat = d.cur.toNat + x'.outLen.toNat
      omega
  · exact absurd hvalid (Nat.not_lt.mpr hinvalid)

/-- DEC_START of a stream that primes (rules R111, R115). -/
theorem after_decStart_ok {s : State} {p : DecUnit} (hr : s.dec.ready = true) (hp : prime s.dec = .ok () p) :
    after .decStart s = complete { s with dec := p } ∧ p.active = true := by
  refine ⟨by rw [after_decStart, if_pos hr, hp]; rfl, ?_⟩
  rcases prime_cases s.dec with ⟨-, hprime⟩ | ⟨-, hprime⟩
  · rw [hprime] at hp
    cases hp
    rfl
  · rw [hprime] at hp
    cases hp

/-- Settles O57: the session on the unit, read back by `reads_of_runSession`. -/
theorem binLevelRoundTrip : Obligations.BinLevelRoundTrip := by
  intro s d bins hlegal hs hd hcfg herr hr hctx hin hbytes
  obtain ⟨⟨⟨-, hcap⟩, -⟩, henc, -⟩ := hs
  obtain ⟨w, hrun⟩ := runSession_of_afterAll herr
  rw [afterAll_encSession hrun] at hin hbytes ⊢
  obtain ⟨p, e, hprime, hreads, hctxe, hcur⟩ := reads_of_runSession hcap henc.loose.2 hrun hctx hin hbytes
  obtain ⟨hstart, hactive⟩ := after_decStart_ok hr hprime
  rw [← hcfg] at hreads
  obtain ⟨t, hbins, hok, rfl⟩ := decBins_of_reads (s := after .decStart d) (by rw [hstart]; exact hactive)
    (by rw [hstart]; rfl) (by rw [hstart]; exact hreads)
  rw [hbins]
  exact ⟨by rw [hstart]; rfl, rfl, hok, hctxe, hcur⟩

/-! The round trip of a block (rules R137, R138). -/

/-- A level of magnitude 2 to 15 has an empty prefix, so no suffix: it decodes as 1 with its sign (rule R137). -/
theorem level_encSyntax (cfg : Config) (blk : BlkType) (coefs : Coefs) {i : Fin 16} (h : scanned cfg blk coefs i ≠ 0) :
    (encSyntax cfg blk coefs).level i =
      if 2 ≤ (scanned cfg blk coefs i).natAbs ∧ (scanned cfg blk coefs i).natAbs ≤ 15 then (scanned cfg blk coefs i).sign
      else scanned cfg blk coefs i := by
  simp only [BlockSyntax.level, encSyntax, levelValue, decide_eq_true_eq]
  generalize scanned cfg blk coefs i = x at h ⊢
  rcases lt_or_gt_of_ne h with hneg | hpos
  · rw [if_pos hneg, Int.sign_eq_neg_one_of_neg hneg]
    split <;> split <;> omega
  · rw [if_neg (not_lt_of_gt hpos), Int.sign_eq_one_of_pos hpos]
    split <;> split <;> omega

theorem fieldsOk_encSyntax (cfg : Config) (blk : BlkType) (coefs : Coefs) (i : Fin 16) :
    LevelFields ((encSyntax cfg blk coefs).ones i) ((encSyntax cfg blk coefs).suffix i) := by
  have hle := scanned_natAbs_le cfg blk coefs i
  simp only [encSyntax]
  refine ⟨by omega, ?_, ?_⟩
  · split <;> omega
  · split <;> omega

theorem levelOk_encSyntax (cfg : Config) (blk : BlkType) (coefs : Coefs) {i : Fin 16} (h : scanned cfg blk coefs i ≠ 0) :
    (encSyntax cfg blk coefs).LevelOk i := by
  refine ⟨fieldsOk_encSyntax cfg blk coefs i, ?_⟩
  rw [level_encSyntax cfg blk coefs h]
  have hlo : -32768 ≤ scanned cfg blk coefs i := BitVec.le_toInt _
  have hhi : scanned cfg blk coefs i < 32768 := BitVec.toInt_lt
  split
  · rcases lt_or_gt_of_ne h with hneg | hpos
    · rw [Int.sign_eq_neg_one_of_neg hneg]
      decide
    · rw [Int.sign_eq_one_of_pos hpos]
      decide
  · exact ⟨hlo, by omega⟩

/-- What a block to encode decodes to, at each scan index (rules R137, R138). -/
theorem toInt_levels_encSyntax (cfg : Config) (blk : BlkType) (coefs : Coefs) (i : Fin 16) :
    ((encSyntax cfg blk coefs).levels.get i).toInt =
      if 2 ≤ (scanned cfg blk coefs i).natAbs ∧ (scanned cfg blk coefs i).natAbs ≤ 15 then (scanned cfg blk coefs i).sign
      else scanned cfg blk coefs i := by
  rw [get_levels, (encSyntax_codedOf cfg blk coefs).1]
  by_cases h : scanned cfg blk coefs i = 0
  · rw [if_neg (fun hmem => mem_significant.mp hmem h), h]
    rfl
  · rw [if_pos (mem_significant.mpr h), toInt_ofInt_of_fits (levelOk_encSyntax cfg blk coefs h).2,
      level_encSyntax cfg blk coefs h]

/-- Settles O58: the block's bins come back by `reads_of_runSession`, and they spell `encSyntax`. -/
theorem blockRoundTrip : Obligations.BlockRoundTrip := by
  intro s e d blk comp comp' hlegal hs hd hcfg hexec herr hr hctx hin hbytes
  obtain ⟨⟨⟨-, hcap⟩, -⟩, henc, -⟩ := hs
  obtain ⟨w, hrun, rfl⟩ := runSession_of_encBlock hexec herr
  obtain ⟨p, x, hprime, hreads, hctxe, hcur⟩ := reads_of_runSession hcap henc.loose.2 hrun hctx hin hbytes
  rw [blockBins_eq_encSyntax_bins, ← hcfg] at hreads
  have hok : ∀ i ∈ (encSyntax d.cfg blk s.enc.coefIn).coded, (encSyntax d.cfg blk s.enc.coefIn).LevelOk i := fun i hi => by
    rw [(encSyntax_codedOf d.cfg blk s.enc.coefIn).1] at hi
    exact levelOk_encSyntax d.cfg blk s.enc.coefIn (mem_significant.mp hi)
  have hblock := (decodeBlock_ok_iff (blk := blk)).mpr ⟨p, x, _, hprime, hok, hreads, rfl⟩
  obtain ⟨hdec, herr'⟩ := exec_decBlock_ok_iff (comp := comp').mpr ⟨hr, _, hblock, rfl⟩
  refine ⟨_, hdec, herr', hctxe, hcur, fun q => ?_⟩
  rw [← hcfg] at hlegal
  obtain ⟨i, rfl⟩ := scan_surjective hlegal blk q
  exact (congrArg BitVec.toInt (get_scatter hlegal blk _ _ i)).trans (toInt_levels_encSyntax d.cfg blk s.enc.coefIn i)

end Sys2Proof.Machine
end

section
/-! Input that the cursor has passed, and IN_LEN (rules R35, R67, R169): a decoding procedure commutes with another value of
either. -/

namespace Sys2Proof.Machine

open Safety

/-- The unit with another IN_BUF and another IN_LEN. -/
def DecUnit.withInput (m : Memory) (n : BitVec 17) (u : DecUnit) : DecUnit := { u with inBuf := m, inLen := n }

/-- From the cursor on, the bytes of `m` are those of the unit's IN_BUF. -/
def DecUnit.SameAhead (m : Memory) (u : DecUnit) : Prop :=
  ∀ i, u.cur.toNat ≤ i → (m.read? i).getD (Config.inBufDraw u.inDraw i) = u.inByteAt i

/-- The outcome with another unit, in the place of the one that the procedure left. -/
def Res.mapUnit {σ α : Type} (f : σ → σ) : Res σ α → Res σ α
  | .ok a u => .ok a (f u)
  | .raised e u => .raised e (f u)

/-- The input `m`, `n` passes through the procedure: it neither changes what the procedure does nor is changed by it. -/
def PassesInput {α : Type} (m : Memory) (n : BitVec 17) (f : DecUnit → Res DecUnit α) : Prop :=
  ∀ u : DecUnit, u.SameAhead m →
    f (u.withInput m n) = (f u).mapUnit (DecUnit.withInput m n) ∧ (f u).Sat (DecUnit.SameAhead m) fun _ _ => True

section

variable {m : Memory} {n : BitVec 17}

theorem DecUnit.SameAhead.step {u v : DecUnit} (h : u.SameAhead m) (hbuf : v.inBuf = u.inBuf) (hdraw : v.inDraw = u.inDraw)
    (hcur : u.cur.toNat ≤ v.cur.toNat) : v.SameAhead m := by
  intro i hi
  rw [DecUnit.inByteAt, hbuf, hdraw]
  exact h i (hcur.trans hi)

/-! Procedures built of others. -/

theorem PassesInput.ok {α : Type} (a : α) : PassesInput m n (.ok a) := fun _ hu => ⟨rfl, hu⟩

theorem PassesInput.raised {α : Type} (e : ErrCode) : PassesInput m n (.raised e : DecUnit → Res DecUnit α) :=
  fun _ _ => ⟨rfl, trivial⟩

theorem PassesInput.bind {α β : Type} {f : DecUnit → Res DecUnit α} {g : α → DecUnit → Res DecUnit β}
    (hf : PassesInput m n f) (hg : ∀ a, PassesInput m n (g a)) : PassesInput m n fun u => (f u).bind g := by
  intro u hu
  obtain ⟨hrun, hsat⟩ := hf u hu
  dsimp only
  rw [hrun]
  cases hfu : f u with
  | ok a v =>
    rw [hfu] at hsat
    exact hg a v hsat
  | raised e v => exact ⟨rfl, trivial⟩

theorem PassesInput.ite {α : Type} {c : Prop} [Decidable c] {f g : DecUnit → Res DecUnit α} (hf : PassesInput m n f)
    (hg : PassesInput m n g) : PassesInput m n fun u => if c then f u else g u := by
  split
  · exact hf
  · exact hg

/-! Bit input and bins (rules R110 to R113). -/

theorem nextBit_withInput {u : DecUnit} (h : u.SameAhead m) :
    (u.withInput m n).nextBit = (u.nextBit.1, u.nextBit.2.withInput m n) ∧ u.nextBit.2.SameAhead m := by
  have hbyte : (u.withInput m n).inByte.1 = u.inByte.1 := by
    unfold DecUnit.inByte
    rw [← h u.cur.toNat (Nat.le_refl _)]
    rfl
  have hrefill : (u.withInput m n).refill = u.refill.withInput m n := by
    unfold DecUnit.refill
    rw [hbyte]
    by_cases hempty : u.nres = 0
    · rw [if_pos hempty, if_pos (show (u.withInput m n).nres = 0 from hempty)]
      rfl
    · rw [if_neg hempty, if_neg (show ¬ (u.withInput m n).nres = 0 from hempty)]
  have hcur : u.cur.toNat ≤ u.nextBit.2.cur.toNat := by
    show u.cur.toNat ≤ u.refill.cur.toNat
    unfold DecUnit.refill
    split
    · exact toNat_le_advanceCursor _
    · exact Nat.le_refl _
  refine ⟨?_, h.step (by rw [nextBit_frame]) (by rw [nextBit_frame]) hcur⟩
  rw [DecUnit.nextBit, hrefill]
  rfl

theorem renormD_withInput (k : Nat) {u : DecUnit} (h : u.SameAhead m) :
    renormD k (u.withInput m n) = (renormD k u).withInput m n ∧ (renormD k u).SameAhead m := by
  induction k generalizing u with
  | zero => exact ⟨rfl, h⟩
  | succ k ih =>
    obtain ⟨hbit, hnext⟩ := nextBit_withInput (n := n) h
    unfold renormD
    rw [hbit]
    by_cases hr : u.r.toNat < 256
    · rw [if_pos hr, if_pos (show (u.withInput m n).r.toNat < 256 from hr)]
      exact ih (u := { u.nextBit.2 with r := u.r <<< 1, code := BitVec.ofNat 9 (2 * u.code.toNat + u.nextBit.1.toNat) })
        (hnext.step rfl rfl (Nat.le_refl _))
    · rw [if_neg hr, if_neg (show ¬ (u.withInput m n).r.toNat < 256 from hr)]
      exact ⟨rfl, h⟩

theorem decodeBin_passesInput (cfg : Config) (c : Fin 32) : PassesInput m n (decodeBin cfg c) := by
  intro u hu
  have hwidths : widths cfg (u.withInput m n).r ((u.withInput m n).ctx.get c).state =
      widths cfg u.r (u.ctx.get c).state := rfl
  unfold decodeBin
  rw [hwidths]
  cases widths cfg u.r (u.ctx.get c).state with
  | none => exact ⟨rfl, trivial⟩
  | some p =>
    obtain ⟨lps, mps⟩ := p
    have htake : (u.withInput m n).takeBin cfg c lps mps = (u.takeBin cfg c lps mps).withInput m n := by
      unfold DecUnit.takeBin
      by_cases hcode : mps ≤ u.code.toNat
      · rw [if_pos hcode, if_pos (show mps ≤ (u.withInput m n).code.toNat from hcode)]
        rfl
      · rw [if_neg hcode, if_neg (show ¬ mps ≤ (u.withInput m n).code.toNat from hcode)]
        rfl
    have hahead : (u.takeBin cfg c lps mps).SameAhead m := by
      unfold DecUnit.takeBin
      split
      · exact hu.step rfl rfl (Nat.le_refl _)
      · exact hu.step rfl rfl (Nat.le_refl _)
    obtain ⟨hrenorm, hend⟩ := renormD_withInput (n := n) 8 hahead
    refine ⟨?_, hend⟩
    show Res.ok ((u.withInput m n).binOf c mps) (renormD 8 ((u.withInput m n).takeBin cfg c lps mps)) = _
    rw [htake, hrenorm]
    rfl

/-! Priming (rule R111). -/

theorem inputByte_withInput {u : DecUnit} (h : u.SameAhead m) {i : Nat} (hi : u.cur.toNat ≤ i) :
    inputByte (u.withInput m n) i = inputByte u i := by
  unfold inputByte
  rw [← h i hi]
  rfl

theorem primeAt_withInput {u : DecUnit} (h : u.SameAhead m) : (u.withInput m n).primeAt = u.primeAt := by
  unfold DecUnit.primeAt
  rw [← h u.cur.toNat (Nat.le_refl _)]
  rfl

theorem cur_le_primeAt (u : DecUnit) : u.cur.toNat ≤ u.primeAt := Nat.le_add_right _ _

theorem primeCode_withInput {u : DecUnit} (h : u.SameAhead m) : (u.withInput m n).primeCode = u.primeCode := by
  rw [DecUnit.primeCode, DecUnit.primeCode, primeAt_withInput h, inputByte_withInput h (cur_le_primeAt u),
    inputByte_withInput h (Nat.le_succ_of_le (cur_le_primeAt u))]

theorem primeRegs_withInput {u : DecUnit} (h : u.SameAhead m) :
    (u.withInput m n).primeRegs = u.primeRegs.withInput m n := by
  rw [DecUnit.primeRegs_eq, DecUnit.primeRegs_eq, primeAt_withInput h, primeCode_withInput h,
    inputByte_withInput h (Nat.le_succ_of_le (cur_le_primeAt u))]
  rfl

theorem primeRegs_sameAhead {u : DecUnit} (h : u.SameAhead m) : u.primeRegs.SameAhead m := by
  have hcur : u.cur.toNat ≤ (BitVec.ofNat 32 (min (u.primeAt + 2) (2 ^ 32 - 1))).toNat := by
    have hlt := u.cur.isLt
    have hle := cur_le_primeAt u
    rw [BitVec.toNat_ofNat, Nat.mod_eq_of_lt (by omega)]
    omega
  rw [DecUnit.primeRegs_eq]
  exact h.step rfl rfl hcur

theorem prime_passesInput : PassesInput m n prime := by
  intro u hu
  have hregs := primeRegs_withInput (n := n) hu
  have hcode := primeCode_withInput (n := n) hu
  have hahead := primeRegs_sameAhead hu
  rcases prime_cases u with ⟨hvalid, hprime⟩ | ⟨hinvalid, hprime⟩
  · rcases prime_cases (u.withInput m n) with ⟨-, hprime'⟩ | ⟨hinvalid, -⟩
    · rw [hprime, hprime', hregs]
      exact ⟨rfl, hahead⟩
    · omega
  · rcases prime_cases (u.withInput m n) with ⟨hvalid, -⟩ | ⟨-, hprime'⟩
    · omega
    · rw [hprime, hprime', hregs]
      exact ⟨rfl, trivial⟩

/-! The block syntax (rules R130 to R135). -/

theorem decodeSig_passesInput (cfg : Config) (is : List (Fin 16)) (sig : Vector Bool 16) :
    PassesInput m n (decodeSig cfg is sig) := by
  induction is generalizing sig with
  | nil => exact .ok sig
  | cons i is ih => exact (decodeBin_passesInput cfg _).bind fun b => ih _

theorem decodeLast_passesInput (cfg : Config) (is : List (Fin 16)) : PassesInput m n (decodeLast cfg is) := by
  induction is with
  | nil => exact .ok []
  | cons i is ih => exact (decodeBin_passesInput cfg _).bind fun b => .ite (.ok [i]) (ih.bind fun coded => .ok (i :: coded))

theorem decodePrefix_passesInput (cfg : Config) (i : Fin 16) (fuel k : Nat) :
    PassesInput m n (decodePrefix cfg i fuel k) := by
  induction fuel generalizing k with
  | zero => exact .raised _
  | succ fuel ih => exact (decodeBin_passesInput cfg _).bind fun b => .ite (.ite (.raised _) (ih _)) (.ok _)

theorem decodeSuffix_passesInput (cfg : Config) (js : List (Fin 4)) (x : Nat) :
    PassesInput m n (decodeSuffix cfg js x) := by
  induction js generalizing x with
  | nil => exact .ok x
  | cons j js ih => exact (decodeBin_passesInput cfg _).bind fun b => ih _

theorem decodeLevel_passesInput (cfg : Config) (i : Fin 16) : PassesInput m n (decodeLevel cfg i) := by
  have hread : PassesInput m n (readLevel cfg i) :=
    (decodePrefix_passesInput cfg i _ _).bind fun ones =>
      (PassesInput.ite (decodeSuffix_passesInput cfg _ _) (.ok 0)).bind fun suffix =>
        (decodeBin_passesInput cfg _).bind fun negative => .ok _
  rw [show decodeLevel cfg i = fun u => (readLevel cfg i u).bind checkLevel from funext (decodeLevel_eq cfg i)]
  exact hread.bind fun p => .ite (.ok _) (.raised _)

theorem decodeLevels_passesInput (cfg : Config) (is : List (Fin 16)) (lev : Coefs) :
    PassesInput m n (decodeLevels cfg is lev) := by
  induction is generalizing lev with
  | nil => exact .ok lev
  | cons i is ih => exact (decodeLevel_passesInput cfg i).bind fun x => ih _

theorem decodeBlock_passesInput (cfg : Config) (blk : BlkType) : PassesInput m n (decodeBlock cfg blk) :=
  prime_passesInput.bind fun _ =>
    ((decodeSig_passesInput cfg _ _).bind fun _ => (decodeLast_passesInput cfg _).bind fun _ =>
      decodeLevels_passesInput cfg _ _).bind fun _ _ hu => ⟨rfl, hu.step rfl rfl (Nat.le_refl _)⟩

/-! The decoding commands. -/

/-- The state with the decoder's other input. -/
def State.withInput (m : Memory) (n : BitVec 17) (s : State) : State := { s with dec := s.dec.withInput m n }

theorem endDec_withInput (s : State) (x : Res DecUnit Unit) :
    endDec (s.withInput m n) (x.mapUnit (DecUnit.withInput m n)) = (endDec s x).withInput m n := by
  cases x with
  | ok _ u => rfl
  | raised e u => rfl

theorem noteBin_withInput (s : State) (x : Res DecUnit Bool) :
    noteBin (x.mapUnit (DecUnit.withInput m n)) (s.withInput m n) = (noteBin x s).withInput m n := by
  cases x with
  | ok b u => rfl
  | raised e u => rfl

theorem guarded_withInput {c : Bool} {e : ErrCode} {s t t' : State} (h : t' = t.withInput m n) :
    (if c then t' else raiseFault e (s.withInput m n)) = (if c then t else raiseFault e s).withInput m n := by
  cases c with
  | true => exact h
  | false => rfl

/-- A decoding command passes other input through, where that agrees with its own from the cursor on. -/
theorem after_withInput {i : Instr} (hi : (∃ c, i = .decBin c) ∨ i = .decStart ∨ ∃ blk comp, i = .decBlock blk comp)
    {s : State} (hs : s.dec.SameAhead m) : after i (s.withInput m n) = (after i s).withInput m n := by
  rcases hi with ⟨c, rfl⟩ | rfl | ⟨blk, comp, rfl⟩
  · rw [after_decBin, after_decBin]
    refine guarded_withInput ?_
    have hbin := (decodeBin_passesInput (n := n) s.cfg c s.dec hs).1
    have hend : (decodeBin s.cfg c (s.dec.withInput m n)).bind (fun _ u => .ok () u) =
        ((decodeBin s.cfg c s.dec).bind fun _ u => .ok () u).mapUnit (DecUnit.withInput m n) :=
      (((decodeBin_passesInput s.cfg c).bind fun _ => .ok ()) s.dec hs).1
    show endDec (noteBin (decodeBin s.cfg c (s.dec.withInput m n)) (s.withInput m n))
      ((decodeBin s.cfg c (s.dec.withInput m n)).bind fun _ u => .ok () u) = _
    rw [hend, hbin, noteBin_withInput, endDec_withInput]
  · rw [after_decStart, after_decStart]
    refine guarded_withInput ?_
    exact (congrArg (endDec (s.withInput m n)) (prime_passesInput s.dec hs).1).trans (endDec_withInput s _)
  · rw [after_decBlock, after_decBlock]
    refine guarded_withInput ?_
    exact (congrArg (endDec (s.withInput m n)) (decodeBlock_passesInput s.cfg blk s.dec hs).1).trans (endDec_withInput s _)

end

/-- Settles O52: the other input passes through, and the command leaves IN_BUF and IN_LEN as they were. -/
theorem consumedInputIsNotReRead : Obligations.ConsumedInputIsNotReRead := by
  intro s i hi
  have hdec : isDecCommand i = true := by
    rcases hi with ⟨c, rfl⟩ | rfl | ⟨blk, comp, rfl⟩
    · rfl
    · rfl
    · rfl
  obtain ⟨-, -, hbuf, hlen⟩ := after_decCommand_frame hdec s
  refine ⟨fun j x hj => ?byte, fun n => ?len⟩
  case byte =>
    have hahead : s.dec.SameAhead (s.dec.inBuf.write j x) := fun k hk =>
      congrArg (fun b : Option Byte => b.getD _) (Memory.read?_write_ne _ _ _ _ (by omega))
    refine (after_withInput (n := s.dec.inLen) hi hahead).trans ?_
    rw [← hlen]
    rfl
  case len =>
    refine (after_withInput (n := n) (m := s.dec.inBuf) hi fun _ _ => rfl).trans ?_
    rw [← hbuf]
    rfl

end Sys2Proof.Machine
end
